-- ==== Sys2Proof/Word.lean ====
section
/-! DEFINITION. The words of the machine: bytes, RAM addresses, float patterns, register indices and operand widths
(00_scope.md R5, R6; 10_state.md R30, R35). -/

namespace Sys2Proof

/-- One 8-bit byte: a register slot, a RAM byte, an instruction byte. -/
abbrev Byte := BitVec 8

/-- A 24-bit RAM address (20_memory.md R70). Its addition wraps modulo 2^24, as R71 says. -/
abbrev Addr := BitVec 24

/-- The 32-bit pattern of an IEEE-754 binary32 value (10_state.md R35). -/
abbrev FloatBits := BitVec 32

/-- The index of an integer register slot, 0 (A) to 25 (Z) (10_state.md R30). -/
abbrev Slot := Fin 26

/-- The index of a float register, 0 to 15 (10_state.md R35). -/
abbrev FSlot := Fin 16

/-- An integer operand width W in bits: 8, 16, 24 or 32 (00_scope.md R5). -/
inductive Width where
  | w8 | w16 | w24 | w32
deriving DecidableEq, Repr, Inhabited

/-- A displacement width Wd in bits: 8, 16 or 24 (00_scope.md R5). -/
inductive DispWidth where
  | d8 | d16 | d24
deriving DecidableEq, Repr, Inhabited

/-- W/8, the number of bytes of a value of width W. -/
def Width.bytes : Width → Nat
  | .w8 => 1
  | .w16 => 2
  | .w24 => 3
  | .w32 => 4

/-- W itself, in bits. -/
def Width.bits (w : Width) : Nat := 8 * w.bytes

/-- The operand width of the same size as a displacement width. -/
def DispWidth.toWidth : DispWidth → Width
  | .d8 => .w8
  | .d16 => .w16
  | .d24 => .w24

end Sys2Proof
end

