-- ==== Sys2Proof/Machine/Float.lean ====
section
/-! DEFINITION. The float primitives of 00_scope.md R10 and the rounded magnitude of 40_alu.md R206, over exact
integers: a finite binary32 value is an integer multiple of 2^(-149), so `fScaled` holds |value| * 2^149 and nothing
is lost. -/

namespace Sys2Proof.Machine

/-- p[31], the sign. -/
def fSign (p : FloatBits) : Bool := p.toNat.testBit 31

/-- p[30:23], the exponent field. -/
def fExp (p : FloatBits) : Nat := p.toNat / 2 ^ 23 % 256

/-- p[22:0], the fraction field. -/
def fFrac (p : FloatBits) : Nat := p.toNat % 2 ^ 23

/-- `isNaN(p)` (R10). -/
def isNaN (p : FloatBits) : Bool := decide (fExp p = 255) && decide (fFrac p ≠ 0)

/-- `isInf(p)` (R10). -/
def isInf (p : FloatBits) : Bool := decide (fExp p = 255) && decide (fFrac p = 0)

/-- |`fval(p)`| * 2^149 for a finite p (R10). For an infinity the same formula gives 2^277, above the value of every
finite pattern, which is what R214's ordering asks of it. -/
def fScaled (p : FloatBits) : Nat :=
  if fExp p = 0 then fFrac p else (2 ^ 23 + fFrac p) * 2 ^ (fExp p - 1)

/-- `fvalx(p)` * 2^149, signed (40_alu.md R214). The two zeros have the same value. -/
def fKey (p : FloatBits) : Int := if fSign p then -(fScaled p : Int) else fScaled p

/-- n/d rounded to the nearest integer, ties to the even integer (R10, `roundHalfEven`). -/
def roundHalfEven (n d : Nat) : Nat :=
  let q := n / d
  let r := n % d
  if 2 * r < d then q
  else if d < 2 * r then q + 1
  else if q % 2 = 0 then q else q + 1

/-- `FMag(p)` of a pattern that is no NaN (40_alu.md R206): the rounded magnitude, and 2^32 for an infinity. -/
def fMag (p : FloatBits) : Nat :=
  if isInf p then 2 ^ 32 else roundHalfEven (fScaled p) (2 ^ 149)

/-- The n of 43_load_store.md R407 for a pattern that is no NaN: the signed rounded value, where 2^32 stands for an
infinite magnitude, which lies outside every destination range as well (DEDUCED, log 19: safe). -/
def fRounded (p : FloatBits) : Int := if fSign p then -(fMag p : Int) else fMag p

/-- `toF32(n)` (R10) for n below 2^32, the largest width of an operand: with the leading one at bit l, the 24-bit
mantissa is n scaled to [2^23, 2^24) and rounded half to even; a mantissa that rounds up to 2^24 carries into the
exponent field. -/
def toF32 (n : Nat) : FloatBits :=
  if n = 0 then 0
  else
    let l := Nat.log2 n
    let m := if l ≤ 23 then n * 2 ^ (23 - l) else roundHalfEven n (2 ^ (l - 23))
    BitVec.ofNat 32 ((127 + l) * 2 ^ 23 + (m - 2 ^ 23))

end Sys2Proof.Machine
end

