-- ==== Sys2Proof/Machine/Bits.lean ====
section
/-! DEFINITION. Bit-field, sign-extension and byte-order helpers: the arithmetic primitives of 00_scope.md R7 and the
big-endian order of 10_state.md R31, 20_memory.md R72 and 41_stack.md R300. -/

namespace Sys2Proof.Machine

/-- `trunc_W(x)` of a natural (R7). -/
def trunc (w : Width) (x : Nat) : Nat := x % 2 ^ w.bits

/-- `trunc_W(x)` of an integer: the two's complement residue (R7). -/
def truncInt (w : Width) (x : Int) : Nat := (x % 2 ^ w.bits).toNat

/-- 2^W - 1, the "max value" of a width (40_alu.md R200). -/
def maxVal (w : Width) : Nat := 2 ^ w.bits - 1

/-- v[W-1], the "sign bit" of a width (40_alu.md R200). -/
def signBit (w : Width) (v : Nat) : Bool := v.testBit (w.bits - 1)

/-- `sext_W(v)` (R7). -/
def sext (w : Width) (v : Nat) : Int := (v : Int) - if signBit w v then 2 ^ w.bits else 0

/-- `clamp(x, 0, 2^W - 1)` (R7). -/
def clampW (w : Width) (x : Int) : Nat := (min (max x 0) (maxVal w)).toNat

/-- `NOT_W(v)` (R7). -/
def notW (w : Width) (v : Nat) : Nat := maxVal w ^^^ v

/-- A big-endian byte list read as a natural: the first byte is the most significant. -/
def beValue : List Byte → Nat
  | [] => 0
  | b :: bs => b.toNat * 256 ^ bs.length + beValue bs

/-- The n low bytes of v, the most significant first. -/
def beBytes : Nat → Nat → List Byte
  | 0, _ => []
  | n + 1, v => BitVec.ofNat 8 (v / 256 ^ n) :: beBytes n v

end Sys2Proof.Machine
end

