-- ==== Sys2Proof/Config.lean ====
section
/-! DEFINITION. What an implementation fixes: the OPEN parameters of the spec (00_scope.md R5, 92_eei_decisions.md).
Parameters that are plain data form the record `Params`, which State carries unchanged; the two that are functions,
`PO_CMP` and `STAMP_STRIDE`, are opaque constants. No value of any of them is chosen here. -/

namespace Sys2Proof.Config

/-- The op tags (30_encoding.md R102). -/
inductive OpTag where
  | LD | LDFF | LDFI | LDFM | STF | LDFX | LDXF | FILL | FILLS
  | ADD | SUB | ADDF | SUBF | MUL | DIV | DIVR | SDIV | SDIVR
  | CP | FCP | NAND | XNOR | IMPLY
  | PUSH | POP | PUSHR | POPR | PUSHF | POPF | PUSHFR | POPFR
  | DJNZ | FDENOM
deriving DecidableEq, Repr, Inhabited

/-- The base B of a memory operand: an absolute address or a register group (30_encoding.md R102). -/
inductive BaseSpec where
  | abs | ind
deriving DecidableEq, Repr, Inhabited

/-- The displacement X of a memory operand: none, or a register group of width Wd (30_encoding.md R102). -/
inductive DispSpec where
  | noDisp
  | disp (wd : DispWidth)
deriving DecidableEq, Repr, Inhabited

/-- The kind T of a jump target (30_encoding.md R102). -/
inductive TargetSpec where
  | tAbs | tReg
deriving DecidableEq, Repr, Inhabited

/-- An operand's shape in a descriptor (30_encoding.md R102). -/
inductive OperandSpec where
  | reg (w : Width)
  | imm (w : Width)
  | mem (w : Width) (b : BaseSpec) (x : DispSpec)
  | addr (b : BaseSpec) (x : DispSpec)
  | freg
  | fimm
  | fmem (b : BaseSpec) (x : DispSpec)
  | ridx
  | fidx
  | tgt (t : TargetSpec)
deriving DecidableEq, Repr, Inhabited

/-- One form of one operation, as an opcode selects it (30_encoding.md R102). -/
structure Descriptor where
  op : OpTag
  operands : List OperandSpec
  mixed : Bool
deriving DecidableEq, Repr, Inhabited

/-- What a primary opcode byte selects (30_encoding.md R101). A byte with no entry in `OpMap` selects `none`. -/
inductive L1Entry where
  | none
  | foreign
  | direct (d : Descriptor)
  | sub (t : List (Byte × Descriptor))
deriving DecidableEq, Repr, Inhabited

/-- `OPMAP`, the opcode map (30_encoding.md R101), as a finite table: the first entry of a byte counts and a byte
without an entry is `none`. Every function from bytes to entries has such a table. -/
abbrev OpMap := List (Byte × L1Entry)

/-- `FLAG_BIT`: the bit of each flag in the 8-bit flags register (10_state.md R40). -/
structure FlagBits where
  z : Fin 8
  c : Fin 8
  s : Fin 8
  v : Fin 8
  po : Fin 8
  eq : Fin 8
  gt : Fin 8
  lt : Fin 8
deriving DecidableEq, Repr, Inhabited

/-- The listed order, the default of `FLAG_BIT` (10_state.md R40). -/
def FlagBits.listed : FlagBits := ⟨0, 1, 2, 3, 4, 5, 6, 7⟩

/-- The OPEN parameters that are plain data (00_scope.md R5). -/
structure Params where
  /-- `OPMAP` (R101). -/
  opmap : OpMap
  /-- `STACK_CAP`, the size of the stack region in bytes (R44). -/
  stackCap : Nat
  /-- `HMEM_ERR_HANDLER`, the id of the handler slot (R502). That slot ids are natural numbers is the model's choice
  (DESIGN CHOICE, log 4: safe). -/
  hmemErrHandler : Nat
  /-- `HMEM_ERR_ID`, the id of the error-id slot (R502), a natural number too (log 4). -/
  hmemErrId : Nat
  /-- `ERR_ID_WIDTH`, in bits (R502). -/
  errIdWidth : Nat
  /-- `ERR_STACK_OVERFLOW` (R502). -/
  errStackOverflow : Nat
  /-- `ERR_STACK_UNDERFLOW` (R502). -/
  errStackUnderflow : Nat
  /-- `RESET_IPO` (R48). -/
  resetIpo : Addr
  /-- `FLAG_BIT` (R40). -/
  flagBit : FlagBits
  /-- `ERR_DIVZERO_ARG` (R54), the argument SDIV by zero reports (R210, R504). The spec leaves its type open
  (91_not_in_source.md N33); that it is a natural number is the model's choice (DESIGN CHOICE, log 24: safe). -/
  errDivZeroArg : Nat
deriving DecidableEq, Repr, Inhabited

/-- The smallest well-formed record. It stands in only where the machine's own record were ill-formed, which the
spec rules out by hypothesis (30_encoding.md R122); see log 8. -/
def Params.minimal : Params where
  opmap := []
  stackCap := 1
  hmemErrHandler := 0
  hmemErrId := 1
  errIdWidth := 1
  errStackOverflow := 0
  errStackUnderflow := 1
  resetIpo := 0
  flagBit := FlagBits.listed
  errDivZeroArg := 0

/-- The machine's OPEN parameters. Nothing is known of them (DESIGN CHOICE, log 1: safe). -/
opaque machineParams : Params

/-- `PO_CMP(W, Wb, a, b)`, the PO flag of an integer CP (40_alu.md R213): "a total Boolean function of the width and
operands only", of which nothing may be assumed (log 6: safe). -/
opaque poCmp (w wb : Width) (a b : Nat) : Bool

/-- `STAMP_STRIDE(N, u)`, the byte distance between stamp starts (43_load_store.md R409). Nothing is known of it; the
default N·u enters a statement as a hypothesis (log 7: safe). -/
opaque stampStride (n u : Nat) : Nat

end Sys2Proof.Config
end

