-- ==== Sys2Proof/Syntax.lean ====
section
/-! DEFINITION. The instructions: `Instr` has one constructor per op tag of 30_encoding.md R123, and its arguments
are that tag's operand forms, so that every row of spec/opcode_table.json is one constructor applied to one choice of
operand forms (log 15). Register and float register indices are already checked here (R128): an index that names no
register cannot be written. -/

namespace Sys2Proof

/-- The base of a memory operand (30_encoding.md R111, R112). -/
inductive Base where
  /-- `Abs`: a 24-bit address. -/
  | abs (a : Addr)
  /-- `Ind`: the 24-bit register group starting at slot `i` holds the address. -/
  | ind (i : Slot)
deriving DecidableEq, Repr

/-- The displacement of a memory operand (30_encoding.md R113). -/
inductive Disp where
  /-- `NoDisp`: the displacement is 0. -/
  | noDisp
  /-- `Disp(Wd)`: the signed value of the Wd-bit register group starting at slot `j`. -/
  | disp (wd : DispWidth) (j : Slot)
deriving DecidableEq, Repr

/-- A memory operand: base and displacement (30_encoding.md R114). -/
structure MemRef where
  base : Base
  disp : Disp
deriving DecidableEq, Repr

/-- `I(W)`: an integer location (30_encoding.md R123). -/
inductive ILoc where
  | reg (w : Width) (i : Slot)
  | mem (w : Width) (m : MemRef)
deriving DecidableEq, Repr

/-- `S(W)`: an integer source (30_encoding.md R123). An immediate is written as 32 bits; a well-formed one fits W. -/
inductive ISrc where
  | reg (w : Width) (i : Slot)
  | imm (w : Width) (v : BitVec 32)
  | mem (w : Width) (m : MemRef)
deriving DecidableEq, Repr

/-- `Reg(W) | Imm(W)`: the pattern or count of a fill (30_encoding.md R123). -/
inductive RegOrImm where
  | reg (w : Width) (i : Slot)
  | imm (w : Width) (v : BitVec 32)
deriving DecidableEq, Repr

/-- `FL`: a float location (30_encoding.md R123). -/
inductive FLoc where
  | freg (k : FSlot)
  | fmem (m : MemRef)
deriving DecidableEq, Repr

/-- `FS`: a float source (30_encoding.md R123). -/
inductive FSrc where
  | freg (k : FSlot)
  | fimm (p : FloatBits)
  | fmem (m : MemRef)
deriving DecidableEq, Repr

/-- `FReg | FImm`: the source of a float store (30_encoding.md R123, row STF). -/
inductive FRegOrImm where
  | freg (k : FSlot)
  | fimm (p : FloatBits)
deriving DecidableEq, Repr

/-- The counter of DJNZ (30_encoding.md R123, row DJNZ): it has no displaced and no immediate form (R356). -/
inductive Cell where
  | reg (w : Width) (i : Slot)
  | abs (w : Width) (a : Addr)
  | ind (w : Width) (i : Slot)
deriving DecidableEq, Repr

/-- The target of DJNZ (30_encoding.md R116). -/
inductive Target where
  | abs (a : Addr)
  | reg (i : Slot)
deriving DecidableEq, Repr

/-- An operand of any shape, as the decoder produces it (30_encoding.md R102, R117). -/
inductive Operand where
  | reg (w : Width) (i : Slot)
  | imm (w : Width) (v : BitVec 32)
  | mem (w : Width) (m : MemRef)
  | addr (m : MemRef)
  | freg (k : FSlot)
  | fimm (p : FloatBits)
  | fmem (m : MemRef)
  | ridx (i : Slot)
  | fidx (k : FSlot)
  | tgt (t : Target)
deriving DecidableEq, Repr

/-- The instructions, one constructor per op tag (30_encoding.md R102, R123). -/
inductive Instr where
  /-- LD, integer copy (R401). -/
  | ld (dst : ILoc) (src : ISrc)
  /-- LD, float register to float register (R402). -/
  | ldff (d s : FSlot)
  /-- LD, float immediate to float register (R403). -/
  | ldfi (d : FSlot) (p : FloatBits)
  /-- LD, RAM to float register (R404). -/
  | ldfm (d : FSlot) (m : MemRef)
  /-- LD, float to RAM (R405). -/
  | stf (m : MemRef) (src : FRegOrImm)
  /-- LD, integer to float register with conversion (R406). -/
  | ldfx (d : FSlot) (src : ISrc)
  /-- LD, float register to integer destination, narrowing (R407). -/
  | ldxf (dst : ILoc) (s : FSlot)
  /-- FILL (R408). -/
  | fill (m : MemRef) (pattern count : RegOrImm)
  /-- FILLS, stamped fill; the repeat count is `Reg(Wr)` (R409). -/
  | fills (m : MemRef) (pattern count : RegOrImm) (wr : Width) (rep : Slot)
  /-- ADD (R202). -/
  | add (dst : ILoc) (src : ISrc)
  /-- SUB (R203). -/
  | sub (dst : ILoc) (src : ISrc)
  /-- ADD with a float source (R204). -/
  | addf (dst : ILoc) (src : FSrc)
  /-- SUB with a float source (R205). -/
  | subf (dst : ILoc) (src : FSrc)
  /-- MUL (R207). -/
  | mul (dst : ILoc) (src : ISrc)
  /-- DIV (R208). -/
  | div (dst : ILoc) (src : ISrc)
  /-- DIV with remainder (R209). -/
  | divr (dst : ILoc) (src : ISrc) (rem : ILoc)
  /-- SDIV (R210). -/
  | sdiv (dst : ILoc) (src : ISrc)
  /-- SDIV with remainder (R211). -/
  | sdivr (dst : ILoc) (src : ISrc) (rem : ILoc)
  /-- CP, integer compare (R212). -/
  | cp (op1 : ILoc) (op2 : ISrc)
  /-- CP, float compare (R214). -/
  | fcp (op1 : FLoc) (op2 : FSrc)
  /-- NAND (R215). -/
  | nand (dst : ILoc) (src : ISrc)
  /-- XNOR (R216). -/
  | xnor (dst : ILoc) (src : ISrc)
  /-- IMPLY (R217). -/
  | imply (dst : ILoc) (src : ISrc)
  /-- PUSH of a register group (R303). -/
  | push (w : Width) (i : Slot)
  /-- POP into a register group (R304). -/
  | pop (w : Width) (i : Slot)
  /-- PUSH of a register range (R305). -/
  | pushr (s e : Slot)
  /-- POP of a register range (R306). -/
  | popr (s e : Slot)
  /-- PUSH of a float register (R307). -/
  | pushf (k : FSlot)
  /-- POP into a float register (R308). -/
  | popf (k : FSlot)
  /-- PUSH of a float register range (R309). -/
  | pushfr (s e : FSlot)
  /-- POP of a float register range (R310). -/
  | popfr (s e : FSlot)
  /-- DJNZ (R350 to R354). -/
  | djnz (cell : Cell) (tgt : Target)
  /-- The unspecified float reciprocal and denominator operations, with any operands (R219). -/
  | fdenom (operands : List Operand)
deriving DecidableEq, Repr

/-- W of an integer location. -/
def ILoc.width : ILoc → Width
  | .reg w _ => w
  | .mem w _ => w

/-- W of an integer source. -/
def ISrc.width : ISrc → Width
  | .reg w _ => w
  | .imm w _ => w
  | .mem w _ => w

/-- W of a fill's pattern or count. -/
def RegOrImm.width : RegOrImm → Width
  | .reg w _ => w
  | .imm w _ => w

/-- W of a DJNZ counter. -/
def Cell.width : Cell → Width
  | .reg w _ => w
  | .abs w _ => w
  | .ind w _ => w

end Sys2Proof
end

