-- ==== Sys2Proof/WellFormed.lean ====
section
/-! DEFINITION. Well-formed instructions, and the well-formedness conditions of OPMAP (30_encoding.md R122) and of the
other OPEN parameters (60_exceptions.md R502, 10_state.md R40). -/

namespace Sys2Proof

/-! ### Instructions -/

/-- An immediate of width W is below 2^W (00_scope.md R6). -/
def immFits (w : Width) (v : BitVec 32) : Bool := v.toNat < 2 ^ w.bits

/-- Every immediate fits its width. -/
def ISrc.wf : ISrc → Bool
  | .imm w v => immFits w v
  | .reg .. | .mem .. => true

/-- Every immediate fits its width. -/
def RegOrImm.wf : RegOrImm → Bool
  | .imm w v => immFits w v
  | .reg .. => true

/-- Every immediate fits its width. -/
def Operand.wf : Operand → Bool
  | .imm w v => immFits w v
  | _ => true

/-- A well-formed instruction: immediates fit, and the two widths of an integer LD are equal (30_encoding.md R122 c). -/
def Instr.wf : Instr → Bool
  | .ld dst src => src.wf && decide (dst.width = src.width)
  | .ldfx _ src => src.wf
  | .fill _ p n => p.wf && n.wf
  | .fills _ p n _ _ => p.wf && n.wf
  | .add _ src | .sub _ src | .mul _ src | .div _ src | .sdiv _ src => src.wf
  | .divr _ src _ | .sdivr _ src _ => src.wf
  | .cp _ src | .nand _ src | .xnor _ src | .imply _ src => src.wf
  | .fdenom ops => ops.all Operand.wf
  | .ldff .. | .ldfi .. | .ldfm .. | .stf .. | .ldxf .. | .addf .. | .subf .. | .fcp .. => true
  | .push .. | .pop .. | .pushr .. | .popr .. | .pushf .. | .popf .. | .pushfr .. | .popfr .. | .djnz .. => true

namespace Config

/-! ### Descriptors: the candidate rows of 30_encoding.md R123 -/

/-- `I(W)`. -/
def OperandSpec.isILoc : OperandSpec → Bool
  | .reg _ | .mem .. => true
  | _ => false

/-- `S(W)`. -/
def OperandSpec.isISrc : OperandSpec → Bool
  | .reg _ | .imm _ | .mem .. => true
  | _ => false

/-- `Reg(W) | Imm(W)`. -/
def OperandSpec.isRegOrImm : OperandSpec → Bool
  | .reg _ | .imm _ => true
  | _ => false

/-- `FL`. -/
def OperandSpec.isFLoc : OperandSpec → Bool
  | .freg | .fmem .. => true
  | _ => false

/-- `FS`. -/
def OperandSpec.isFSrc : OperandSpec → Bool
  | .freg | .fimm | .fmem .. => true
  | _ => false

/-- A DJNZ counter: register, absolute or indirect memory, without displacement (R356). -/
def OperandSpec.isCell : OperandSpec → Bool
  | .reg _ | .mem _ _ .noDisp => true
  | _ => false

/-- The width an LD compares (R122 c). -/
def OperandSpec.width? : OperandSpec → Option Width
  | .reg w | .imm w | .mem w _ _ => some w
  | _ => none

/-- The candidate operand lists of each op tag (R123; with it R122 a, c and e: no list has an immediate, address,
index or target in a destination position). -/
def candidate : OpTag → List OperandSpec → Bool
  | .LD, [d, s] => d.isILoc && s.isISrc && decide (d.width? = s.width?)
  | .LDFF, [.freg, .freg] => true
  | .LDFI, [.freg, .fimm] => true
  | .LDFM, [.freg, .fmem _ _] => true
  | .STF, [.fmem _ _, .freg] => true
  | .STF, [.fmem _ _, .fimm] => true
  | .LDFX, [.freg, s] => s.isISrc
  | .LDXF, [d, .freg] => d.isILoc
  | .FILL, [.addr _ _, p, n] => p.isRegOrImm && n.isRegOrImm
  | .FILLS, [.addr _ _, p, n, .reg _] => p.isRegOrImm && n.isRegOrImm
  | .ADD, [d, s] | .SUB, [d, s] | .MUL, [d, s] | .DIV, [d, s] | .SDIV, [d, s] => d.isILoc && s.isISrc
  | .CP, [d, s] | .NAND, [d, s] | .XNOR, [d, s] | .IMPLY, [d, s] => d.isILoc && s.isISrc
  | .ADDF, [d, s] | .SUBF, [d, s] => d.isILoc && s.isFSrc
  | .DIVR, [d, s, r] | .SDIVR, [d, s, r] => d.isILoc && s.isISrc && r.isILoc
  | .FCP, [a, b] => a.isFLoc && b.isFSrc
  | .PUSH, [.reg _] => true
  | .POP, [.reg _] => true
  | .PUSHR, [.ridx, .ridx] => true
  | .POPR, [.ridx, .ridx] => true
  | .PUSHF, [.freg] => true
  | .POPF, [.freg] => true
  | .PUSHFR, [.fidx, .fidx] => true
  | .POPFR, [.fidx, .fidx] => true
  | .DJNZ, [c, .tgt _] => c.isCell
  | .FDENOM, _ => true
  | _, _ => false

/-- The number of index fields of an operand (R106, R107). -/
def OperandSpec.indexFields : OperandSpec → Nat
  | .reg _ | .freg | .ridx | .fidx => 1
  | .imm _ | .fimm => 0
  | .mem _ b x | .addr b x | .fmem b x =>
    (match b with | .abs => 0 | .ind => 1) + (match x with | .noDisp => 0 | .disp _ => 1)
  | .tgt .tAbs => 0
  | .tgt .tReg => 1

/-- The number of index fields of a descriptor. -/
def Descriptor.indexFields (d : Descriptor) : Nat := (d.operands.map OperandSpec.indexFields).sum

/-- A well-formed descriptor (R122 a, c, d, e; R122 b holds by the types). -/
def Descriptor.wf (d : Descriptor) : Bool :=
  candidate d.op d.operands && (!d.mixed || decide (2 ≤ d.indexFields))

/-- Every descriptor of an entry is well-formed. -/
def L1Entry.wf : L1Entry → Bool
  | .none | .foreign => true
  | .direct d => d.wf
  | .sub t => t.all fun e => e.2.wf

/-- A well-formed `OPMAP` (R122). -/
def wfOpMap (m : OpMap) : Bool := m.all fun e => e.2.wf

/-- `FLAG_BIT` is injective (92_eei_decisions.md D53). -/
def FlagBits.wf (b : FlagBits) : Bool := decide [b.z, b.c, b.s, b.v, b.po, b.eq, b.gt, b.lt].Nodup

/-- Well-formed parameters: OPMAP by R122, STACK_CAP at least 1 (D30), two distinct error codes that fit
ERR_ID_WIDTH (R502), two distinct HMEM slots (DEDUCED from R45 "exactly two slots", log 4), FLAG_BIT injective (D53). -/
def Params.wf (p : Params) : Bool :=
  wfOpMap p.opmap && decide (1 ≤ p.stackCap) && decide (p.hmemErrHandler ≠ p.hmemErrId) &&
    decide (p.errStackOverflow ≠ p.errStackUnderflow) && decide (p.errStackOverflow < 2 ^ p.errIdWidth) &&
    decide (p.errStackUnderflow < 2 ^ p.errIdWidth) && p.flagBit.wf

/-- The parameters of the machine after reset: the machine's own record, which the spec takes to be well-formed
(R122, "A model takes the well-formedness as a hypothesis on the parameter"; log 8). -/
def params : Params := if machineParams.wf then machineParams else Params.minimal

end Config

end Sys2Proof
end

