-- ==== Sys2Proof/Machine/State.lean ====
section
/-! DEFINITION. The machine's state: everything 10_state.md R30 to R48 gives it, the event history of the ERR and LOG
ports (60_exceptions.md R510), and the machine's OPEN parameters, constant over a run. Plain data throughout. -/

namespace Sys2Proof.Machine

/-- Bytes by address: addresses strictly rising, no byte equal to what an unlisted address reads as (`Memory.blank`).
RAM and the stack region are both held so. -/
abbrev Memory := List Host.Cell

/-- HMEM slots by slot id, in the same canonical form (10_state.md R45, R53). -/
abbrev Hmem := List (Nat × Nat)

/-- The flags register: eight independent booleans (10_state.md R36). -/
structure Flags where
  /-- Zero. -/
  z : Bool
  /-- Carry. -/
  c : Bool
  /-- Sign-Negative. -/
  s : Bool
  /-- Overflow. -/
  v : Bool
  /-- Parity/Odd. -/
  po : Bool
  /-- Equal. -/
  eq : Bool
  /-- Greater-Than. -/
  gt : Bool
  /-- Less-Than. -/
  lt : Bool
deriving DecidableEq, Repr

/-- The kind of a stack fault (60_exceptions.md R501). -/
inductive StackFaultKind where
  | overflow
  | underflow
deriving DecidableEq, Repr

/-- An event on an output port (60_exceptions.md R510). -/
inductive Event where
  /-- The ERR port: "report runtime error" with its one argument (10_state.md R54, 60_exceptions.md R504), whose type
  the spec leaves open and the model takes to be the natural numbers (DESIGN CHOICE, log 24: safe). -/
  | err (arg : Nat)
  /-- The LOG port: the diagnostic of a stack fault, its kind and the IPO (10_state.md R55, 60_exceptions.md R501). -/
  | log (kind : StackFaultKind) (ipo : Addr)
deriving DecidableEq, Repr

structure State where
  /-- The integer register file x[0..25] (10_state.md R30). -/
  regs : Vector Byte 26
  /-- The float register file F0..F15 (10_state.md R35). -/
  fregs : Vector FloatBits 16
  /-- The flags register (10_state.md R36). -/
  flags : Flags
  /-- The instruction pointer IPO (10_state.md R41). -/
  ipo : Addr
  /-- The stack pointer SPR, the number of bytes on the stack (10_state.md R43). -/
  spr : Nat
  /-- The stack region STK, by byte index (10_state.md R44). -/
  stack : Memory
  /-- RAM (10_state.md R46). -/
  ram : Memory
  /-- The HMEM slots, by slot id (10_state.md R45). -/
  hmem : Hmem
  /-- The events sent on the ERR and LOG ports, newest first; no rule reads them (60_exceptions.md R510). -/
  events : List Event
  /-- The OPEN parameters (00_scope.md R5); no instruction changes them. -/
  cfg : Config.Params
deriving DecidableEq, Repr

/-- Why the machine stops with a fault. The spec's own stack faults are traps, after which the machine goes on
(60_exceptions.md R501), so they are next states and not among these. -/
inductive Fault where
  /-- Raised by POP, POPR, POPF and POPFR where the pop would read a stack byte at or above STACK_CAP, which the stack
  region does not have (10_state.md R44). It takes a state whose SPR exceeds STACK_CAP, which R43 rules out. Safe: the
  machine stops where no machine can be (log 12). -/
  | stackOutOfRegion
deriving DecidableEq, Repr

/-- Why a step gives no meaning; the state is unchanged and IPO still points at P (60_exceptions.md R511). All are
safe: no claim can pass a refused step. -/
inductive Refusal where
  /-- Raised by dispatch: the primary byte belongs to a family outside the block (30_encoding.md R104). Safe. -/
  | foreign
  /-- Raised by dispatch: the opcode bytes have no OPMAP entry (30_encoding.md R105). Safe. -/
  | illegal
  /-- Raised by dispatch: an integer index field holds 26..31 (30_encoding.md R128). Safe. -/
  | badRegIndex
  /-- Raised by ADDF, SUBF and LDXF: a NaN source in a float-to-integer path (40_alu.md R206, 43_load_store.md R407).
  Safe. -/
  | floatNaN
  /-- Raised by FDENOM: an operation of which no source gives operands or results (40_alu.md R219). Safe. -/
  | unspecified
  /-- Raised by dispatch: the selected descriptor matches no candidate row, so OPMAP is not well-formed
  (30_encoding.md R122, log 13). Safe. -/
  | illFormedMap
  /-- The decoder met the end of its byte list inside an instruction; `step` fetches exactly an instruction's bytes and
  never raises it (log 14). Safe. -/
  | truncated
  /-- An instruction that has no meaning yet; no arm of `exec` uses it. Safe. -/
  | notModelled (mnemonic : String)
deriving DecidableEq, Repr

/-- Every flag false (10_state.md R48). -/
def Flags.clear : Flags := ⟨false, false, false, false, false, false, false, false⟩

/-- The machine right after reset (10_state.md R48, 70_reset_and_hazards.md R600). RAM, HMEM and the stack region,
whose contents the spec does not give, list nothing (logs 2, 3, 4); the OPEN parameters are the machine's own. -/
def State.reset : State where
  regs := Vector.replicate 26 0
  fregs := Vector.replicate 16 0
  flags := Flags.clear
  ipo := Config.params.resetIpo
  spr := 0
  stack := []
  ram := []
  hmem := []
  events := []
  cfg := Config.params

end Sys2Proof.Machine
end

