-- ==== Sys2Proof/Machine/Ops.lean ====
section
/-! DEFINITION. The named operations over registers, RAM, the stack region, HMEM and the ports, and the two events an
instruction can end in: the stack fault protocol (60_exceptions.md R501) and the DivZero report (R504). There is no
return from a stack fault (R505), so no operation for one. -/

namespace Sys2Proof.Machine

/-! ### Sorted tables: RAM, the stack region and HMEM -/

/-- The value at key `a`, `z` where no entry lists it. -/
def cellGet {β : Type} (z : β) : List (Nat × β) → Nat → β
  | [], _ => z
  | (k, c) :: t, a => if a = k then c else cellGet z t a

/-- Writes `b` at key `a`, keeping the keys strictly rising and listing no `z`. -/
def cellPut {β : Type} [DecidableEq β] (z : β) : List (Nat × β) → Nat → β → List (Nat × β)
  | [], a, b => if b = z then [] else [(a, b)]
  | (k, c) :: t, a, b =>
    if a < k then (if b = z then (k, c) :: t else (a, b) :: (k, c) :: t)
    else if a = k then (if b = z then t else (a, b) :: t)
    else (k, c) :: cellPut z t a b

/-- The canonical form: keys strictly rising and no entry equal to `z`. -/
def cellWf {β : Type} [DecidableEq β] (z : β) : List (Nat × β) → Bool
  | [] => true
  | (k, c) :: t => decide (c ≠ z) && t.all (fun e => decide (k < e.1)) && cellWf z t

/-- What an unlisted address of RAM or of the stack region reads as (DESIGN CHOICE, logs 2 and 3: unsafe). -/
def Memory.blank : Byte := 0

/-- One byte of RAM or of the stack region. -/
def Memory.read (m : Memory) (a : Nat) : Byte := cellGet Memory.blank m a

/-- Writes one byte. -/
def Memory.put (m : Memory) (a : Nat) (b : Byte) : Memory := cellPut Memory.blank m a b

/-- The canonical form of a memory. -/
def Memory.wf (m : Memory) : Bool := cellWf Memory.blank m

/-- What an HMEM slot that the host has not set holds (DESIGN CHOICE, log 4: unsafe). -/
def Hmem.blank : Nat := 0

/-- `HmemRead(slot)` (10_state.md R53). -/
def Hmem.read (h : Hmem) (slot : Nat) : Nat := cellGet Hmem.blank h slot

/-- `HmemWrite(slot, v)` (10_state.md R53). -/
def Hmem.put (h : Hmem) (slot v : Nat) : Hmem := cellPut Hmem.blank h slot v

/-- The canonical form of HMEM. -/
def Hmem.wf (h : Hmem) : Bool := cellWf Hmem.blank h

/-! ### RAM: big-endian, wrapping modulo 2^24 byte by byte (20_memory.md R71, R72) -/

/-- n bytes of RAM from address `a` on, lowest address first. -/
def ramBytes (m : Memory) (a : Addr) : Nat → List Byte
  | 0 => []
  | n + 1 => m.read a.toNat :: ramBytes m (a + 1) n

/-- Stores a byte list from address `a` on. -/
def ramStore (m : Memory) (a : Addr) : List Byte → Memory
  | [] => m
  | b :: bs => ramStore (m.put a.toNat b) (a + 1) bs

/-- `MemRead(a, n)` (R72). -/
def memRead (m : Memory) (a : Addr) (n : Nat) : Nat := beValue (ramBytes m a n)

/-- `MemWrite(a, n, v)` (R72). -/
def memWrite (m : Memory) (a : Addr) (n v : Nat) : Memory := ramStore m a (beBytes n v)

/-- `FillCore(a, p, u, N)` (43_load_store.md R408): N consecutive copies of the u-byte pattern p. -/
def fillCore (m : Memory) (a : Addr) (p u : Nat) : Nat → Memory
  | 0 => m
  | n + 1 => memWrite (fillCore m a p u n) (a + BitVec.ofNat 24 (n * u)) u p

/-- The stamps of FILLS (43_load_store.md R409): R fills of N units each, `stride` bytes apart. -/
def stampCore (m : Memory) (a : Addr) (p u n stride : Nat) : Nat → Memory
  | 0 => m
  | r + 1 => fillCore (stampCore m a p u n stride r) (a + BitVec.ofNat 24 (r * stride)) p u n

/-! ### The stack region: no wrap (41_stack.md R300) -/

/-- n bytes of the stack region from index `i` on. -/
def stkBytes (m : Memory) (i : Nat) : Nat → List Byte
  | 0 => []
  | n + 1 => m.read i :: stkBytes m (i + 1) n

/-- Stores a byte list in the stack region from index `i` on. -/
def stkStore (m : Memory) (i : Nat) : List Byte → Memory
  | [] => m
  | b :: bs => stkStore (m.put i b) (i + 1) bs

namespace State

/-! ### Field updates -/

/-- The state with another integer register file. -/
def setRegs (s : State) (r : Vector Byte 26) : State := { s with regs := r }
/-- The state with another float register file. -/
def setFregs (s : State) (r : Vector FloatBits 16) : State := { s with fregs := r }
/-- The state with other flags. -/
def setFlags (s : State) (f : Flags) : State := { s with flags := f }
/-- The state with another IPO. -/
def setIpo (s : State) (a : Addr) : State := { s with ipo := a }
/-- The state with another SPR. -/
def setSpr (s : State) (n : Nat) : State := { s with spr := n }
/-- The state with another stack region. -/
def setStack (s : State) (m : Memory) : State := { s with stack := m }
/-- The state with another RAM. -/
def setRam (s : State) (m : Memory) : State := { s with ram := m }
/-- The state with another HMEM. -/
def setHmem (s : State) (h : Hmem) : State := { s with hmem := h }
/-- The state after one more port event. -/
def emit (s : State) (e : Event) : State := { s with events := e :: s.events }

/-! ### Registers (10_state.md R30 to R32, R35) -/

/-- `x[i]`. -/
def slot (s : State) (i : Slot) : Byte := s.regs[i.val]

/-- `x[i] <- v`. -/
def setSlot (s : State) (i : Slot) (b : Byte) : State := s.setRegs (s.regs.set i.val b)

/-- `f[k]`. -/
def freg (s : State) (k : FSlot) : FloatBits := s.fregs[k.val]

/-- `f[k] <- v`. -/
def setFreg (s : State) (k : FSlot) (p : FloatBits) : State := s.setFregs (s.fregs.set k.val p)

/-- The bytes of the n slots from `i` on; `i + 1` wraps modulo 26 (R32). -/
def slotBytes (s : State) (i : Slot) : Nat → List Byte
  | 0 => []
  | n + 1 => s.slot i :: s.slotBytes (i + 1) n

/-- Writes a byte list to the slots from `i` on. -/
def setSlots (s : State) (i : Slot) : List Byte → State
  | [] => s
  | b :: bs => (s.setSlot i b).setSlots (i + 1) bs

/-- `xg(W, i)`: slot i is the most significant byte (R31). -/
def group (s : State) (w : Width) (i : Slot) : Nat := beValue (s.slotBytes i w.bytes)

/-- `xg(W, i) <- v` (R31). -/
def setGroup (s : State) (w : Width) (i : Slot) (v : Nat) : State := s.setSlots i (beBytes w.bytes v)

/-- The bytes of the n float registers from `k` on, four bytes each, big-endian; `k + 1` wraps modulo 16
(41_stack.md R309). -/
def fregBytes (s : State) (k : FSlot) : Nat → List Byte
  | 0 => []
  | n + 1 => beBytes 4 (s.freg k).toNat ++ s.fregBytes (k + 1) n

/-! ### The stack fault protocol and the DivZero report -/

/-- The code a stack fault records (60_exceptions.md R500). -/
def faultCode (s : State) : StackFaultKind → Nat
  | .overflow => s.cfg.errStackOverflow
  | .underflow => s.cfg.errStackUnderflow

/-- `raise StackFault(kind)`: taking the machine's one exception (60_exceptions.md R501). LOG event with the IPO of
the fall-through address, SPR to empty, IPO from the handler slot of HMEM reduced to 24 bits, the code into the
error-id slot; nothing is saved and nothing else changes. -/
def stackFault (s : State) (kind : StackFaultKind) : State :=
  (((s.emit (.log kind s.ipo)).setSpr 0).setIpo (BitVec.ofNat 24 (s.hmem.read s.cfg.hmemErrHandler))).setHmem
    (s.hmem.put s.cfg.hmemErrId (s.faultCode kind))

/-- `report DivZero`: one event on the ERR port and nothing else (60_exceptions.md R504). -/
def reportDivZero (s : State) : State := s.emit (.err s.cfg.errDivZeroArg)

/-! ### Push and pop (41_stack.md R301, R302, R311) -/

/-- The effect of pushing bytes that fit: written from SPR upward, SPR past them (R301). -/
def pushBytes (s : State) (bs : List Byte) : State :=
  (s.setStack (stkStore s.stack s.spr bs)).setSpr (s.spr + bs.length)

/-- `StackPush` of a byte list: the bound is checked once, before any write (R301, R305, R309). -/
def push (s : State) (bs : List Byte) : Host.Outcome State Fault Refusal :=
  if s.cfg.stackCap < s.spr + bs.length then .next (s.stackFault .overflow)
  else .next (s.pushBytes bs)

/-- Checks a pop of n bytes in all, before any read or write, and goes on where it can be made (R302, R306, R310).
An SPR above STACK_CAP, which R43 rules out, would read a byte the region does not have (log 12). -/
def popCheck (s : State) (n : Nat) (k : State → State) : Host.Outcome State Fault Refusal :=
  if s.spr < n then .next (s.stackFault .underflow)
  else if s.cfg.stackCap < s.spr then .fault .stackOutOfRegion
  else .next (k s)

/-- The top n bytes of the stack, as `StkRead(SPR - n, n)` gives them (R302). -/
def topBytes (s : State) (n : Nat) : List Byte := stkBytes s.stack (s.spr - n) n

/-- SPR after n bytes are popped (R302). -/
def drop (s : State) (n : Nat) : State := s.setSpr (s.spr - n)

/-- The loop of POPR (R306): n slots from `i` downward, each popped as one byte; `i - 1` wraps modulo 26. -/
def popSlots (s : State) (i : Slot) : Nat → State
  | 0 => s
  | n + 1 => ((s.drop 1).setSlots i (s.topBytes 1)).popSlots (i - 1) n

/-- The loop of POPFR (R310): n float registers from `k` downward, four bytes each; `k - 1` wraps modulo 16. -/
def popFregs (s : State) (k : FSlot) : Nat → State
  | 0 => s
  | n + 1 => ((s.drop 4).setFreg k (BitVec.ofNat 32 (beValue (s.topBytes 4)))).popFregs (k - 1) n

end State

/-- `RangeCount(s, e, M)` for two indices below M (41_stack.md R311): a wrapping range, one register where s = e. -/
def rangeCount {M : Nat} (s e : Fin M) : Nat := (e.val + M - s.val) % M + 1

end Sys2Proof.Machine
end

