-- ==== Sys2Proof/Machine/Flags.lean ====
section
/-! DEFINITION. Every flag computation of the spec (10_state.md R38): arithmetic (40_alu.md R201), saturating
float-source arithmetic (R204, R205), integer and float compare (R212 to R214), narrowing (43_load_store.md R407). -/

namespace Sys2Proof.Machine

open Config

/-- `SetArith(r, W, c)` (R201). PO, EQ, GT and LT keep their values. -/
def Flags.arith (f : Flags) (w : Width) (r : Nat) (c : Bool) : Flags :=
  { f with z := decide (r = 0), c := c, s := signBit w r, v := false }

/-- The flags of ADD and SUB with a float source (R204, R205): V where the result `r` saturated the exact `x`. -/
def Flags.saturated (f : Flags) (w : Width) (r : Nat) (x : Int) : Flags :=
  { f with z := decide (r = 0), c := false, s := signBit w r, v := decide ((r : Int) ≠ x) }

/-- V alone, where a narrowed value `r` differs from the rounded value `n` (43_load_store.md R407). -/
def Flags.narrowed (f : Flags) (r : Nat) (n : Int) : Flags := { f with v := decide ((r : Int) ≠ n) }

/-- The flags of an integer CP (R212); PO is the OPEN `PO_CMP` (R213). -/
def Flags.compare (w wb : Width) (a b : Nat) : Flags where
  z := decide (a = b)
  c := decide (a < b)
  s := signBit w (truncInt w ((a : Int) - b))
  v := false
  po := poCmp w wb a b
  eq := decide (a = b)
  gt := decide (b < a)
  lt := decide (a < b)

/-- The flags of a float CP (R214): IEEE ordering, a NaN unordered with everything. -/
def Flags.compareFloat (p q : FloatBits) : Flags :=
  let ordered := !(isNaN p || isNaN q)
  let lt := ordered && decide (fKey p < fKey q)
  let gt := ordered && decide (fKey q < fKey p)
  let eq := ordered && decide (fKey p = fKey q)
  { z := eq, c := lt, s := lt, v := false, po := false, eq := eq, gt := gt, lt := lt }

/-- The flags as the 8-bit flags register, under the OPEN bit positions `FLAG_BIT` (10_state.md R40). No instruction
reads it (R39); the host may. -/
def Flags.toByte (f : Flags) (b : FlagBits) : Byte :=
  let bit (on : Bool) (i : Fin 8) : Byte := if on then 1#8 <<< i.val else 0
  bit f.z b.z ||| bit f.c b.c ||| bit f.s b.s ||| bit f.v b.v ||| bit f.po b.po ||| bit f.eq b.eq |||
    bit f.gt b.gt ||| bit f.lt b.lt

end Sys2Proof.Machine
end

