-- ==== Sys2Proof/Machine/Operands.lean ====
section
/-! DEFINITION. Resolved operands, their reads and their writes (30_encoding.md R112 to R118): an operand is resolved
once, from the register values at the start of the step (R120). -/

namespace Sys2Proof.Machine

/-! ### The address generator (R111 to R114) -/

/-- The base address of a memory operand (R111, R112). -/
def baseAddr (s : State) : Base → Addr
  | .abs a => a
  | .ind i => BitVec.ofNat 24 (s.group .w24 i)

/-- The displacement of a memory operand (R113). -/
def dispVal (s : State) : Disp → Int
  | .noDisp => 0
  | .disp wd j => sext wd.toWidth (s.group wd.toWidth j)

/-- `EA = trunc_24(a + dsp)` (R114). -/
def effAddr (s : State) (m : MemRef) : Addr := BitVec.ofInt 24 ((baseAddr s m.base).toNat + dispVal s m.disp)

/-! ### Integer operands -/

/-- A resolved integer location: `RegOp` or `MemOp` (R117). -/
inductive Loc where
  | reg (w : Width) (i : Slot)
  | mem (w : Width) (ea : Addr)
deriving DecidableEq, Repr

/-- `width(op)` (R117). -/
def Loc.width : Loc → Width
  | .reg w _ => w
  | .mem w _ => w

/-- `read(op)` (R117). -/
def Loc.read (l : Loc) (s : State) : Nat :=
  match l with
  | .reg w i => s.group w i
  | .mem w ea => memRead s.ram ea w.bytes

/-- `write(op, v)` (R118). -/
def Loc.write (l : Loc) (s : State) (v : Nat) : State :=
  match l with
  | .reg w i => s.setGroup w i (trunc w v)
  | .mem w ea => s.setRam (memWrite s.ram ea w.bytes (trunc w v))

/-- Resolves an integer location (R117). -/
def resolve (s : State) : ILoc → Loc
  | .reg w i => .reg w i
  | .mem w m => .mem w (effAddr s m)

/-- `read` of an integer source (R117). An immediate is its value, which in a well-formed instruction is below 2^W. -/
def srcVal (s : State) : ISrc → Nat
  | .reg w i => s.group w i
  | .imm w v => trunc w v.toNat
  | .mem w m => memRead s.ram (effAddr s m) w.bytes

/-- `read` of a fill's pattern or count (R117). -/
def regOrImmVal (s : State) : RegOrImm → Nat
  | .reg w i => s.group w i
  | .imm w v => trunc w v.toNat

/-! ### Float operands -/

/-- The 32-bit float at an effective address (20_memory.md R73). -/
def floatAt (s : State) (m : MemRef) : FloatBits := BitVec.ofNat 32 (memRead s.ram (effAddr s m) 4)

/-- `read` of a float location (R117). -/
def flocVal (s : State) : FLoc → FloatBits
  | .freg k => s.freg k
  | .fmem m => floatAt s m

/-- `read` of a float source (R117). -/
def fsrcVal (s : State) : FSrc → FloatBits
  | .freg k => s.freg k
  | .fimm p => p
  | .fmem m => floatAt s m

/-- `read` of a float store's source (R117). -/
def fregOrImmVal (s : State) : FRegOrImm → FloatBits
  | .freg k => s.freg k
  | .fimm p => p

/-! ### DJNZ operands -/

/-- Resolves a DJNZ counter (42_control.md R351 to R353). -/
def resolveCell (s : State) : Cell → Loc
  | .reg w i => .reg w i
  | .abs w a => .mem w a
  | .ind w i => .mem w (BitVec.ofNat 24 (s.group .w24 i))

/-- `TargetValue(tgt)` in the state it is read in (42_control.md R354). -/
def targetVal (s : State) : Target → Addr
  | .abs a => a
  | .reg i => BitVec.ofNat 24 (s.group .w24 i)

end Sys2Proof.Machine
end

