-- ==== Sys2Proof/Machine/Alu.lean ====
section
/-! DEFINITION. The ALU's arithmetic: ADD, SUB, MUL, DIV, SDIV, with a float source and with remainder
(40_alu.md R200 to R211). Operands are exact naturals; only a result is reduced to its width (R200). -/

namespace Sys2Proof.Machine

/-- Writes a result and the arithmetic flags computed from it (R201, R202). -/
def aluWrite (s : State) (l : Loc) (r : Nat) (c : Bool) : Host.Outcome State Fault Refusal :=
  .next ((l.write s r).setFlags (s.flags.arith l.width r c))

/-- Writes a quotient and then a remainder, whose bytes win where the two overlap; flags from the quotient
(R209, R211). -/
def divWrite (s : State) (l lr : Loc) (q rm : Nat) (c : Bool) : Host.Outcome State Fault Refusal :=
  .next ((lr.write (l.write s q) rm).setFlags (s.flags.arith l.width q c))

/-- Writes an exact result clamped to the destination's range, and its flags (R204, R205). -/
def satWrite (s : State) (l : Loc) (x : Int) : Host.Outcome State Fault Refusal :=
  let r := clampW l.width x
  .next ((l.write s r).setFlags (s.flags.saturated l.width r x))

/-- ADD (R202). -/
def execAdd (dst : ILoc) (src : ISrc) (s : State) : Host.Outcome State Fault Refusal :=
  let l := resolve s dst
  let x := l.read s + srcVal s src
  aluWrite s l (trunc l.width x) (decide (2 ^ l.width.bits ≤ x))

/-- SUB (R203). -/
def execSub (dst : ILoc) (src : ISrc) (s : State) : Host.Outcome State Fault Refusal :=
  let l := resolve s dst
  let a := l.read s
  let b := srcVal s src
  aluWrite s l (truncInt l.width ((a : Int) - b)) (decide (a < b))

/-- ADD with a float source (R204): the sign of the float chooses between adding and subtracting its rounded
magnitude. -/
def execAddf (dst : ILoc) (src : FSrc) (s : State) : Host.Outcome State Fault Refusal :=
  let l := resolve s dst
  let a : Int := l.read s
  let p := fsrcVal s src
  if isNaN p then .refused .floatNaN
  else satWrite s l (if fSign p then a - fMag p else a + fMag p)

/-- SUB with a float source (R205). -/
def execSubf (dst : ILoc) (src : FSrc) (s : State) : Host.Outcome State Fault Refusal :=
  let l := resolve s dst
  let a : Int := l.read s
  let p := fsrcVal s src
  if isNaN p then .refused .floatNaN
  else satWrite s l (if fSign p then a + fMag p else a - fMag p)

/-- MUL (R207). -/
def execMul (dst : ILoc) (src : ISrc) (s : State) : Host.Outcome State Fault Refusal :=
  let l := resolve s dst
  let p := l.read s * srcVal s src
  aluWrite s l (trunc l.width p) (decide (maxVal l.width < p))

/-- DIV (R208): a zero divisor saturates the quotient and sets C; nothing is reported. -/
def execDiv (dst : ILoc) (src : ISrc) (s : State) : Host.Outcome State Fault Refusal :=
  let l := resolve s dst
  let b := srcVal s src
  if b = 0 then aluWrite s l (maxVal l.width) true
  else aluWrite s l (l.read s / b) false

/-- DIV with remainder (R209). -/
def execDivr (dst : ILoc) (src : ISrc) (rem : ILoc) (s : State) : Host.Outcome State Fault Refusal :=
  let l := resolve s dst
  let lr := resolve s rem
  let b := srcVal s src
  if b = 0 then divWrite s l lr (maxVal l.width) 0 true
  else divWrite s l lr (l.read s / b) (l.read s % b) false

/-- SDIV (R210): a zero divisor is reported and leaves everything else as it was. -/
def execSdiv (dst : ILoc) (src : ISrc) (s : State) : Host.Outcome State Fault Refusal :=
  let l := resolve s dst
  let sa := sext l.width (l.read s)
  let sb := sext src.width (srcVal s src)
  if sb = 0 then .next s.reportDivZero
  else aluWrite s l (truncInt l.width (sa.tdiv sb)) false

/-- SDIV with remainder (R211); the remainder has the sign of the dividend. -/
def execSdivr (dst : ILoc) (src : ISrc) (rem : ILoc) (s : State) : Host.Outcome State Fault Refusal :=
  let l := resolve s dst
  let lr := resolve s rem
  let sa := sext l.width (l.read s)
  let sb := sext src.width (srcVal s src)
  if sb = 0 then .next s.reportDivZero
  else divWrite s l lr (truncInt l.width (sa.tdiv sb)) (truncInt lr.width (sa.tmod sb)) false

end Sys2Proof.Machine
end

