-- ==== Sys2Proof/Machine/Compare.lean ====
section
/-! DEFINITION. The compare instructions, which write flags only (40_alu.md R212 to R214). -/

namespace Sys2Proof.Machine

/-- CP of integers (R212). -/
def execCp (op1 : ILoc) (op2 : ISrc) (s : State) : Host.Outcome State Fault Refusal :=
  let l := resolve s op1
  .next (s.setFlags (Flags.compare l.width op2.width (l.read s) (srcVal s op2)))

/-- CP of floats (R214). -/
def execFcp (op1 : FLoc) (op2 : FSrc) (s : State) : Host.Outcome State Fault Refusal :=
  .next (s.setFlags (Flags.compareFloat (flocVal s op1) (fsrcVal s op2)))

end Sys2Proof.Machine
end

