-- ==== Sys2Proof/Machine/Control.lean ====
section
/-! DEFINITION. DJNZ (42_control.md R350 to R354). -/

namespace Sys2Proof.Machine

/-- DJNZ (R350): decrement with wrap, write back, then jump where the result is not zero. A register target is read
after the write-back (R354). No flag is written. -/
def execDjnz (cell : Cell) (tgt : Target) (s : State) : Host.Outcome State Fault Refusal :=
  let l := resolveCell s cell
  let r := truncInt l.width ((l.read s : Int) - 1)
  let t := l.write s r
  .next (if r = 0 then t else t.setIpo (targetVal t tgt))

end Sys2Proof.Machine
end

