-- ==== Sys2Proof/Machine/LoadStore.lean ====
section
/-! DEFINITION. Loads, stores and fills (43_load_store.md R400 to R409). Each reads its sources before its first
write. -/

namespace Sys2Proof.Machine

open Config

/-- LD, integer copy (R401). -/
def execLd (dst : ILoc) (src : ISrc) (s : State) : Host.Outcome State Fault Refusal :=
  .next ((resolve s dst).write s (srcVal s src))

/-- LD, float register to float register (R402). -/
def execLdff (d k : FSlot) (s : State) : Host.Outcome State Fault Refusal :=
  .next (s.setFreg d (s.freg k))

/-- LD, float immediate to float register (R403). -/
def execLdfi (d : FSlot) (p : FloatBits) (s : State) : Host.Outcome State Fault Refusal :=
  .next (s.setFreg d p)

/-- LD, RAM to float register (R404). -/
def execLdfm (d : FSlot) (m : MemRef) (s : State) : Host.Outcome State Fault Refusal :=
  .next (s.setFreg d (floatAt s m))

/-- LD, float to RAM (R405). -/
def execStf (m : MemRef) (src : FRegOrImm) (s : State) : Host.Outcome State Fault Refusal :=
  .next (s.setRam (memWrite s.ram (effAddr s m) 4 (fregOrImmVal s src).toNat))

/-- LD, integer to float register, unsigned and rounded to nearest even (R406). -/
def execLdfx (d : FSlot) (src : ISrc) (s : State) : Host.Outcome State Fault Refusal :=
  .next (s.setFreg d (toF32 (srcVal s src)))

/-- LD, float register to integer destination (R407): rounded, clamped, V where the value was out of range. -/
def execLdxf (dst : ILoc) (k : FSlot) (s : State) : Host.Outcome State Fault Refusal :=
  let l := resolve s dst
  let p := s.freg k
  if isNaN p then .refused .floatNaN
  else
    let r := clampW l.width (fRounded p)
    .next ((l.write s r).setFlags (s.flags.narrowed r (fRounded p)))

/-- FILL (R408). -/
def execFill (m : MemRef) (pattern count : RegOrImm) (s : State) : Host.Outcome State Fault Refusal :=
  .next (s.setRam (fillCore s.ram (effAddr s m) (regOrImmVal s pattern) pattern.width.bytes (regOrImmVal s count)))

/-- FILLS (R409): the stride is the OPEN `STAMP_STRIDE`. -/
def execFills (m : MemRef) (pattern count : RegOrImm) (wr : Width) (rep : Slot) (s : State) :
    Host.Outcome State Fault Refusal :=
  let u := pattern.width.bytes
  let n := regOrImmVal s count
  .next (s.setRam (stampCore s.ram (effAddr s m) (regOrImmVal s pattern) u n (stampStride n u) (s.group wr rep)))

end Sys2Proof.Machine
end

