-- ==== Sys2Proof/Machine/Logic.lean ====
section
/-! DEFINITION. NAND, XNOR and IMPLY, which write no flag and reduce their source to W bits (40_alu.md R215 to
R218). -/

namespace Sys2Proof.Machine

/-- Writes a bitwise result; no flag changes (R218). -/
def logicWrite (s : State) (dst : ILoc) (src : ISrc) (f : Width → Nat → Nat → Nat) :
    Host.Outcome State Fault Refusal :=
  let l := resolve s dst
  .next (l.write s (f l.width (l.read s) (trunc l.width (srcVal s src))))

/-- NAND (R215). -/
def execNand (dst : ILoc) (src : ISrc) (s : State) : Host.Outcome State Fault Refusal :=
  logicWrite s dst src fun w a b => notW w (a &&& b)

/-- XNOR (R216). -/
def execXnor (dst : ILoc) (src : ISrc) (s : State) : Host.Outcome State Fault Refusal :=
  logicWrite s dst src fun w a b => notW w (a ^^^ b)

/-- IMPLY, destination implies source (R217). -/
def execImply (dst : ILoc) (src : ISrc) (s : State) : Host.Outcome State Fault Refusal :=
  logicWrite s dst src fun w a b => notW w a ||| b

end Sys2Proof.Machine
end

