-- ==== Sys2Proof/Machine/Stack.lean ====
section
/-! DEFINITION. The stack instructions (41_stack.md R303 to R310). None writes a flag; a push that does not fit and a
pop of more than there is take the stack fault protocol before any other change (60_exceptions.md R503). -/

namespace Sys2Proof.Machine

/-- PUSH of a register group (R303). -/
def execPush (w : Width) (i : Slot) (s : State) : Host.Outcome State Fault Refusal :=
  s.push (s.slotBytes i w.bytes)

/-- POP into a register group (R304). -/
def execPop (w : Width) (i : Slot) (s : State) : Host.Outcome State Fault Refusal :=
  s.popCheck w.bytes fun t => (t.drop w.bytes).setGroup w i (beValue (t.topBytes w.bytes))

/-- PUSH of a register range, ascending (R305). -/
def execPushr (a e : Slot) (s : State) : Host.Outcome State Fault Refusal :=
  s.push (s.slotBytes a (rangeCount a e))

/-- POP of a register range, descending (R306). -/
def execPopr (a e : Slot) (s : State) : Host.Outcome State Fault Refusal :=
  s.popCheck (rangeCount a e) fun t => t.popSlots e (rangeCount a e)

/-- PUSH of a float register (R307). -/
def execPushf (k : FSlot) (s : State) : Host.Outcome State Fault Refusal :=
  s.push (beBytes 4 (s.freg k).toNat)

/-- POP into a float register (R308). -/
def execPopf (k : FSlot) (s : State) : Host.Outcome State Fault Refusal :=
  s.popCheck 4 fun t => (t.drop 4).setFreg k (BitVec.ofNat 32 (beValue (t.topBytes 4)))

/-- PUSH of a float register range, ascending (R309). -/
def execPushfr (a e : FSlot) (s : State) : Host.Outcome State Fault Refusal :=
  s.push (s.fregBytes a (rangeCount a e))

/-- POP of a float register range, descending (R310). -/
def execPopfr (a e : FSlot) (s : State) : Host.Outcome State Fault Refusal :=
  s.popCheck (4 * rangeCount a e) fun t => t.popFregs e (rangeCount a e)

end Sys2Proof.Machine
end

