-- ==== Sys2Proof/Machine/Unspecified.lean ====
section
/-! DEFINITION. The op tag FDENOM (40_alu.md R219). -/

namespace Sys2Proof.Machine

/-- FDENOM: "Any descriptor with op tag FDENOM ends the step with REFUSED(Unspecified) and no effect" (R219). Its
operands and results are in no source. -/
def execFdenom (_operands : List Operand) (_s : State) : Host.Outcome State Fault Refusal :=
  .refused .unspecified

end Sys2Proof.Machine
end

