-- ==== Sys2Proof/Machine/Dispatch.lean ====
section
/-! DEFINITION. `execute(d.op, ops)` of 30_encoding.md R103: one arm per instruction. The state an instruction starts
from has IPO at the fall-through address (10_state.md R41). -/

namespace Sys2Proof.Machine

def exec (i : Instr) (s : State) : Host.Outcome State Fault Refusal :=
  match i with
  | .ld dst src => Sys2Proof.Machine.execLd dst src s
  | .ldff d k => Sys2Proof.Machine.execLdff d k s
  | .ldfi d p => Sys2Proof.Machine.execLdfi d p s
  | .ldfm d m => Sys2Proof.Machine.execLdfm d m s
  | .stf m src => Sys2Proof.Machine.execStf m src s
  | .ldfx d src => Sys2Proof.Machine.execLdfx d src s
  | .ldxf dst k => Sys2Proof.Machine.execLdxf dst k s
  | .fill m pattern count => Sys2Proof.Machine.execFill m pattern count s
  | .fills m pattern count wr rep => Sys2Proof.Machine.execFills m pattern count wr rep s
  | .add dst src => Sys2Proof.Machine.execAdd dst src s
  | .sub dst src => Sys2Proof.Machine.execSub dst src s
  | .addf dst src => Sys2Proof.Machine.execAddf dst src s
  | .subf dst src => Sys2Proof.Machine.execSubf dst src s
  | .mul dst src => Sys2Proof.Machine.execMul dst src s
  | .div dst src => Sys2Proof.Machine.execDiv dst src s
  | .divr dst src rem => Sys2Proof.Machine.execDivr dst src rem s
  | .sdiv dst src => Sys2Proof.Machine.execSdiv dst src s
  | .sdivr dst src rem => Sys2Proof.Machine.execSdivr dst src rem s
  | .cp op1 op2 => Sys2Proof.Machine.execCp op1 op2 s
  | .fcp op1 op2 => Sys2Proof.Machine.execFcp op1 op2 s
  | .nand dst src => Sys2Proof.Machine.execNand dst src s
  | .xnor dst src => Sys2Proof.Machine.execXnor dst src s
  | .imply dst src => Sys2Proof.Machine.execImply dst src s
  | .push w r => Sys2Proof.Machine.execPush w r s
  | .pop w r => Sys2Proof.Machine.execPop w r s
  | .pushr a e => Sys2Proof.Machine.execPushr a e s
  | .popr a e => Sys2Proof.Machine.execPopr a e s
  | .pushf k => Sys2Proof.Machine.execPushf k s
  | .popf k => Sys2Proof.Machine.execPopf k s
  | .pushfr a e => Sys2Proof.Machine.execPushfr a e s
  | .popfr a e => Sys2Proof.Machine.execPopfr a e s
  | .djnz cell tgt => Sys2Proof.Machine.execDjnz cell tgt s
  | .fdenom operands => Sys2Proof.Machine.execFdenom operands s

end Sys2Proof.Machine
end

