-- ==== Sys2Proof/Decode.lean ====
section
/-! DEFINITION. The decoder and the dispatch multiplexer's byte-level half (30_encoding.md R100 to R121, R128), total on
every byte list, and after it the encoder, written from the same field layouts. The opcode bytes are `OPMAP`'s (R101),
so both take the map as an argument. -/

namespace Sys2Proof

open Config Machine

/-- Why a byte list gives no instruction. -/
inductive DecodeError where
  /-- The primary byte belongs to a family outside the block (R104). -/
  | foreign
  /-- The opcode bytes have no entry in OPMAP (R105). -/
  | illegal
  /-- An integer index field holds 26..31 (R128). -/
  | badRegIndex
  /-- The descriptor matches no candidate row: OPMAP is ill-formed (R122, log 13). -/
  | illFormedMap
  /-- The byte list ends inside the instruction (the model's own, log 14: `step` never meets it). -/
  | truncated
deriving DecidableEq, Repr

/-! ### Operand fields -/

/-- What is still to be read: the values of the mixed pair not yet taken (R109) and the bytes not yet consumed. -/
structure Cursor where
  pair : List (BitVec 5)
  bytes : List Byte
deriving DecidableEq, Repr

/-- An index field (R106, R109): the next value of the mixed pair, or else the low 5 bits of one byte, whose bits
[7:5] are ignored. -/
def Cursor.index (c : Cursor) : Except DecodeError (BitVec 5 × Cursor) :=
  match c.pair with
  | i :: pair => .ok (i, ⟨pair, c.bytes⟩)
  | [] =>
    match c.bytes with
    | b :: bs => .ok (b.setWidth 5, ⟨[], bs⟩)
    | [] => .error .truncated

/-- An integer index field and the check of R128: a value above 25 names no slot. -/
def Cursor.slot (c : Cursor) : Except DecodeError (Slot × Cursor) :=
  match c.index with
  | .error e => .error e
  | .ok (i, c') => if h : i.toNat < 26 then .ok (⟨i.toNat, h⟩, c') else .error .badRegIndex

/-- A float index field (R107): bits [3:0] of a byte or of the pair's value; the others are ignored. -/
def Cursor.fslot (c : Cursor) : Except DecodeError (FSlot × Cursor) :=
  match c.index with
  | .error e => .error e
  | .ok (i, c') => .ok ((i.setWidth 4).toFin, c')

/-- `fetch(n)` within the decoder: n bytes, big-endian (R110, R111, R115). -/
def Cursor.fetch (c : Cursor) (n : Nat) : Except DecodeError (Nat × Cursor) :=
  if n ≤ c.bytes.length then .ok (beValue (c.bytes.take n), ⟨c.pair, c.bytes.drop n⟩)
  else .error .truncated

/-- The base field of a memory operand (R111, R112). -/
def decodeBase (b : BaseSpec) (c : Cursor) : Except DecodeError (Base × Cursor) :=
  match b with
  | .abs =>
    match c.fetch 3 with
    | .error e => .error e
    | .ok (a, c') => .ok (.abs (BitVec.ofNat 24 a), c')
  | .ind =>
    match c.slot with
    | .error e => .error e
    | .ok (i, c') => .ok (.ind i, c')

/-- The displacement field of a memory operand, which follows the base field (R113). -/
def decodeDisp (x : DispSpec) (c : Cursor) : Except DecodeError (Disp × Cursor) :=
  match x with
  | .noDisp => .ok (.noDisp, c)
  | .disp wd =>
    match c.slot with
    | .error e => .error e
    | .ok (j, c') => .ok (.disp wd j, c')

/-- Base field, then displacement field (R121). -/
def decodeMemRef (b : BaseSpec) (x : DispSpec) (c : Cursor) : Except DecodeError (MemRef × Cursor) :=
  match decodeBase b c with
  | .error e => .error e
  | .ok (base, c') =>
    match decodeDisp x c' with
    | .error e => .error e
    | .ok (disp, c'') => .ok (⟨base, disp⟩, c'')

/-- One operand's fields (R106 to R116). -/
def decodeOperand (o : OperandSpec) (c : Cursor) : Except DecodeError (Operand × Cursor) :=
  match o with
  | .reg w =>
    match c.slot with
    | .error e => .error e
    | .ok (i, c') => .ok (.reg w i, c')
  | .imm w =>
    match c.fetch w.bytes with
    | .error e => .error e
    | .ok (v, c') => .ok (.imm w (BitVec.ofNat 32 v), c')
  | .mem w b x =>
    match decodeMemRef b x c with
    | .error e => .error e
    | .ok (m, c') => .ok (.mem w m, c')
  | .addr b x =>
    match decodeMemRef b x c with
    | .error e => .error e
    | .ok (m, c') => .ok (.addr m, c')
  | .freg =>
    match c.fslot with
    | .error e => .error e
    | .ok (k, c') => .ok (.freg k, c')
  | .fimm =>
    match c.fetch 4 with
    | .error e => .error e
    | .ok (v, c') => .ok (.fimm (BitVec.ofNat 32 v), c')
  | .fmem b x =>
    match decodeMemRef b x c with
    | .error e => .error e
    | .ok (m, c') => .ok (.fmem m, c')
  | .ridx =>
    match c.slot with
    | .error e => .error e
    | .ok (i, c') => .ok (.ridx i, c')
  | .fidx =>
    match c.fslot with
    | .error e => .error e
    | .ok (k, c') => .ok (.fidx k, c')
  | .tgt .tAbs =>
    match c.fetch 3 with
    | .error e => .error e
    | .ok (a, c') => .ok (.tgt (.abs (BitVec.ofNat 24 a)), c')
  | .tgt .tReg =>
    match c.slot with
    | .error e => .error e
    | .ok (i, c') => .ok (.tgt (.reg i), c')

/-- The operand fields in the descriptor's order, destination first (R127). -/
def decodeOperands : List OperandSpec → Cursor → Except DecodeError (List Operand × Cursor)
  | [], c => .ok ([], c)
  | o :: os, c =>
    match decodeOperand o c with
    | .error e => .error e
    | .ok (x, c') =>
      match decodeOperands os c' with
      | .error e => .error e
      | .ok (xs, c'') => .ok (x :: xs, c'')

/-! ### From operands to an instruction: the candidate rows of R123 -/

/-- An operand as `I(W)`. -/
def Operand.iloc? : Operand → Option ILoc
  | .reg w i => some (.reg w i)
  | .mem w m => some (.mem w m)
  | _ => none

/-- An operand as `S(W)`. -/
def Operand.isrc? : Operand → Option ISrc
  | .reg w i => some (.reg w i)
  | .imm w v => some (.imm w v)
  | .mem w m => some (.mem w m)
  | _ => none

/-- An operand as `Reg(W) | Imm(W)`. -/
def Operand.regOrImm? : Operand → Option RegOrImm
  | .reg w i => some (.reg w i)
  | .imm w v => some (.imm w v)
  | _ => none

/-- An operand as `FL`. -/
def Operand.floc? : Operand → Option FLoc
  | .freg k => some (.freg k)
  | .fmem m => some (.fmem m)
  | _ => none

/-- An operand as `FS`. -/
def Operand.fsrc? : Operand → Option FSrc
  | .freg k => some (.freg k)
  | .fimm p => some (.fimm p)
  | .fmem m => some (.fmem m)
  | _ => none

/-- An operand as a DJNZ counter. -/
def Operand.cell? : Operand → Option Cell
  | .reg w i => some (.reg w i)
  | .mem w ⟨.abs a, .noDisp⟩ => some (.abs w a)
  | .mem w ⟨.ind i, .noDisp⟩ => some (.ind w i)
  | _ => none

/-- An instruction of two operands, when both have the form its row asks for. -/
def pairOp {α β : Type} (f : α → β → Instr) (a : Option α) (b : Option β) : Option Instr :=
  match a, b with
  | some x, some y => some (f x y)
  | _, _ => none

/-- The instruction that an op tag and its operands spell, where the operands are a candidate list of the tag (R123);
the widths of an integer LD must be equal (R122 c). -/
def assemble : OpTag → List Operand → Option Instr
  | .LD, [d, s] =>
    match d.iloc?, s.isrc? with
    | some d, some s => if d.width = s.width then some (.ld d s) else none
    | _, _ => none
  | .LDFF, [.freg d, .freg s] => some (.ldff d s)
  | .LDFI, [.freg d, .fimm p] => some (.ldfi d p)
  | .LDFM, [.freg d, .fmem m] => some (.ldfm d m)
  | .STF, [.fmem m, .freg k] => some (.stf m (.freg k))
  | .STF, [.fmem m, .fimm p] => some (.stf m (.fimm p))
  | .LDFX, [.freg d, s] => s.isrc?.map (.ldfx d)
  | .LDXF, [d, .freg s] => d.iloc?.map (.ldxf · s)
  | .FILL, [.addr m, p, n] => pairOp (.fill m) p.regOrImm? n.regOrImm?
  | .FILLS, [.addr m, p, n, .reg wr r] => pairOp (fun p n => .fills m p n wr r) p.regOrImm? n.regOrImm?
  | .ADD, [d, s] => pairOp .add d.iloc? s.isrc?
  | .SUB, [d, s] => pairOp .sub d.iloc? s.isrc?
  | .ADDF, [d, s] => pairOp .addf d.iloc? s.fsrc?
  | .SUBF, [d, s] => pairOp .subf d.iloc? s.fsrc?
  | .MUL, [d, s] => pairOp .mul d.iloc? s.isrc?
  | .DIV, [d, s] => pairOp .div d.iloc? s.isrc?
  | .DIVR, [d, s, r] => r.iloc?.bind fun r => pairOp (fun d s => .divr d s r) d.iloc? s.isrc?
  | .SDIV, [d, s] => pairOp .sdiv d.iloc? s.isrc?
  | .SDIVR, [d, s, r] => r.iloc?.bind fun r => pairOp (fun d s => .sdivr d s r) d.iloc? s.isrc?
  | .CP, [a, b] => pairOp .cp a.iloc? b.isrc?
  | .FCP, [a, b] => pairOp .fcp a.floc? b.fsrc?
  | .NAND, [d, s] => pairOp .nand d.iloc? s.isrc?
  | .XNOR, [d, s] => pairOp .xnor d.iloc? s.isrc?
  | .IMPLY, [d, s] => pairOp .imply d.iloc? s.isrc?
  | .PUSH, [.reg w i] => some (.push w i)
  | .POP, [.reg w i] => some (.pop w i)
  | .PUSHR, [.ridx s, .ridx e] => some (.pushr s e)
  | .POPR, [.ridx s, .ridx e] => some (.popr s e)
  | .PUSHF, [.freg k] => some (.pushf k)
  | .POPF, [.freg k] => some (.popf k)
  | .PUSHFR, [.fidx s, .fidx e] => some (.pushfr s e)
  | .POPFR, [.fidx s, .fidx e] => some (.popfr s e)
  | .DJNZ, [c, .tgt t] => c.cell?.map (.djnz · t)
  | .FDENOM, ops => some (.fdenom ops)
  | _, _ => none

/-! ### The dispatch multiplexer -/

/-- `OPMAP.L1(P)` (R101). -/
def l1 (m : OpMap) (p : Byte) : L1Entry := (m.lookup p).getD .none

/-- `T(S)` (R101). -/
def l2 (t : List (Byte × Descriptor)) (s : Byte) : Option Descriptor := t.lookup s

/-- The two indices of a mixed-register byte, `last` being the last opcode byte (R108). -/
def mixedPair (last cm : Byte) : List (BitVec 5) :=
  [(last.setWidth 5 <<< 3 &&& 0x1F#5) ||| (cm >>> 5).setWidth 5, cm.setWidth 5]

/-- The part of an instruction after its opcode bytes (R103): the continuation byte of a mixed descriptor, then the
operand fields. Returns the instruction and the bytes left over. -/
def decodeBody (d : Descriptor) (last : Byte) (bs : List Byte) : Except DecodeError (Instr × List Byte) :=
  let start : Except DecodeError Cursor :=
    if d.mixed then
      match bs with
      | cm :: bs' => .ok ⟨mixedPair last cm, bs'⟩
      | [] => .error .truncated
    else .ok ⟨[], bs⟩
  match start with
  | .error e => .error e
  | .ok c =>
    match decodeOperands d.operands c with
    | .error e => .error e
    | .ok (ops, c') =>
      match assemble d.op ops with
      | some i => .ok (i, c'.bytes)
      | none => .error .illFormedMap

/-- Decodes the instruction at the head of a byte list (R103): the instruction and the bytes left over. -/
def decode (m : OpMap) (bs : List Byte) : Except DecodeError (Instr × List Byte) :=
  match bs with
  | [] => .error .truncated
  | p :: bs =>
    match l1 m p with
    | .none => .error .illegal
    | .foreign => .error .foreign
    | .direct d => decodeBody d p bs
    | .sub t =>
      match bs with
      | [] => .error .truncated
      | s :: bs =>
        match l2 t s with
        | none => .error .illegal
        | some d => decodeBody d s bs

/-! ### The length of an instruction -/

/-- The bytes of an operand's fields that are no index fields (R121). -/
def rawBytes : OperandSpec → Nat
  | .imm w => w.bytes
  | .fimm => 4
  | .tgt .tAbs => 3
  | .mem _ .abs _ | .addr .abs _ | .fmem .abs _ => 3
  | .mem _ .ind _ | .addr .ind _ | .fmem .ind _ => 0
  | .reg _ | .freg | .ridx | .fidx | .tgt .tReg => 0

/-- The length of a descriptor's continuation byte and operand fields (R121): an index field is one byte, or none
where the mixed pair supplies it. -/
def bodyLength (d : Descriptor) : Nat :=
  (d.operands.map rawBytes).sum + if d.mixed then 1 + (d.indexFields - 2) else d.indexFields

/-- `len` of R121, told from P and, where present, S (R129). Where the opcode bytes spell no instruction, the bytes
that say so: P alone, or P and S. -/
def instrLength (m : OpMap) (p s : Byte) : Nat :=
  match l1 m p with
  | .none | .foreign => 1
  | .direct d => 1 + bodyLength d
  | .sub t =>
    match l2 t s with
    | none => 2
    | some d => 2 + bodyLength d

/-! ### The encoder -/

/-- The fields of an encoded operand. -/
inductive Field where
  | idx (i : Slot)
  | fidx (k : FSlot)
  | raw (bs : List Byte)
deriving DecidableEq, Repr

/-- The field of a base (R111, R112). -/
def Base.fields : Base → List Field
  | .abs a => [.raw (beBytes 3 a.toNat)]
  | .ind i => [.idx i]

/-- The field of a displacement, or none (R113). -/
def Disp.fields : Disp → List Field
  | .noDisp => []
  | .disp _ j => [.idx j]

/-- The fields of a memory operand: base, then displacement (R121). -/
def MemRef.fields (m : MemRef) : List Field := m.base.fields ++ m.disp.fields

/-- The fields of an operand (R106 to R116). -/
def Operand.fields : Operand → List Field
  | .reg _ i => [.idx i]
  | .imm w v => [.raw (beBytes w.bytes v.toNat)]
  | .mem _ m => m.fields
  | .addr m => m.fields
  | .freg k => [.fidx k]
  | .fimm p => [.raw (beBytes 4 p.toNat)]
  | .fmem m => m.fields
  | .ridx i => [.idx i]
  | .fidx k => [.fidx k]
  | .tgt (.abs a) => [.raw (beBytes 3 a.toNat)]
  | .tgt (.reg i) => [.idx i]

/-- A field that takes its own bytes; ignored bits are written 0 (log 16). -/
def Field.bytes : Field → List Byte
  | .idx i => [BitVec.ofNat 8 i.val]
  | .fidx k => [BitVec.ofNat 8 k.val]
  | .raw bs => bs

/-- The value of an index field as 5 bits; none for another field. -/
def Field.index? : Field → Option (BitVec 5)
  | .idx i => some (BitVec.ofNat 5 i.val)
  | .fidx k => some (BitVec.ofNat 5 k.val)
  | .raw _ => none

/-- Takes the first index field out of a field list. -/
def takeIndexField : List Field → Option (Field × List Field)
  | [] => none
  | .raw bs :: fs =>
    match takeIndexField fs with
    | none => none
    | some (f, fs') => some (f, .raw bs :: fs')
  | .idx i :: fs => some (.idx i, fs)
  | .fidx k :: fs => some (.fidx k, fs)

/-- Whether the last opcode byte carries the high bits of the pair's first index: bits [4:3] of an integer index in
its bits [1:0], and bit 3 of a float index, whose bit 4 is ignored, in its bit 0 (R108, R109). -/
def lastCarries (last : Byte) : Field → Bool
  | .idx i => decide (last.toNat % 4 = i.val / 8)
  | .fidx k => decide (last.toNat % 2 = k.val / 8)
  | .raw _ => false

/-- The bytes after the opcode bytes, or none where the last opcode byte does not fit the mixed pair. -/
def encodeBody (mixed : Bool) (last : Byte) (fs : List Field) : Option (List Byte) :=
  if mixed then
    match takeIndexField fs with
    | none => none
    | some (f₁, fs₁) =>
      match takeIndexField fs₁ with
      | none => none
      | some (f₂, fs₂) =>
        match f₁.index?, f₂.index? with
        | some i₁, some i₂ =>
          if lastCarries last f₁ then
            some (BitVec.ofNat 8 (i₁.toNat % 8 * 32 + i₂.toNat) :: fs₂.flatMap Field.bytes)
          else none
        | _, _ => none
  else some (fs.flatMap Field.bytes)

/-- The base shape of a memory operand. -/
def Base.spec : Base → BaseSpec
  | .abs _ => .abs
  | .ind _ => .ind

/-- The displacement shape of a memory operand. -/
def Disp.spec : Disp → DispSpec
  | .noDisp => .noDisp
  | .disp wd _ => .disp wd

/-- The shape of an operand (R102). -/
def Operand.spec : Operand → OperandSpec
  | .reg w _ => .reg w
  | .imm w _ => .imm w
  | .mem w m => .mem w m.base.spec m.disp.spec
  | .addr m => .addr m.base.spec m.disp.spec
  | .freg _ => .freg
  | .fimm _ => .fimm
  | .fmem m => .fmem m.base.spec m.disp.spec
  | .ridx _ => .ridx
  | .fidx _ => .fidx
  | .tgt (.abs _) => .tgt .tAbs
  | .tgt (.reg _) => .tgt .tReg

/-- An integer location as an operand. -/
def ILoc.operand : ILoc → Operand
  | .reg w i => .reg w i
  | .mem w m => .mem w m

/-- An integer source as an operand. -/
def ISrc.operand : ISrc → Operand
  | .reg w i => .reg w i
  | .imm w v => .imm w v
  | .mem w m => .mem w m

/-- A fill's pattern or count as an operand. -/
def RegOrImm.operand : RegOrImm → Operand
  | .reg w i => .reg w i
  | .imm w v => .imm w v

/-- A float location as an operand. -/
def FLoc.operand : FLoc → Operand
  | .freg k => .freg k
  | .fmem m => .fmem m

/-- A float source as an operand. -/
def FSrc.operand : FSrc → Operand
  | .freg k => .freg k
  | .fimm p => .fimm p
  | .fmem m => .fmem m

/-- A float store's source as an operand. -/
def FRegOrImm.operand : FRegOrImm → Operand
  | .freg k => .freg k
  | .fimm p => .fimm p

/-- A DJNZ counter as an operand. -/
def Cell.operand : Cell → Operand
  | .reg w i => .reg w i
  | .abs w a => .mem w ⟨.abs a, .noDisp⟩
  | .ind w i => .mem w ⟨.ind i, .noDisp⟩

/-- The op tag of an instruction (R123). -/
def Instr.op : Instr → OpTag
  | .ld .. => .LD
  | .ldff .. => .LDFF
  | .ldfi .. => .LDFI
  | .ldfm .. => .LDFM
  | .stf .. => .STF
  | .ldfx .. => .LDFX
  | .ldxf .. => .LDXF
  | .fill .. => .FILL
  | .fills .. => .FILLS
  | .add .. => .ADD
  | .sub .. => .SUB
  | .addf .. => .ADDF
  | .subf .. => .SUBF
  | .mul .. => .MUL
  | .div .. => .DIV
  | .divr .. => .DIVR
  | .sdiv .. => .SDIV
  | .sdivr .. => .SDIVR
  | .cp .. => .CP
  | .fcp .. => .FCP
  | .nand .. => .NAND
  | .xnor .. => .XNOR
  | .imply .. => .IMPLY
  | .push .. => .PUSH
  | .pop .. => .POP
  | .pushr .. => .PUSHR
  | .popr .. => .POPR
  | .pushf .. => .PUSHF
  | .popf .. => .POPF
  | .pushfr .. => .PUSHFR
  | .popfr .. => .POPFR
  | .djnz .. => .DJNZ
  | .fdenom .. => .FDENOM

/-- The operands of an instruction in the descriptor's order, destination first (R123, R127). -/
def Instr.operands : Instr → List Operand
  | .ld d s => [d.operand, s.operand]
  | .ldff d s => [.freg d, .freg s]
  | .ldfi d p => [.freg d, .fimm p]
  | .ldfm d m => [.freg d, .fmem m]
  | .stf m s => [.fmem m, s.operand]
  | .ldfx d s => [.freg d, s.operand]
  | .ldxf d s => [d.operand, .freg s]
  | .fill m p n => [.addr m, p.operand, n.operand]
  | .fills m p n wr r => [.addr m, p.operand, n.operand, .reg wr r]
  | .add d s => [d.operand, s.operand]
  | .sub d s => [d.operand, s.operand]
  | .addf d s => [d.operand, s.operand]
  | .subf d s => [d.operand, s.operand]
  | .mul d s => [d.operand, s.operand]
  | .div d s => [d.operand, s.operand]
  | .divr d s r => [d.operand, s.operand, r.operand]
  | .sdiv d s => [d.operand, s.operand]
  | .sdivr d s r => [d.operand, s.operand, r.operand]
  | .cp a b => [a.operand, b.operand]
  | .fcp a b => [a.operand, b.operand]
  | .nand d s => [d.operand, s.operand]
  | .xnor d s => [d.operand, s.operand]
  | .imply d s => [d.operand, s.operand]
  | .push w i => [.reg w i]
  | .pop w i => [.reg w i]
  | .pushr s e => [.ridx s, .ridx e]
  | .popr s e => [.ridx s, .ridx e]
  | .pushf k => [.freg k]
  | .popf k => [.freg k]
  | .pushfr s e => [.fidx s, .fidx e]
  | .popfr s e => [.fidx s, .fidx e]
  | .djnz c t => [c.operand, .tgt t]
  | .fdenom ops => ops

/-- The bytes after the opcode bytes of an instruction, under a descriptor of its own op tag and operand shapes. -/
def encodeUnder (d : Descriptor) (last : Byte) (i : Instr) : Option (List Byte) :=
  if d.op = i.op ∧ d.operands = i.operands.map Operand.spec then
    encodeBody d.mixed last (i.operands.flatMap Operand.fields)
  else none

/-- The bytes of an instruction whose primary byte is `p`, under any second byte OPMAP lists for it. -/
def encodeAt (m : OpMap) (i : Instr) (p : Byte) : Option (List Byte) :=
  match l1 m p with
  | .none | .foreign => none
  | .direct d => (encodeUnder d p i).map (p :: ·)
  | .sub t =>
    (t.map Prod.fst).findSome? fun s =>
      match l2 t s with
      | none => none
      | some d => (encodeUnder d s i).map fun bs => p :: s :: bs

/-- The bytes of a well-formed instruction under an opcode map: those of the first listed opcode that spells it; none
where OPMAP lists no opcode for its form (92_eei_decisions.md D50). -/
def encode (m : OpMap) (i : Instr) : Option (List Byte) :=
  (m.map Prod.fst).findSome? (encodeAt m i)

/-! ### The host's view of the decoder -/

/-- The length of the longest instruction of a candidate row in bytes, rounded up to a power of two: P, S, three
absolute displaced operands or an absolute displaced address and three 4-byte fields take at most 15. -/
def longestInstr : Nat := 16

/-- The bytes of an instruction given as one number, bit 0 the least significant bit of the first byte: the bits from
`nbits` on are 0, up to the longest instruction. -/
def wordBytes (nbits w : Nat) : List Byte :=
  (List.range longestInstr).map fun k => BitVec.ofNat 8 (w % 2 ^ nbits / 2 ^ (8 * k))

/-- The instruction the decoder reads from an instruction whose bits are `w`, under the machine's own opcode map. -/
def decodeTableWord (nbits w : Nat) : Option Instr :=
  match decode params.opmap (wordBytes nbits w) with
  | .ok (i, _) => some i
  | .error _ => none

end Sys2Proof
end

