-- ==== Sys2Proof/Machine/Fetch.lean ====
section
/-! DEFINITION. Fetching an instruction's bytes from RAM at IPO (10_state.md R42, 20_memory.md R89), and what a decode
error answers (30_encoding.md R104, R105, R128). -/

namespace Sys2Proof.Machine

/-- The bytes of the instruction at IPO: P, and S where there is one, tell how many (30_encoding.md R121, R129, R130:
"reads exactly len bytes and no more"). -/
def fetchInstr (s : State) : List Byte :=
  ramBytes s.ram s.ipo (instrLength s.cfg.opmap (s.ram.read s.ipo.toNat) (s.ram.read (s.ipo + 1).toNat))

/-- IPO advanced past n bytes, modulo 2^24 (10_state.md R42). -/
def State.advance (s : State) (n : Nat) : State := s.setIpo (s.ipo + BitVec.ofNat 24 n)

/-- The outcome of a step whose bytes decode to no instruction (60_exceptions.md R511). -/
def decodeRefusal : DecodeError → Refusal
  | .foreign => .foreign
  | .illegal => .illegal
  | .badRegIndex => .badRegIndex
  | .illFormedMap => .illFormedMap
  | .truncated => .truncated

/-- The bytes of an instruction given as one number, stored where the next step fetches it. -/
def State.storeInstr (s : State) (nbits w : Nat) : State := s.setRam (ramStore s.ram s.ipo (wordBytes nbits w))

end Sys2Proof.Machine
end

