-- ==== Sys2Proof/Machine/Step.lean ====
section
/-! DEFINITION. One step of the block (30_encoding.md R103). -/

namespace Sys2Proof.Machine

/-- One step: fetch and decode at IPO, advance IPO to the fall-through address, execute (30_encoding.md R103, R120;
10_state.md R41). A step that ends refused leaves the state unchanged, IPO at P (60_exceptions.md R511). -/
def step (s : State) : Host.Outcome State Fault Refusal :=
  match decode s.cfg.opmap (fetchInstr s) with
  | .error e => .refused (decodeRefusal e)
  | .ok (i, rest) => exec i (s.advance ((fetchInstr s).length - rest.length))

/-- The state with an instruction, given as one number, stored in RAM at IPO, where `step` fetches (10_state.md R41).
The opcode map that reads it is the state's own. -/
def State.withFetchWord (s : State) (nbits w : Nat) : State := s.storeInstr nbits w

end Sys2Proof.Machine
end

