-- ==== Sys2Proof/Safety.lean ====
section
/-! DEFINITION. The terms statements are made in: the invariant of the machine's states, the bytes a location covers,
the frame of an instruction, and where an instruction's index fields stand. -/

namespace Sys2Proof.Machine

open Config

/-- What holds of every state the machine can be in: memories, stack region and HMEM in canonical form and within
their spaces (20_memory.md R70), SPR in [0, STACK_CAP] (10_state.md R43), an error id that fits ERR_ID_WIDTH
(10_state.md R45), and well-formed OPEN parameters (30_encoding.md R122). -/
structure State.Inv (s : State) : Prop where
  ramWf : s.ram.wf = true
  ramKeys : ∀ e ∈ s.ram, e.1 < 2 ^ 24
  stackWf : s.stack.wf = true
  stackKeys : ∀ e ∈ s.stack, e.1 < s.cfg.stackCap
  sprLe : s.spr ≤ s.cfg.stackCap
  hmemWf : s.hmem.wf = true
  errIdFits : s.hmem.read s.cfg.hmemErrId < 2 ^ s.cfg.errIdWidth
  cfgWf : s.cfg.wf = true

/-- Slot j is one of the n slots from i on, wrapping modulo 26 (10_state.md R32). -/
def inSlots (i : Slot) (n : Nat) (j : Slot) : Prop := ∃ k < n, j.val = (i.val + k) % 26

/-- Float register j is one of the n from i on, wrapping modulo 16 (41_stack.md R309). -/
def inFregs (i : FSlot) (n : Nat) (j : FSlot) : Prop := ∃ k < n, j.val = (i.val + k) % 16

/-- Address x is one of the n addresses from a on, wrapping modulo 2^24 (20_memory.md R71). -/
def inAddrs (a : Addr) (n : Nat) (x : Addr) : Prop := ∃ k < n, x = a + BitVec.ofNat 24 k

/-- The slots a location covers. -/
def Loc.hasSlot : Loc → Slot → Prop
  | .reg w i, j => inSlots i w.bytes j
  | .mem .., _ => False

/-- The RAM addresses a location covers. -/
def Loc.hasAddr : Loc → Addr → Prop
  | .reg .., _ => False
  | .mem w ea, x => inAddrs ea w.bytes x

/-- Two locations share no slot and no RAM byte. -/
def Loc.disjoint (l l' : Loc) : Prop :=
  (∀ j, ¬(l.hasSlot j ∧ l'.hasSlot j)) ∧ ∀ x, ¬(l.hasAddr x ∧ l'.hasAddr x)

/-- The frame of an instruction: every slot, float register and RAM byte outside those named, and SPR, the stack
region, HMEM, the port events and the OPEN parameters are as before. Flags and IPO are stated beside it. -/
structure KeepsAllBut (s t : State) (slot : Slot → Prop) (freg : FSlot → Prop) (addr : Addr → Prop) : Prop where
  slots : ∀ j, ¬slot j → t.slot j = s.slot j
  fregs : ∀ k, ¬freg k → t.freg k = s.freg k
  ram : ∀ x : Addr, ¬addr x → t.ram.read x.toNat = s.ram.read x.toNat
  spr : t.spr = s.spr
  stack : t.stack = s.stack
  hmem : t.hmem = s.hmem
  events : t.events = s.events
  cfg : t.cfg = s.cfg

/-- The frame of an instruction whose only destination is the location l. -/
def KeepsAllButLoc (s t : State) (l : Loc) : Prop := KeepsAllBut s t l.hasSlot (fun _ => False) l.hasAddr

/-! ### What an instruction's next state is -/

/-- The outcome is a next state, and that state holds P. -/
def NextWith (o : Host.Outcome State Fault Refusal) (P : State → Prop) : Prop := ∃ t, o = .next t ∧ P t

/-- The outcome, from the state s with IPO at the fall-through address, is a next state in which the location l reads
as r, the flags are f, IPO is still the fall-through address and everything else is as before. -/
def WritesLoc (o : Host.Outcome State Fault Refusal) (s : State) (l : Loc) (r : Nat) (f : Flags) : Prop :=
  NextWith o fun t => l.read t = r ∧ t.flags = f ∧ t.ipo = s.ipo ∧ KeepsAllButLoc s t l

/-- The outcome is a next state in which float register k holds p and everything else is as before. -/
def WritesFreg (o : Host.Outcome State Fault Refusal) (s : State) (k : FSlot) (p : FloatBits) : Prop :=
  NextWith o fun t => t.freg k = p ∧ t.flags = s.flags ∧ t.ipo = s.ipo ∧
    KeepsAllBut s t (fun _ => False) (fun j => j = k) (fun _ => False)

/-- The two locations a division with remainder writes: the second read back gives rm, a byte of the first that the
second does not cover is what writing q alone leaves there, and everything else is as before. -/
def WritesTwoLocs (o : Host.Outcome State Fault Refusal) (s : State) (l lr : Loc) (q rm : Nat) (f : Flags) : Prop :=
  NextWith o fun t => lr.read t = rm ∧ (l.disjoint lr → l.read t = q) ∧
    (∀ j, ¬lr.hasSlot j → t.slot j = (l.write s q).slot j) ∧
    (∀ x : Addr, ¬lr.hasAddr x → t.ram.read x.toNat = (l.write s q).ram.read x.toNat) ∧
    t.flags = f ∧ t.ipo = s.ipo ∧
    KeepsAllBut s t (fun j => l.hasSlot j ∨ lr.hasSlot j) (fun _ => False) (fun x => l.hasAddr x ∨ lr.hasAddr x)

/-- t is s with the bytes bs pushed: they stand from the old SPR on, SPR is past them, every other stack byte and
everything else is as before (41_stack.md R301). -/
structure PushedOnto (s t : State) (bs : List Byte) : Prop where
  bytes : ∀ k (h : k < bs.length), t.stack.read (s.spr + k) = bs[k]
  others : ∀ x, x < s.spr ∨ s.spr + bs.length ≤ x → t.stack.read x = s.stack.read x
  spr : t.spr = s.spr + bs.length
  regs : t.regs = s.regs
  fregs : t.fregs = s.fregs
  flags : t.flags = s.flags
  ipo : t.ipo = s.ipo
  ram : t.ram = s.ram
  hmem : t.hmem = s.hmem
  events : t.events = s.events
  cfg : t.cfg = s.cfg

/-- t is s with n bytes popped, which may have changed the named slots and float registers and nothing else
(41_stack.md R302). -/
structure PoppedFrom (s t : State) (n : Nat) (slot : Slot → Prop) (freg : FSlot → Prop) : Prop where
  spr : t.spr = s.spr - n
  slots : ∀ j, ¬slot j → t.slot j = s.slot j
  fregs : ∀ k, ¬freg k → t.freg k = s.freg k
  flags : t.flags = s.flags
  ipo : t.ipo = s.ipo
  stack : t.stack = s.stack
  ram : t.ram = s.ram
  hmem : t.hmem = s.hmem
  events : t.events = s.events
  cfg : t.cfg = s.cfg

/-- t is s after the stack fault protocol (60_exceptions.md R501). -/
structure TookStackFault (s t : State) (kind : StackFaultKind) (code : Nat) : Prop where
  log : t.events = .log kind s.ipo :: s.events
  spr : t.spr = 0
  ipo : t.ipo = BitVec.ofNat 24 (s.hmem.read s.cfg.hmemErrHandler)
  errId : t.hmem.read s.cfg.hmemErrId = code
  slots : ∀ i, i ≠ s.cfg.hmemErrId → t.hmem.read i = s.hmem.read i
  regs : t.regs = s.regs
  fregs : t.fregs = s.fregs
  flags : t.flags = s.flags
  ram : t.ram = s.ram
  stack : t.stack = s.stack
  cfg : t.cfg = s.cfg

/-- A step's outcome is one the spec names: OK, FOREIGN, ILLEGAL or one of the three REFUSED reasons
(60_exceptions.md R511). -/
def SpecOutcome (o : Host.Outcome State Fault Refusal) : Prop :=
  (∃ t, o = .next t) ∨ o = .refused .foreign ∨ o = .refused .illegal ∨ o = .refused .badRegIndex ∨
    o = .refused .floatNaN ∨ o = .refused .unspecified

/-- Two outcomes are the same but for what `erase` hides of a next state. -/
def SameBut (erase : State → State) : Host.Outcome State Fault Refusal → Host.Outcome State Fault Refusal → Prop
  | .next t, .next t' => erase t = erase t'
  | .fault f, .fault f' => f = f'
  | .refused r, .refused r' => r = r'
  | _, _ => False

/-- Instructions one after another, stopping at the first that gives no next state. -/
def execAll : List Instr → State → Host.Outcome State Fault Refusal
  | [], s => .next s
  | i :: is, s =>
    match exec i s with
    | .next t => execAll is t
    | .fault f => .fault f
    | .refused r => .refused r

/-! ### Where index fields stand (30_encoding.md R106 to R116, R121) -/

/-- A field of an instruction, told by its kind alone: an integer index, a float index, or n bytes that are no index. -/
inductive FieldShape where
  | idx
  | fidx
  | raw (n : Nat)
deriving DecidableEq, Repr

/-- The fields of a memory operand: the base field, then the displacement field (R111, R112, R113). -/
def memFields (b : BaseSpec) (x : DispSpec) : List FieldShape :=
  (match b with | .abs => .raw 3 | .ind => .idx) :: match x with | .noDisp => [] | .disp _ => [.idx]

/-- The fields of an operand of a given shape (R106, R107, R110, R115, R116). -/
def fieldsOf : OperandSpec → List FieldShape
  | .reg _ | .ridx | .tgt .tReg => [.idx]
  | .freg | .fidx => [.fidx]
  | .imm w => [.raw w.bytes]
  | .fimm => [.raw 4]
  | .tgt .tAbs => [.raw 3]
  | .mem _ b x | .addr b x | .fmem b x => memFields b x

/-- The values of the integer index fields among fields that stand in RAM from a on. An index field of either kind
takes the next value of the mixed pair while there is one (R109), and else one byte, of which an integer index is the
low five bits (R106). -/
def intIndices (m : Memory) : List Nat → Addr → List FieldShape → List Nat
  | _, _, [] => []
  | v :: p, a, .idx :: fs => v :: intIndices m p a fs
  | [], a, .idx :: fs => (m.read a.toNat).toNat % 32 :: intIndices m [] (a + 1) fs
  | _ :: p, a, .fidx :: fs => intIndices m p a fs
  | [], a, .fidx :: fs => intIndices m [] (a + 1) fs
  | p, a, .raw n :: fs => intIndices m p (a + BitVec.ofNat 24 n) fs

/-- The instruction at IPO is of the descriptor d, which the opcode byte `last` selects: P, or S where P selects a table
(R101, R108). Its other bytes begin at address a. -/
def Selects (s : State) (d : Descriptor) (last : Byte) (a : Addr) : Prop :=
  let p := s.ram.read s.ipo.toNat
  let x := s.ram.read (s.ipo + 1).toNat
  (l1 s.cfg.opmap p = .direct d ∧ last = p ∧ a = s.ipo + 1) ∨
    ∃ t, l1 s.cfg.opmap p = .sub t ∧ l2 t x = some d ∧ last = x ∧ a = s.ipo + 2

/-! ### The value of a binary32 pattern (00_scope.md R10) -/

/-- `fval(p)`, as R10 writes it, for a finite p. -/
def fval (p : FloatBits) : ℚ :=
  let e := (p.extractLsb' 23 8).toNat
  let m : ℚ := (p.extractLsb' 0 23).toNat
  (if p.getLsbD 31 then -1 else 1) *
    (if e = 0 then 2 ^ (-126 : ℤ) * (m / 2 ^ 23) else 2 ^ ((e : ℤ) - 127) * (1 + m / 2 ^ 23))

/-- `fvalx(p)`: the value with infinities, for a p that is no NaN (40_alu.md R214). -/
def fvalx (p : FloatBits) : WithBot (WithTop ℚ) :=
  if isInf p then (if p.getLsbD 31 then ⊥ else ((⊤ : WithTop ℚ) : WithBot (WithTop ℚ)))
  else ((fval p : WithTop ℚ) : WithBot (WithTop ℚ))

/-- A finite pattern. -/
def isFinite (p : FloatBits) : Bool := !isNaN p && !isInf p

end Sys2Proof.Machine
end

