-- ==== Sys2Proof/Certificates/Slice0/Obligations.lean ====
section
/-! DEFINITION. The statements for the provers. Each cites the rule of spec/ it follows; OBLIGATIONS.json lists them.
A premise `s.ram.wf = true` or `s.Inv` rules out states no run reaches; `StepKeepsInvariant` states that invariant. -/

open Sys2Proof Sys2Proof.Config Sys2Proof.Machine

/-! ### Decoding, encoding and the step -/

/-- R103: a step at bytes that decode to i is exec of i from the fall-through address. Rests on the spec's decisions
D2, D12, D13. -/
def Obligations.StepRunsDecodedInstruction : Prop :=
  ∀ (s : State) (i : Instr) (rest : List Byte), decode s.cfg.opmap (fetchInstr s) = .ok (i, rest) →
    step s = exec i (s.advance ((fetchInstr s).length - rest.length))

/-- R41, R42, R103: where RAM at IPO holds an encoding of a well-formed i, a step is exec of i with IPO past exactly
those bytes, whatever stands behind them. Rests on the spec's decisions D2, D7, D8, D11, D12, D47, D49, D60, D61 and
the model's choices of log 16. -/
def Obligations.StepRunsEncodedInstruction : Prop :=
  ∀ (s : State) (i : Instr) (bs : List Byte), i.wf = true → encode s.cfg.opmap i = some bs →
    ramBytes s.ram s.ipo bs.length = bs → step s = exec i (s.advance bs.length)

/-- R100 to R116, R127: decoding an encoding gives the instruction back, every operand at every value. Rests on the
spec's decisions D7, D8, D11, D47, D49, D60, D61 and the model's choices of log 16. -/
def Obligations.DecodeInvertsEncode : Prop :=
  ∀ (m : OpMap) (i : Instr) (bs rest : List Byte), i.wf = true → encode m i = some bs →
    decode m (bs ++ rest) = .ok (i, rest)

/-- R101, R123: an instruction whose unmixed form OPMAP lists, under one or two opcode bytes, has an encoding. Rests
on the spec's decisions D1, D50 and the model's choices of log 16. -/
def Obligations.EveryListedFormEncodes : Prop :=
  ∀ (m : OpMap) (i : Instr) (p : Byte),
    (l1 m p = .direct ⟨i.op, i.operands.map Operand.spec, false⟩ ∨
      ∃ t x, l1 m p = .sub t ∧ l2 t x = some ⟨i.op, i.operands.map Operand.spec, false⟩) →
    ∃ bs, encode m i = some bs

/-- R110, R122 c: a decoded instruction has immediates within their widths, and an integer LD of equal widths. Rests
on the spec's decision D50 and the model's choices of log 13. -/
def Obligations.DecodedInstructionIsWellFormed : Prop :=
  ∀ (m : OpMap) (bs rest : List Byte) (i : Instr), decode m bs = .ok (i, rest) → i.wf = true

/-- R121, R129, R130: an instruction's length is told from its first two bytes, it is what the decoder consumes, and
no byte behind it matters. Rests on the spec's decisions D7, D11, D49, D50, D61. -/
def Obligations.DecodeReadsExactlyItsLength : Prop :=
  ∀ (m : OpMap) (p : Byte) (bs rest : List Byte) (i : Instr), wfOpMap m = true →
    decode m (p :: bs) = .ok (i, rest) →
    ∃ used, used ++ rest = p :: bs ∧ used.length = instrLength m p (bs.headD 0) ∧
      ∀ rest', decode m (used ++ rest') = .ok (i, rest')

/-- R511: from every state of the invariant a step ends in one of the outcomes the spec names; it never faults, and
none of the model's own refusals happens. Rests on the spec's decisions D3, D4, D5, D22, D40, D59 and the model's
choices of logs 12, 13, 14. -/
def Obligations.StepOutcomesAreTheSpecs : Prop := ∀ s : State, s.Inv → SpecOutcome (step s)

/-- 95_test_vectors.md section 0 and 1: bytes written out from the field layouts decode to what they stand for. Rests
on the spec's decisions D8, D11, D38, D60, D61. -/
def Obligations.SpecWordsDecode : Prop :=
  let m : OpMap := [(0x01, .sub [(0x11, ⟨.LD, [.reg .w16, .imm .w16], false⟩),
    (0x15, ⟨.LD, [.reg .w8, .mem .w8 .ind (.disp .d8)], false⟩), (0x28, ⟨.DIVR, [.reg .w8, .imm .w8, .reg .w8], false⟩),
    (0x31, ⟨.DJNZ, [.mem .w16 .abs .noDisp, .tgt .tAbs], false⟩), (0x43, ⟨.PUSHR, [.ridx, .ridx], true⟩)])]
  decode m [0x01, 0x11, 0x00, 0x12, 0x34] = .ok (.ld (.reg .w16 0) (.imm .w16 0x1234), []) ∧
  decode m [0x01, 0x15, 0x04, 0x00, 0x03] = .ok (.ld (.reg .w8 4) (.mem .w8 ⟨.ind 0, .disp .d8 3⟩), []) ∧
  decode m [0x01, 0x28, 0xE0, 0x03, 0x01] = .ok (.divr (.reg .w8 0) (.imm .w8 3) (.reg .w8 1), []) ∧
  decode m [0x01, 0x31, 0x00, 0x10, 0x00, 0x00, 0x00, 0x40] = .ok (.djnz (.abs .w16 0x001000) (.abs 0x000040), []) ∧
  decode m [0x01, 0x43, 0x01] = .ok (.pushr 24 1, [])

/-- R106, R107: bits [7:5] of an integer index byte and bits [7:4] of a float index byte are ignored. Rests on the
spec's decision D7. -/
def Obligations.IgnoredIndexBits : Prop :=
  ∀ (b b' : Byte) (bs : List Byte),
    (b.toNat % 32 = b'.toNat % 32 → Cursor.slot ⟨[], b :: bs⟩ = Cursor.slot ⟨[], b' :: bs⟩) ∧
    (b.toNat % 16 = b'.toNat % 16 → Cursor.fslot ⟨[], b :: bs⟩ = Cursor.fslot ⟨[], b' :: bs⟩)

/-- R108, T1.6: idx1 = 8 (last mod 4) + (Cm div 32) and idx2 = Cm mod 32, for all values of both bytes. Rests on the
spec's decision D61. -/
def Obligations.MixedPairFormula : Prop :=
  ∀ last cm : Byte,
    (mixedPair last cm).map BitVec.toNat = [8 * (last.toNat % 4) + cm.toNat / 32, cm.toNat % 32]

/-- R104, R105: a primary byte of another family, and opcode bytes without an entry. Rests on the spec's decisions D1,
D2, D3, D4, D12. -/
def Obligations.ForeignAndIllegalBytesAreRefused : Prop :=
  ∀ s : State,
    let p := s.ram.read s.ipo.toNat
    (l1 s.cfg.opmap p = .foreign → step s = .refused .foreign) ∧
    (l1 s.cfg.opmap p = .none → step s = .refused .illegal) ∧
    ∀ t, l1 s.cfg.opmap p = .sub t → l2 t (s.ram.read (s.ipo + 1).toNat) = none → step s = .refused .illegal

/-- R128, R33: a step is refused for a bad index exactly where an integer index field of the instruction exceeds 25:
in any operand, of one or two opcode bytes, as a register, base, displacement, target or range end, and in a mixed
pair. Rests on the spec's decisions D1, D2, D5, D7, D11, D12, D47, D49, D60, D61. -/
def Obligations.BadRegisterIndexIsRefused : Prop :=
  ∀ (s : State) (d : Descriptor) (last : Byte) (a : Addr), Selects s d last a →
    let cm := (s.ram.read a.toNat).toNat
    let pair := [8 * (last.toNat % 4) + cm / 32, cm % 32]
    let fields := d.operands.flatMap fieldsOf
    (step s = .refused .badRegIndex ↔
      ∃ v ∈ (if d.mixed then intIndices s.ram pair (a + 1) fields else intIndices s.ram [] a fields), 25 < v)

/-! ### Registers, memory, operands -/

/-- R31, R32: byte k of a group is slot (i + k) mod 26, the first the most significant; a write changes no other slot.
Rests on the spec's decision D6. -/
def Obligations.GroupIsBigEndian : Prop :=
  ∀ (s : State) (w : Width) (i : Slot) (v : Nat),
    s.group w i < 2 ^ w.bits ∧
    (∀ (k : Nat) (j : Slot), k < w.bytes → j.val = (i.val + k) % 26 →
      (s.slot j).toNat = s.group w i / 256 ^ (w.bytes - 1 - k) % 256 ∧
      ((s.setGroup w i v).slot j).toNat = v / 256 ^ (w.bytes - 1 - k) % 256) ∧
    (∀ j, ¬inSlots i w.bytes j → (s.setGroup w i v).slot j = s.slot j) ∧
    (s.setGroup w i v).group w i = v % 2 ^ w.bits

/-- R71, R72: byte k of an n-byte RAM value is at (a + k) mod 2^24, the lowest address the most significant; a write
changes no other byte. Rests on the spec's decisions D9, D43, D51 and the model's choices of log 17. -/
def Obligations.RamIsBigEndianAndWraps : Prop :=
  ∀ (m : Memory) (a : Addr) (n v : Nat), m.wf = true → n ≤ 4 →
    memRead m a n < 256 ^ n ∧
    (∀ k < n,
      (m.read (a + BitVec.ofNat 24 k).toNat).toNat = memRead m a n / 256 ^ (n - 1 - k) % 256 ∧
      ((memWrite m a n v).read (a + BitVec.ofNat 24 k).toNat).toNat = v / 256 ^ (n - 1 - k) % 256) ∧
    (∀ x : Addr, ¬inAddrs a n x → (memWrite m a n v).read x.toNat = m.read x.toNat) ∧
    memRead (memWrite m a n v) a n = v % 256 ^ n

/-- R112 to R114: the effective address is base plus signed displacement modulo 2^24. -/
def Obligations.EffectiveAddressWraps : Prop :=
  ∀ (s : State) (a : Addr) (i j : Slot) (wd : DispWidth),
    let w := wd.toWidth
    let d : Int := (BitVec.ofNat w.bits (s.group w j)).toInt
    effAddr s ⟨.abs a, .noDisp⟩ = a ∧
    (effAddr s ⟨.ind i, .noDisp⟩).toNat = s.group .w24 i ∧
    ((effAddr s ⟨.abs a, .disp wd j⟩).toNat : Int) = (a.toNat + d) % 2 ^ 24 ∧
    ((effAddr s ⟨.ind i, .disp wd j⟩).toNat : Int) = (s.group .w24 i + d) % 2 ^ 24

/-- R117, R354: what reading each operand form gives, in terms of register groups, float registers and RAM. A location
is resolved in the state s before the instruction and may be read in a later state t. Rests on the spec's decisions
D9, D10, D13, D14. -/
def Obligations.SourceOperandValues : Prop :=
  ∀ (s t : State) (w : Width) (i : Slot) (v : BitVec 32) (m : MemRef) (a : Addr) (k : FSlot) (p : FloatBits),
    ((resolve s (.reg w i)).read t = t.group w i ∧
      (resolve s (.mem w m)).read t = memRead t.ram (effAddr s m) w.bytes) ∧
    (srcVal s (.reg w i) = s.group w i ∧ (immFits w v = true → srcVal s (.imm w v) = v.toNat) ∧
      srcVal s (.mem w m) = memRead s.ram (effAddr s m) w.bytes) ∧
    (regOrImmVal s (.reg w i) = s.group w i ∧ (immFits w v = true → regOrImmVal s (.imm w v) = v.toNat)) ∧
    (flocVal s (.freg k) = s.freg k ∧ (flocVal s (.fmem m)).toNat = memRead s.ram (effAddr s m) 4) ∧
    (fsrcVal s (.freg k) = s.freg k ∧ fsrcVal s (.fimm p) = p ∧
      (fsrcVal s (.fmem m)).toNat = memRead s.ram (effAddr s m) 4) ∧
    (fregOrImmVal s (.freg k) = s.freg k ∧ fregOrImmVal s (.fimm p) = p) ∧
    ((resolveCell s (.reg w i)).read t = t.group w i ∧
      (resolveCell s (.abs w a)).read t = memRead t.ram a w.bytes ∧
      (resolveCell s (.ind w i)).read t = memRead t.ram (BitVec.ofNat 24 (s.group .w24 i)) w.bytes) ∧
    (targetVal t (.abs a) = a ∧ (targetVal t (.reg i)).toNat = t.group .w24 i)

/-! ### Reset, the invariant, and rules of the whole machine -/

/-- R48, R600: what reset leaves. Rests on the spec's decision D39. -/
def Obligations.ResetValues : Prop :=
  (∀ i, State.reset.slot i = 0) ∧ (∀ k, State.reset.freg k = 0) ∧ State.reset.flags = Flags.clear ∧
    State.reset.spr = 0 ∧ State.reset.ipo = State.reset.cfg.resetIpo

/-- R43, R45, R70: the state after reset is one of the invariant. Rests on the spec's decisions D30, D35, D39, D50,
D53, D62 and the model's choices of logs 2, 3, 4, 8. -/
def Obligations.ResetSatisfiesInvariant : Prop := State.reset.Inv

/-- R43, R45, R70, R71: every step keeps the invariant, and the OPEN parameters. Rests on the spec's decisions D30,
D34, D35, D43, D50, D53, D62 and the model's choices of logs 1, 2, 3, 4. -/
def Obligations.StepKeepsInvariant : Prop :=
  ∀ s t : State, s.Inv → step s = .next t → t.Inv ∧ t.cfg = s.cfg

/-- R39: no step reads a flag: from states that differ in their flags alone, the next states differ in them alone. -/
def Obligations.FlagsAreNeverRead : Prop :=
  ∀ (s : State) (f : Flags), SameBut (fun t => t.setFlags Flags.clear) (step (s.setFlags f)) (step s)

/-- R510: no step reads the event history: it only puts events on top of whatever history there is. Rests on the
spec's decisions D52, D58 and the model's choices of log 5. -/
def Obligations.PortHistoryIsNeverRead : Prop :=
  ∀ (s t : State) (es : List Event), step s = .next t →
    ∃ new, t.events = new ++ s.events ∧ step { s with events := es } = .next { t with events := new ++ es }

/-- R37, R38: the flags an instruction leaves alone. Rests on the spec's decisions D16, D19, D23, D24, D26, D34, D36,
D37, D48. -/
def Obligations.FlagWriters : Prop :=
  ∀ (i : Instr) (s t : State), exec i s = .next t →
    match i with
    | .cp .. | .fcp .. => t.flags.v = false
    | .add .. | .sub .. | .addf .. | .subf .. | .mul .. | .div .. | .divr .. | .sdiv .. | .sdivr .. =>
      t.flags.po = s.flags.po ∧ t.flags.eq = s.flags.eq ∧ t.flags.gt = s.flags.gt ∧ t.flags.lt = s.flags.lt
    | .ldxf .. => t.flags = { s.flags with v := t.flags.v }
    | .ld .. | .ldff .. | .ldfi .. | .ldfm .. | .stf .. | .ldfx .. | .fill .. | .fills .. => t.flags = s.flags
    | .nand .. | .xnor .. | .imply .. | .djnz .. => t.flags = s.flags
    | .push .. | .pop .. | .pushr .. | .popr .. | .pushf .. | .popf .. | .pushfr .. | .popfr .. => t.flags = s.flags
    | .fdenom .. => False

/-- R34, R35: which instructions can change a register file. Rests on the spec's decisions D24, D25, D34, D36, D38. -/
def Obligations.RegisterFileWriters : Prop :=
  ∀ (i : Instr) (s t : State), exec i s = .next t →
    (t.regs ≠ s.regs → match i with
      | .ld (.reg ..) _ | .ldxf (.reg ..) _ | .add (.reg ..) _ | .sub (.reg ..) _ | .addf (.reg ..) _ => True
      | .subf (.reg ..) _ | .mul (.reg ..) _ | .div (.reg ..) _ | .sdiv (.reg ..) _ => True
      | .divr d _ r | .sdivr d _ r => (∃ w j, d = .reg w j) ∨ ∃ w j, r = .reg w j
      | .nand (.reg ..) _ | .xnor (.reg ..) _ | .imply (.reg ..) _ => True
      | .pop .. | .popr .. | .djnz (.reg ..) _ => True
      | _ => False) ∧
    (t.fregs ≠ s.fregs → match i with
      | .ldff .. | .ldfi .. | .ldfm .. | .ldfx .. | .popf .. | .popfr .. => True
      | _ => False)

/-- R41, R507: IPO leaves the fall-through address by a DJNZ to its target, or by a push or pop through the stack
fault protocol to HMEM's handler address. Rests on the spec's decisions D14, D34, D35, D40 and the model's choices of
log 4. -/
def Obligations.IpoWriters : Prop :=
  ∀ (i : Instr) (s t : State), exec i s = .next t → t.ipo ≠ s.ipo →
    (∃ c g, i = .djnz c g ∧ t.ipo = targetVal t g) ∨
    (t.spr = 0 ∧ t.ipo = BitVec.ofNat 24 (s.hmem.read s.cfg.hmemErrHandler) ∧
      match i with
      | .push .. | .pop .. | .pushr .. | .popr .. | .pushf .. | .popf .. | .pushfr .. | .popfr .. => True
      | _ => False)

/-- R70, R78, R79: only the stack fault protocol writes HMEM; only a push writes the stack region; only a push or pop
moves SPR; no push or pop writes RAM. Rests on the spec's decisions D29, D34, D54, D62. -/
def Obligations.AddressSpacesAreSeparate : Prop :=
  ∀ (i : Instr) (s t : State), exec i s = .next t →
    (t.hmem = s.hmem ∨ ∃ kind, t = s.stackFault kind) ∧
    match i with
    | .push .. | .pushr .. | .pushf .. | .pushfr .. => t.ram = s.ram
    | .pop .. | .popr .. | .popf .. | .popfr .. => t.ram = s.ram ∧ t.stack = s.stack
    | _ => t.stack = s.stack ∧ t.spr = s.spr ∧ t.hmem = s.hmem

/-! ### ALU -/

/-- R202. Rests on the spec's decisions D13, D15, D16, D55. -/
def Obligations.AddResult : Prop :=
  ∀ (dst : ILoc) (src : ISrc) (s : State), s.ram.wf = true →
    let l := resolve s dst
    let W := dst.width.bits
    let x := l.read s + srcVal s src
    let r := x % 2 ^ W
    WritesLoc (exec (.add dst src) s) s l r
      { s.flags with z := decide (r = 0), c := decide (2 ^ W ≤ x), s := r.testBit (W - 1), v := false }

/-- R203. Rests on the spec's decisions D13, D15, D16, D55. -/
def Obligations.SubResult : Prop :=
  ∀ (dst : ILoc) (src : ISrc) (s : State), s.ram.wf = true →
    let l := resolve s dst
    let W := dst.width.bits
    let a := l.read s
    let b := srcVal s src
    let r := (BitVec.ofInt W ((a : Int) - b)).toNat
    WritesLoc (exec (.sub dst src) s) s l r
      { s.flags with z := decide (r = 0), c := decide (a < b), s := r.testBit (W - 1), v := false }

/-- R204: the rounded magnitude fMag p is added or, for a negative float, subtracted; `ScaledFloatIsItsValue` says
what fMag is (R206). Rests on the spec's decisions D13, D22, D23, D55. -/
def Obligations.AddFloatResult : Prop :=
  ∀ (dst : ILoc) (src : FSrc) (s : State), s.ram.wf = true →
    let l := resolve s dst
    let W := dst.width.bits
    let p := fsrcVal s src
    let x : Int := if p.getLsbD 31 then (l.read s : Int) - fMag p else l.read s + fMag p
    let r := (max 0 (min x (2 ^ W - 1))).toNat
    isNaN p = false → WritesLoc (exec (.addf dst src) s) s l r
      { s.flags with z := decide (r = 0), c := false, s := r.testBit (W - 1), v := decide ((r : Int) ≠ x) }

/-- R205: the mirror of R204, with the same rounded magnitude. Rests on the spec's decisions D13, D22, D23, D55. -/
def Obligations.SubFloatResult : Prop :=
  ∀ (dst : ILoc) (src : FSrc) (s : State), s.ram.wf = true →
    let l := resolve s dst
    let W := dst.width.bits
    let p := fsrcVal s src
    let x : Int := if p.getLsbD 31 then (l.read s : Int) + fMag p else l.read s - fMag p
    let r := (max 0 (min x (2 ^ W - 1))).toNat
    isNaN p = false → WritesLoc (exec (.subf dst src) s) s l r
      { s.flags with z := decide (r = 0), c := false, s := r.testBit (W - 1), v := decide ((r : Int) ≠ x) }

/-- R206, R407: the float-to-integer paths refuse a NaN, and nothing else. Rests on the spec's decisions D22, D24. -/
def Obligations.OnlyNaNSourcesAreRefused : Prop :=
  ∀ (dst : ILoc) (src : FSrc) (k : FSlot) (s : State),
    (exec (.addf dst src) s = .refused .floatNaN ↔ isNaN (fsrcVal s src) = true) ∧
    (exec (.subf dst src) s = .refused .floatNaN ↔ isNaN (fsrcVal s src) = true) ∧
    (exec (.ldxf dst k) s = .refused .floatNaN ↔ isNaN (s.freg k) = true)

/-- R207. Rests on the spec's decisions D13, D15, D16, D55. -/
def Obligations.MulResult : Prop :=
  ∀ (dst : ILoc) (src : ISrc) (s : State), s.ram.wf = true →
    let l := resolve s dst
    let W := dst.width.bits
    let x := l.read s * srcVal s src
    let r := x % 2 ^ W
    WritesLoc (exec (.mul dst src) s) s l r
      { s.flags with z := decide (r = 0), c := decide (2 ^ W - 1 < x), s := r.testBit (W - 1), v := false }

/-- R208: a zero divisor saturates the quotient and sets C; any other divides and clears it. Rests on the spec's
decisions D13, D15, D16, D55, D57. -/
def Obligations.DivResult : Prop :=
  ∀ (dst : ILoc) (src : ISrc) (s : State), s.ram.wf = true →
    let l := resolve s dst
    let W := dst.width.bits
    let b := srcVal s src
    let q := if b = 0 then 2 ^ W - 1 else l.read s / b
    WritesLoc (exec (.div dst src) s) s l q
      { s.flags with z := decide (q = 0), c := decide (b = 0), s := q.testBit (W - 1), v := false }

/-- R209: quotient first, remainder second, so the remainder wins where they overlap; flags from the quotient. Rests
on the spec's decisions D13, D15, D16, D38, D55, D57. -/
def Obligations.DivRemainderResult : Prop :=
  ∀ (dst rem : ILoc) (src : ISrc) (s : State), s.ram.wf = true →
    let l := resolve s dst
    let W := dst.width.bits
    let b := srcVal s src
    let q := if b = 0 then 2 ^ W - 1 else l.read s / b
    let rm := if b = 0 then 0 else l.read s % b
    WritesTwoLocs (exec (.divr dst src rem) s) s l (resolve s rem) q (rm % 2 ^ rem.width.bits)
      { s.flags with z := decide (q = 0), c := decide (b = 0), s := q.testBit (W - 1), v := false }

/-- R210: signed division toward zero, for a divisor that is not zero. Rests on the spec's decisions D13, D16, D37,
D55. -/
def Obligations.SignedDivResult : Prop :=
  ∀ (dst : ILoc) (src : ISrc) (s : State), s.ram.wf = true →
    let l := resolve s dst
    let W := dst.width.bits
    let sa := (BitVec.ofNat W (l.read s)).toInt
    let sb := (BitVec.ofNat src.width.bits (srcVal s src)).toInt
    let r := (BitVec.ofInt W (sa.tdiv sb)).toNat
    srcVal s src ≠ 0 → WritesLoc (exec (.sdiv dst src) s) s l r
      { s.flags with z := decide (r = 0), c := false, s := r.testBit (W - 1), v := false }

/-- R211: signed quotient and remainder, for a divisor that is not zero. Rests on the spec's decisions D13, D16, D37,
D38, D55. -/
def Obligations.SignedDivRemainderResult : Prop :=
  ∀ (dst rem : ILoc) (src : ISrc) (s : State), s.ram.wf = true →
    let l := resolve s dst
    let W := dst.width.bits
    let sa := (BitVec.ofNat W (l.read s)).toInt
    let sb := (BitVec.ofNat src.width.bits (srcVal s src)).toInt
    let r := (BitVec.ofInt W (sa.tdiv sb)).toNat
    srcVal s src ≠ 0 → WritesTwoLocs (exec (.sdivr dst src rem) s) s l (resolve s rem) r
      (BitVec.ofInt rem.width.bits (sa.tmod sb)).toNat
      { s.flags with z := decide (r = 0), c := false, s := r.testBit (W - 1), v := false }

/-- R210, R211, R504: a zero divisor of SDIV sends one ERR event; no register, byte or flag changes and IPO stays the
fall-through address. Rests on the spec's decisions D36, D38, D52 and the model's choices of logs 5, 24. -/
def Obligations.SignedDivByZeroIsReported : Prop :=
  ∀ (dst rem : ILoc) (src : ISrc) (s : State), srcVal s src = 0 →
    exec (.sdiv dst src) s = .next { s with events := .err s.cfg.errDivZeroArg :: s.events } ∧
    exec (.sdivr dst src rem) s = .next { s with events := .err s.cfg.errDivZeroArg :: s.events }

/-- R212, R213: the eight flags of an integer compare; nothing else changes. Rests on the spec's decisions D15, D17,
D18. -/
def Obligations.CompareResult : Prop :=
  ∀ (op1 : ILoc) (op2 : ISrc) (s : State),
    let a := (resolve s op1).read s
    let b := srcVal s op2
    NextWith (exec (.cp op1 op2) s) fun t =>
      t = { s with flags := t.flags } ∧
      t.flags.z = decide (a = b) ∧ t.flags.c = decide (a < b) ∧
      t.flags.s = (BitVec.ofInt op1.width.bits ((a : Int) - b)).msb ∧ t.flags.v = false ∧
      t.flags.po = poCmp op1.width op2.width a b ∧ t.flags.eq = decide (a = b) ∧ t.flags.gt = decide (b < a) ∧
      t.flags.lt = decide (a < b)

/-- R214: a float compare orders by IEEE value, infinities at the ends, the two zeros equal; a NaN on either side
leaves every flag false. Rests on the spec's decision D19. -/
def Obligations.FloatCompareResult : Prop :=
  ∀ (op1 : FLoc) (op2 : FSrc) (s : State),
    let p := flocVal s op1
    let q := fsrcVal s op2
    NextWith (exec (.fcp op1 op2) s) fun t =>
      t = { s with flags := t.flags } ∧ t.flags.v = false ∧ t.flags.po = false ∧
      ((isNaN p = true ∨ isNaN q = true) → t.flags = Flags.clear) ∧
      (isNaN p = false → isNaN q = false →
        (t.flags.z = true ↔ fvalx p = fvalx q) ∧ (t.flags.eq = true ↔ fvalx p = fvalx q) ∧
        (t.flags.c = true ↔ fvalx p < fvalx q) ∧ (t.flags.lt = true ↔ fvalx p < fvalx q) ∧
        (t.flags.s = true ↔ fvalx p < fvalx q) ∧ (t.flags.gt = true ↔ fvalx q < fvalx p))

/-- R215 to R218: NAND, XNOR and IMPLY, bit by bit on the source reduced to W bits; no flag changes. Rests on the
spec's decisions D13, D20, D21, D55. -/
def Obligations.BitwiseResult : Prop :=
  ∀ (dst : ILoc) (src : ISrc) (s : State), s.ram.wf = true →
    let l := resolve s dst
    let W := dst.width.bits
    let a := BitVec.ofNat W (l.read s)
    let b := BitVec.ofNat W (srcVal s src)
    WritesLoc (exec (.nand dst src) s) s l (~~~(a &&& b)).toNat s.flags ∧
    WritesLoc (exec (.xnor dst src) s) s l (~~~(a ^^^ b)).toNat s.flags ∧
    WritesLoc (exec (.imply dst src) s) s l (~~~a ||| b).toNat s.flags

/-- R219: an FDENOM descriptor ends the step refused, on every path. Rests on the spec's decision D59. -/
def Obligations.FdenomIsRefused : Prop :=
  ∀ (ops : List Operand) (s : State), exec (.fdenom ops) s = .refused .unspecified

/-- R10: `roundHalfEven` gives a nearest integer, and the even one of two. -/
def Obligations.RoundingIsNearestEven : Prop :=
  ∀ n d : Nat, 0 < d →
    let q : Int := roundHalfEven n d
    (∀ k : Int, |d * q - n| ≤ |d * k - n|) ∧ (2 * |d * q - n| = d → q % 2 = 0)

/-- R10, R206: the fields of a pattern; the scaled integer that stands for its value, fKey p = fval p * 2^149; and
FMag, a nearest integer to |fval p|, the even one at a tie, and 2^32 for an infinity. Rests on the spec's decision
D22. -/
def Obligations.ScaledFloatIsItsValue : Prop :=
  ∀ p : FloatBits,
    let x : ℚ := |fval p|
    (isNaN p = true ↔ (p.extractLsb' 23 8).toNat = 255 ∧ (p.extractLsb' 0 23).toNat ≠ 0) ∧
    (isInf p = true ↔ (p.extractLsb' 23 8).toNat = 255 ∧ (p.extractLsb' 0 23).toNat = 0) ∧
    (isFinite p = true → ((fKey p : Int) : ℚ) = fval p * 2 ^ 149 ∧
      (∀ k : Int, |(fMag p : ℚ) - x| ≤ |(k : ℚ) - x|) ∧ (|(fMag p : ℚ) - x| = 1 / 2 → fMag p % 2 = 0)) ∧
    (isInf p = true → fMag p = 2 ^ 32)

/-! ### Loads, stores, fills -/

/-- R401: LD copies W bits, read before the write. Rests on the spec's decisions D13, D26. -/
def Obligations.LoadResult : Prop :=
  ∀ (dst : ILoc) (src : ISrc) (s : State), s.ram.wf = true → dst.width = src.width →
    WritesLoc (exec (.ld dst src) s) s (resolve s dst) (srcVal s src) s.flags

/-- R402 to R405: the four float moves copy the 32-bit pattern exactly; a float store writes the four bytes at EA.
Rests on the spec's decisions D9, D10, D26, D49. -/
def Obligations.FloatMoveResult : Prop :=
  ∀ (d k : FSlot) (p : FloatBits) (m : MemRef) (src : FRegOrImm) (s : State), s.ram.wf = true →
    WritesFreg (exec (.ldff d k) s) s d (s.freg k) ∧ WritesFreg (exec (.ldfi d p) s) s d p ∧
    WritesFreg (exec (.ldfm d m) s) s d (BitVec.ofNat 32 (memRead s.ram (effAddr s m) 4)) ∧
    WritesLoc (exec (.stf m src) s) s (.mem .w32 (effAddr s m))
      (match src with | .freg j => s.freg j | .fimm q => q).toNat s.flags

/-- R406: LD of an integer to a float register converts the unsigned value. Rests on the spec's decisions D25, D26. -/
def Obligations.IntToFloatResult : Prop :=
  ∀ (d : FSlot) (src : ISrc) (s : State), WritesFreg (exec (.ldfx d src) s) s d (toF32 (srcVal s src))

/-- R10, R406: `toF32` gives a finite pattern nearest to n, and of two the one with the even mantissa. Rests on the
spec's decision D25. -/
def Obligations.IntToFloatRoundsToNearestEven : Prop :=
  ∀ n : Nat, n < 2 ^ 32 → isFinite (toF32 n) = true ∧
    (∀ p, isFinite p = true → |fval (toF32 n) - n| ≤ |fval p - n|) ∧
    (∀ p, isFinite p = true → fval p ≠ fval (toF32 n) → |fval p - n| = |fval (toF32 n) - n| →
      (toF32 n).getLsbD 0 = false)

/-- R407: the float rounded, clamped to [0, 2^W - 1], with V where it was out of range; V alone is written. Rests on
the spec's decisions D22, D24, D26 and the model's choices of log 19. -/
def Obligations.FloatToIntResult : Prop :=
  ∀ (dst : ILoc) (k : FSlot) (s : State), s.ram.wf = true →
    let l := resolve s dst
    let W := dst.width.bits
    let p := s.freg k
    let n : Int := if p.getLsbD 31 then -(fMag p : Int) else fMag p
    let r := (max 0 (min n (2 ^ W - 1))).toNat
    isNaN p = false →
      WritesLoc (exec (.ldxf dst k) s) s l r { s.flags with v := decide (n < 0 ∨ 2 ^ W - 1 < n) }

/-- R408: FILL writes `count` copies of the pattern, big-endian, a later copy winning where the fill laps itself;
every byte outside the fill is as before. Rests on the spec's decisions D9, D27, D43. -/
def Obligations.FillResult : Prop :=
  ∀ (m : MemRef) (pat cnt : RegOrImm) (s : State), s.ram.wf = true →
    let p := regOrImmVal s pat
    let u := pat.width.bytes
    let N := regOrImmVal s cnt
    let at' : Nat → Nat → Addr := fun j k => effAddr s m + BitVec.ofNat 24 (j * u + k)
    NextWith (exec (.fill m pat cnt) s) fun t =>
      (∀ j k, j < N → k < u → (∀ j' k', j < j' → j' < N → k' < u → at' j' k' ≠ at' j k) →
        (t.ram.read (at' j k).toNat).toNat = p / 256 ^ (u - 1 - k) % 256) ∧
      t.flags = s.flags ∧ t.ipo = s.ipo ∧
      KeepsAllBut s t (fun _ => False) (fun _ => False) (fun x => ∃ j k, j < N ∧ k < u ∧ x = at' j k)

/-- R409: FILLS repeats the fill at every multiple of the OPEN stride, a later copy winning; every byte outside the
stamps is as before. Rests on the spec's decisions D9, D27, D28, D43. -/
def Obligations.StampedFillResult : Prop :=
  ∀ (m : MemRef) (pat cnt : RegOrImm) (wr : Width) (rep : Slot) (s : State), s.ram.wf = true →
    let p := regOrImmVal s pat
    let u := pat.width.bytes
    let N := regOrImmVal s cnt
    let R := s.group wr rep
    let at' : Nat → Nat → Nat → Addr := fun r j k => effAddr s m + BitVec.ofNat 24 (r * stampStride N u + j * u + k)
    NextWith (exec (.fills m pat cnt wr rep) s) fun t =>
      (∀ r j k, r < R → j < N → k < u →
        (∀ r' j' k', r' < R → j' < N → k' < u → (r < r' ∨ (r = r' ∧ j < j')) → at' r' j' k' ≠ at' r j k) →
        (t.ram.read (at' r j k).toNat).toNat = p / 256 ^ (u - 1 - k) % 256) ∧
      t.flags = s.flags ∧ t.ipo = s.ipo ∧
      KeepsAllBut s t (fun _ => False) (fun _ => False)
        (fun x => ∃ r j k, r < R ∧ j < N ∧ k < u ∧ x = at' r j k)

/-- R409: with contiguous stamps the stamped fill is the fill of N * R units. Rests on the spec's decision D28. -/
def Obligations.ContiguousStampsAreOneFill : Prop :=
  ∀ (m : Memory) (a : Addr) (p u n r : Nat), stampCore m a p u n (n * u) r = fillCore m a p u (n * r)

/-! ### Stack -/

/-- R301, R303, R307: a push that fits writes the value's bytes, most significant first, and moves SPR past them.
Rests on the spec's decisions D29, D31. -/
def Obligations.PushResult : Prop :=
  ∀ (w : Width) (i : Slot) (k : FSlot) (s : State), s.stack.wf = true →
    (s.spr + w.bytes ≤ s.cfg.stackCap →
      NextWith (exec (.push w i) s) fun t => PushedOnto s t (beBytes w.bytes (s.group w i))) ∧
    (s.spr + 4 ≤ s.cfg.stackCap →
      NextWith (exec (.pushf k) s) fun t => PushedOnto s t (beBytes 4 (s.freg k).toNat))

/-- R305, R309, R311: a range push that fits writes one byte, or four, for each register of the wrapping range,
ascending. Rests on the spec's decisions D29, D31, D32, D33. -/
def Obligations.PushRangeResult : Prop :=
  ∀ (a e : Slot) (fa fe : FSlot) (s : State), s.stack.wf = true →
    let n := (e.val + 26 - a.val) % 26 + 1
    let fn := (fe.val + 16 - fa.val) % 16 + 1
    (s.spr + n ≤ s.cfg.stackCap → NextWith (exec (.pushr a e) s) fun t =>
      PushedOnto s t ((List.range n).map fun j => s.slot (a + Fin.ofNat 26 j))) ∧
    (s.spr + 4 * fn ≤ s.cfg.stackCap → NextWith (exec (.pushfr fa fe) s) fun t =>
      PushedOnto s t ((List.range fn).flatMap fun j => beBytes 4 (s.freg (fa + Fin.ofNat 16 j)).toNat))

/-- R302, R304, R308: a pop of bytes that are there reads them as one value and lowers SPR. Rests on the spec's
decisions D29, D31. -/
def Obligations.PopResult : Prop :=
  ∀ (w : Width) (i : Slot) (k : FSlot) (s : State), s.spr ≤ s.cfg.stackCap →
    (w.bytes ≤ s.spr → NextWith (exec (.pop w i) s) fun t =>
      t.group w i = beValue (stkBytes s.stack (s.spr - w.bytes) w.bytes) ∧
      PoppedFrom s t w.bytes (inSlots i w.bytes) fun _ => False) ∧
    (4 ≤ s.spr → NextWith (exec (.popf k) s) fun t =>
      (t.freg k).toNat = beValue (stkBytes s.stack (s.spr - 4) 4) ∧
      PoppedFrom s t 4 (fun _ => False) fun j => j = k)

/-- R306, R310, R311: a range pop of bytes that are there takes them one register at a time, descending. Rests on the
spec's decisions D29, D31, D32, D33. -/
def Obligations.PopRangeResult : Prop :=
  ∀ (a e : Slot) (fa fe : FSlot) (s : State), s.spr ≤ s.cfg.stackCap →
    let n := (e.val + 26 - a.val) % 26 + 1
    let fn := (fe.val + 16 - fa.val) % 16 + 1
    (n ≤ s.spr → NextWith (exec (.popr a e) s) fun t =>
      (∀ j < n, t.slot (e - Fin.ofNat 26 j) = s.stack.read (s.spr - 1 - j)) ∧
      PoppedFrom s t n (inSlots a n) fun _ => False) ∧
    (4 * fn ≤ s.spr → NextWith (exec (.popfr fa fe) s) fun t =>
      (∀ j < fn, (t.freg (fe - Fin.ofNat 16 j)).toNat = beValue (stkBytes s.stack (s.spr - 4 * (j + 1)) 4)) ∧
      PoppedFrom s t (4 * fn) (fun _ => False) (inFregs fa fn))

/-- R301, R305, R309, R500, R501: a push that does not fit takes the stack fault protocol, before any write. Rests on
the spec's decisions D29, D32, D33, D34, D35, D58 and the model's choices of logs 4, 5. -/
def Obligations.StackOverflowTrap : Prop :=
  ∀ (s : State) (i : Instr) (n : Nat), s.hmem.wf = true →
    (match i with
      | .push w _ => n = w.bytes
      | .pushr a e => n = (e.val + 26 - a.val) % 26 + 1
      | .pushf _ => n = 4
      | .pushfr a e => n = 4 * ((e.val + 16 - a.val) % 16 + 1)
      | _ => False) →
    s.cfg.stackCap < s.spr + n →
    NextWith (exec i s) fun t => TookStackFault s t .overflow s.cfg.errStackOverflow

/-- R302, R306, R310, R500, R501: a pop of more than there is takes the stack fault protocol, before any read. Rests
on the spec's decisions D29, D32, D33, D34, D35, D58 and the model's choices of logs 4, 5. -/
def Obligations.StackUnderflowTrap : Prop :=
  ∀ (s : State) (i : Instr) (n : Nat), s.hmem.wf = true →
    (match i with
      | .pop w _ => n = w.bytes
      | .popr a e => n = (e.val + 26 - a.val) % 26 + 1
      | .popf _ => n = 4
      | .popfr a e => n = 4 * ((e.val + 16 - a.val) % 16 + 1)
      | _ => False) →
    s.spr < n →
    NextWith (exec i s) fun t => TookStackFault s t .underflow s.cfg.errStackUnderflow

/-- R304: pushing register groups one after another and popping the same ones in reverse order gives every register,
float register, flag and SPR back. -/
def Obligations.StackRoundTripIsLifo : Prop :=
  ∀ (gs : List (Width × Slot)) (s : State), s.stack.wf = true →
    s.spr + (gs.map fun g => g.1.bytes).sum ≤ s.cfg.stackCap →
    NextWith (execAll (gs.map (fun g => .push g.1 g.2) ++ gs.reverse.map (fun g => .pop g.1 g.2)) s) fun t =>
      t = { s with stack := t.stack } ∧ ∀ x, x < s.spr → t.stack.read x = s.stack.read x

/-- R306, R310: a range pushed and popped at once is restored, wrapping ranges included. Rests on the spec's decisions
D29, D32, D33. -/
def Obligations.RangeRoundTrip : Prop :=
  ∀ (a e : Slot) (fa fe : FSlot) (s : State), s.stack.wf = true →
    (s.spr + (e.val + 26 - a.val) % 26 + 1 ≤ s.cfg.stackCap →
      NextWith (execAll [.pushr a e, .popr a e] s) fun t => t = { s with stack := t.stack }) ∧
    (s.spr + 4 * ((fe.val + 16 - fa.val) % 16 + 1) ≤ s.cfg.stackCap →
      NextWith (execAll [.pushfr fa fe, .popfr fa fe] s) fun t => t = { s with stack := t.stack })

/-! ### Control transfer -/

/-- R350 to R354: DJNZ decrements with wrap, writes back, and jumps exactly where the result is not zero; a register
target is read after the write-back. No flag changes. Rests on the spec's decisions D13, D14, D48, D55. -/
def Obligations.DjnzResult : Prop :=
  ∀ (c : Cell) (g : Target) (s : State), s.ram.wf = true →
    let l := resolveCell s c
    let r := (l.read s + (2 ^ c.width.bits - 1)) % 2 ^ c.width.bits
    NextWith (exec (.djnz c g) s) fun t =>
      l.read t = r ∧ t.flags = s.flags ∧ KeepsAllButLoc s t l ∧
      t.ipo = (if r = 0 then s.ipo else match g with
        | .abs a => a
        | .reg i => BitVec.ofNat 24 (t.group .w24 i))

/-! ### Immediate fields -/

/-- R110: the field of an immediate is W/8 bytes, the first the most significant; it takes nothing from the mixed pair
and reads nothing behind it. -/
def Obligations.ImmediateFieldIsBigEndian : Prop :=
  ∀ (w : Width) (bs rest : List Byte) (pair : List (BitVec 5)), bs.length = w.bits / 8 →
    ∃ v : BitVec 32, decodeOperand (.imm w) ⟨pair, bs ++ rest⟩ = .ok (.imm w v, ⟨pair, rest⟩) ∧
      v.toNat < 2 ^ w.bits ∧
      ∀ k (h : k < bs.length), v.toNat / 256 ^ (bs.length - 1 - k) % 256 = bs[k].toNat
end

