-- ==== Sys2Proof/Laws/Bits.lean ====
section
/-! SUPPORT. The lemmas of the arithmetic primitives: byte lists and their values, truncation, sign. -/

namespace Sys2Proof

@[simp] theorem Width.bytes_pos (w : Width) : 0 < w.bytes := by cases w <;> decide

theorem Width.bytes_le (w : Width) : w.bytes ≤ 4 := by cases w <;> decide

theorem Width.two_pow_bits (w : Width) : 2 ^ w.bits = 256 ^ w.bytes := by cases w <;> rfl

theorem Width.two_pow_bits_le (w : Width) : 2 ^ w.bits ≤ 2 ^ 32 := by cases w <;> decide

namespace Machine

@[simp] theorem beBytes_length (n v : Nat) : (beBytes n v).length = n := by
  induction n with
  | zero => rfl
  | succ n ih => simp [beBytes, ih]

theorem beValue_lt (bs : List Byte) : beValue bs < 256 ^ bs.length := by
  induction bs with
  | nil => simp [beValue]
  | cons b bs ih =>
    have hb : b.toNat ≤ 255 := by have := b.isLt; omega
    have : b.toNat * 256 ^ bs.length ≤ 255 * 256 ^ bs.length := Nat.mul_le_mul_right _ hb
    simp only [beValue, List.length_cons, Nat.pow_succ]
    omega

/-- Writing a value as bytes and reading it back reduces it to those bytes. -/
theorem beValue_beBytes (n v : Nat) : beValue (beBytes n v) = v % 256 ^ n := by
  induction n with
  | zero => simp [beBytes, beValue, Nat.mod_one]
  | succ n ih =>
    simp only [beBytes, beValue, beBytes_length, BitVec.toNat_ofNat, ih]
    rw [show (2 : Nat) ^ 8 = 256 from rfl, Nat.mod_pow_succ]
    ring

/-- Reading bytes as a value and writing it back gives the bytes. -/
theorem beBytes_beValue (bs : List Byte) : beBytes bs.length (beValue bs) = bs := by
  induction bs with
  | nil => rfl
  | cons b bs ih =>
    have hlt := beValue_lt bs
    have hpos : 0 < 256 ^ bs.length := Nat.pow_pos (by decide)
    have hdiv : (b.toNat * 256 ^ bs.length + beValue bs) / 256 ^ bs.length = b.toNat := by
      rw [Nat.mul_comm, Nat.mul_add_div hpos, Nat.div_eq_of_lt hlt, Nat.add_zero]
    have hlow : ∀ n v u, beBytes n (u * 256 ^ n + v) = beBytes n v := by
      intro n
      induction n with
      | zero => intros; rfl
      | succ n ihn =>
        intro v u
        have e : u * 256 ^ (n + 1) + v = (u * 256) * 256 ^ n + v := by ring
        simp only [beBytes]
        congr 1
        · apply BitVec.eq_of_toNat_eq
          have hp : 0 < 256 ^ n := Nat.pow_pos (by decide)
          rw [e, Nat.mul_comm, Nat.mul_add_div hp]
          simp only [BitVec.toNat_ofNat]
          omega
        · rw [e]; exact ihn v (u * 256)
    simp only [beValue, List.length_cons, beBytes, hdiv, hlow, ih]
    simp

theorem beBytes_mod (n v : Nat) : beBytes n (v % 256 ^ n) = beBytes n v := by
  have h := beBytes_beValue (beBytes n v)
  rwa [beBytes_length, beValue_beBytes] at h

@[simp] theorem trunc_lt (w : Width) (x : Nat) : trunc w x < 2 ^ w.bits :=
  Nat.mod_lt _ (Nat.pow_pos (by decide))

theorem trunc_of_lt {w : Width} {x : Nat} (h : x < 2 ^ w.bits) : trunc w x = x := Nat.mod_eq_of_lt h

theorem truncInt_lt (w : Width) (x : Int) : truncInt w x < 2 ^ w.bits := by
  have hpos : (0 : Int) < 2 ^ w.bits := by positivity
  have h₁ := Int.emod_nonneg x (ne_of_gt hpos)
  have h₂ := Int.emod_lt_of_pos x hpos
  have : ((truncInt w x : Nat) : Int) < ((2 ^ w.bits : Nat) : Int) := by
    unfold truncInt
    rw [Int.toNat_of_nonneg h₁]
    push_cast
    exact h₂
  exact_mod_cast this

theorem truncInt_natCast (w : Width) (x : Nat) : truncInt w (x : Int) = trunc w x := by
  unfold truncInt trunc
  have : ((x : Int) % 2 ^ w.bits) = ((x % 2 ^ w.bits : Nat) : Int) := by push_cast; rfl
  rw [this, Int.toNat_natCast]

theorem maxVal_lt (w : Width) : maxVal w < 2 ^ w.bits := by cases w <;> decide

theorem clampW_le (w : Width) (x : Int) : clampW w x ≤ maxVal w := by
  unfold clampW
  omega

theorem clampW_lt (w : Width) (x : Int) : clampW w x < 2 ^ w.bits :=
  Nat.lt_of_le_of_lt (clampW_le w x) (maxVal_lt w)

/-- A clamped value is the value itself exactly where it is in range. -/
theorem clampW_eq_iff (w : Width) (x : Int) : ((clampW w x : Nat) : Int) = x ↔ 0 ≤ x ∧ x ≤ maxVal w := by
  unfold clampW
  omega

/-- The sign bit of a value in range says whether it is at least 2^(W-1). -/
theorem signBit_eq (w : Width) {v : Nat} (h : v < 2 ^ w.bits) : signBit w v = decide (2 ^ (w.bits - 1) ≤ v) := by
  have hd : v / 2 ^ (w.bits - 1) < 2 := by
    rw [Nat.div_lt_iff_lt_mul (Nat.pow_pos (by decide))]
    have : 2 * 2 ^ (w.bits - 1) = 2 ^ w.bits := by cases w <;> rfl
    omega
  unfold signBit
  rw [Nat.testBit_eq_decide_div_mod_eq]
  have hpos : 0 < 2 ^ (w.bits - 1) := Nat.pow_pos (by decide)
  have := Nat.le_div_iff_mul_le hpos (x := 1) (y := v)
  by_cases hv : 2 ^ (w.bits - 1) ≤ v
  · have : 1 ≤ v / 2 ^ (w.bits - 1) := by rw [Nat.le_div_iff_mul_le hpos]; omega
    simp [hv]; omega
  · have : v / 2 ^ (w.bits - 1) = 0 := Nat.div_eq_of_lt (by omega)
    simp [hv, this]

end Machine

end Sys2Proof
end

