-- ==== Sys2Proof/Laws/Cells.lean ====
section
/-! SUPPORT. Sorted tables: read after write, and the canonical form, for RAM, the stack region and HMEM at once. -/

namespace Sys2Proof.Machine

variable {β : Type} {z : β}

theorem cellGet_of_lt {t : List (Nat × β)} {a : Nat} (h : ∀ e ∈ t, a < e.1) : cellGet z t a = z := by
  induction t with
  | nil => rfl
  | cons e t ih =>
    obtain ⟨k, c⟩ := e
    have hk : a < k := h (k, c) (by simp)
    simp only [cellGet, Nat.ne_of_lt hk, if_false]
    exact ih fun e he => h e (by simp [he])

variable [DecidableEq β]

theorem cellWf_cons {k : Nat} {c : β} {t : List (Nat × β)} :
    cellWf z ((k, c) :: t) = true ↔ c ≠ z ∧ (∀ e ∈ t, k < e.1) ∧ cellWf z t = true := by
  simp [cellWf, and_assoc]

/-- Reading after a write: the written key gives the written value, every other key what it gave before. -/
theorem cellGet_put {t : List (Nat × β)} (h : cellWf z t = true) (a a' : Nat) (b : β) :
    cellGet z (cellPut z t a b) a' = if a' = a then b else cellGet z t a' := by
  induction t with
  | nil =>
    by_cases hb : b = z <;> simp [cellPut, cellGet, hb]
  | cons e t ih =>
    obtain ⟨k, c⟩ := e
    obtain ⟨hc, hk, ht⟩ := cellWf_cons.1 h
    have hlow : ∀ x, x ≤ k → cellGet z t x = z := fun x hx =>
      cellGet_of_lt fun e he => Nat.lt_of_le_of_lt hx (hk e he)
    unfold cellPut
    by_cases h₁ : a < k
    · by_cases hb : b = z
      · by_cases ha : a' = a
        · subst ha; simp [h₁, hb, cellGet, Nat.ne_of_lt h₁, hlow _ (Nat.le_of_lt h₁)]
        · simp [h₁, hb, ha]
      · simp [h₁, hb, cellGet]
    · by_cases h₂ : a = k
      · subst h₂
        by_cases hb : b = z
        · by_cases ha : a' = a
          · subst ha; simp [hb, hlow _ (Nat.le_refl _)]
          · simp [hb, ha, cellGet]
        · by_cases ha : a' = a <;> simp [hb, ha, cellGet]
      · by_cases ha : a' = k
        · subst ha; simp [h₁, h₂, cellGet, Ne.symm h₂]
        · simp [h₁, h₂, cellGet, ha, ih ht]

theorem cellPut_keys {t : List (Nat × β)} {a : Nat} {b : β} {e : Nat × β} (h : e ∈ cellPut z t a b) :
    e.1 = a ∨ e ∈ t := by
  induction t with
  | nil =>
    unfold cellPut at h
    by_cases hb : b = z <;> simp_all
  | cons x t ih =>
    obtain ⟨k, c⟩ := x
    unfold cellPut at h
    split at h
    · split at h
      · exact Or.inr h
      · rcases List.mem_cons.1 h with h | h
        · exact Or.inl (by rw [h])
        · exact Or.inr h
    · split at h
      · split at h
        · exact Or.inr (List.mem_cons_of_mem _ h)
        · rcases List.mem_cons.1 h with h | h
          · exact Or.inl (by rw [h])
          · exact Or.inr (List.mem_cons_of_mem _ h)
      · rcases List.mem_cons.1 h with h | h
        · exact Or.inr (by rw [h]; simp)
        · rcases ih h with h | h
          · exact Or.inl h
          · exact Or.inr (List.mem_cons_of_mem _ h)

/-- A write keeps the canonical form. -/
theorem cellPut_wf {t : List (Nat × β)} (h : cellWf z t = true) (a : Nat) (b : β) :
    cellWf z (cellPut z t a b) = true := by
  induction t with
  | nil =>
    by_cases hb : b = z <;> simp [cellPut, cellWf, hb]
  | cons e t ih =>
    obtain ⟨k, c⟩ := e
    obtain ⟨hc, hk, ht⟩ := cellWf_cons.1 h
    unfold cellPut
    split
    · rename_i h₁
      split
      · exact h
      · rename_i hb
        refine cellWf_cons.2 ⟨hb, ?_, h⟩
        intro e he
        rcases List.mem_cons.1 he with rfl | he
        · exact h₁
        · exact Nat.lt_trans h₁ (hk e he)
    · split
      · rename_i h₂
        subst h₂
        split
        · exact ht
        · rename_i hb
          exact cellWf_cons.2 ⟨hb, hk, ht⟩
      · rename_i h₁ h₂
        refine cellWf_cons.2 ⟨hc, ?_, ih ht⟩
        intro e he
        rcases cellPut_keys he with he | he
        · omega
        · exact hk e he

/-! ### RAM, the stack region and HMEM -/

theorem Memory.read_put {m : Memory} (h : m.wf = true) (a a' : Nat) (b : Byte) :
    (m.put a b).read a' = if a' = a then b else m.read a' :=
  cellGet_put h a a' b

theorem Memory.put_wf {m : Memory} (h : m.wf = true) (a : Nat) (b : Byte) : (m.put a b).wf = true :=
  cellPut_wf h a b

theorem Memory.put_keys {m : Memory} {a : Nat} {b : Byte} {e : Host.Cell} (h : e ∈ m.put a b) : e.1 = a ∨ e ∈ m :=
  cellPut_keys h

theorem Hmem.read_put {h : Hmem} (hw : h.wf = true) (i i' v : Nat) :
    (h.put i v).read i' = if i' = i then v else h.read i' :=
  cellGet_put hw i i' v

theorem Hmem.put_wf {h : Hmem} (hw : h.wf = true) (i v : Nat) : (h.put i v).wf = true :=
  cellPut_wf hw i v

@[simp] theorem Memory.wf_nil : Memory.wf [] = true := rfl

@[simp] theorem Hmem.wf_nil : Hmem.wf [] = true := rfl

end Sys2Proof.Machine
end

