-- ==== Sys2Proof/Laws/Decode.lean ====
section
/-! SUPPORT. The decoder's parts: what each reads from a cursor that supplies an operand's fields, and the candidate
rows that `assemble` accepts. -/

namespace Sys2Proof

open Config Machine

/-! ### Cursors that supply fields -/

/-- A 5-bit value that an index field can be read from. -/
def Carries (v : BitVec 5) : Field → Prop
  | .idx i => v.toNat = i.val
  | .fidx k => v.toNat % 16 = k.val
  | .raw _ => False

/-- A mixed pair and a byte list that supply the fields in order and leave `rest`. -/
def Supplies : List Field → List (BitVec 5) → List Byte → List Byte → Prop
  | [], _, bs, rest => bs = rest
  | .raw b :: fs, p, bs, rest => ∃ bs', bs = b ++ bs' ∧ Supplies fs p bs' rest
  | .idx i :: fs, [], bs, rest => ∃ bs', bs = (Field.idx i).bytes ++ bs' ∧ Supplies fs [] bs' rest
  | .idx i :: fs, v :: p, bs, rest => Carries v (.idx i) ∧ Supplies fs p bs rest
  | .fidx k :: fs, [], bs, rest => ∃ bs', bs = (Field.fidx k).bytes ++ bs' ∧ Supplies fs [] bs' rest
  | .fidx k :: fs, v :: p, bs, rest => Carries v (.fidx k) ∧ Supplies fs p bs rest

theorem supplies_own_bytes (fs : List Field) (rest : List Byte) :
    Supplies fs [] (fs.flatMap Field.bytes ++ rest) rest := by
  induction fs with
  | nil => rfl
  | cons f fs ih => cases f <;> exact ⟨_, by simp [List.flatMap_cons, Field.bytes], ih⟩

/-- A value put in front of the pair supplies the first index field. -/
theorem supplies_takeIndexField {fs fs' : List Field} {f : Field} (h : takeIndexField fs = some (f, fs'))
    {v : BitVec 5} (hv : Carries v f) {p : List (BitVec 5)} {bs rest : List Byte} (hs : Supplies fs' p bs rest) :
    Supplies fs (v :: p) bs rest := by
  induction fs generalizing fs' bs with
  | nil => cases h
  | cons g fs ih =>
    cases g with
    | idx i => cases h; exact ⟨hv, hs⟩
    | fidx k => cases h; exact ⟨hv, hs⟩
    | raw b =>
      simp only [takeIndexField] at h
      split at h
      · cases h
      · rename_i f' fs'' heq
        cases h
        obtain ⟨bs', rfl, hs'⟩ := hs
        exact ⟨bs', rfl, ih heq hs'⟩

theorem Cursor.slot_supplied {i : Slot} {fs : List Field} {c : Cursor} {rest : List Byte}
    (h : Supplies (.idx i :: fs) c.pair c.bytes rest) :
    ∃ c', c.slot = .ok (i, c') ∧ Supplies fs c'.pair c'.bytes rest := by
  obtain ⟨p, bs⟩ := c
  cases p with
  | nil =>
    obtain ⟨bs', rfl, hs⟩ := h
    refine ⟨⟨[], bs'⟩, ?_, hs⟩
    have hv : i.val % 32 = i.val := by
      have := i.isLt
      omega
    simp [Cursor.slot, Cursor.index, Field.bytes, hv]
  | cons v p =>
    obtain ⟨hv, hs⟩ := h
    refine ⟨⟨p, bs⟩, ?_, hs⟩
    simp only [Carries] at hv
    simp [Cursor.slot, Cursor.index, hv]

theorem Cursor.fslot_supplied {k : FSlot} {fs : List Field} {c : Cursor} {rest : List Byte}
    (h : Supplies (.fidx k :: fs) c.pair c.bytes rest) :
    ∃ c', c.fslot = .ok (k, c') ∧ Supplies fs c'.pair c'.bytes rest := by
  obtain ⟨p, bs⟩ := c
  have hk := k.isLt
  cases p with
  | nil =>
    obtain ⟨bs', rfl, hs⟩ := h
    refine ⟨⟨[], bs'⟩, ?_, hs⟩
    simp [Cursor.fslot, Cursor.index, Field.bytes]
  | cons v p =>
    obtain ⟨hv, hs⟩ := h
    refine ⟨⟨p, bs⟩, ?_, hs⟩
    simp only [Carries] at hv
    have hv : v.setWidth 4 = BitVec.ofFin k := by
      apply BitVec.eq_of_toNat_eq
      simp only [BitVec.toNat_setWidth, BitVec.toNat_ofFin]
      omega
    simp [Cursor.fslot, Cursor.index, hv]

theorem Cursor.fetch_supplied {b : List Byte} {fs : List Field} {c : Cursor} {rest : List Byte}
    (h : Supplies (.raw b :: fs) c.pair c.bytes rest) :
    ∃ c', c.fetch b.length = .ok (beValue b, c') ∧ Supplies fs c'.pair c'.bytes rest := by
  obtain ⟨p, bs⟩ := c
  obtain ⟨bs', rfl, hs⟩ := h
  exact ⟨⟨p, bs'⟩, by simp [Cursor.fetch], hs⟩

/-- A value of n bytes, read from the field that holds its own bytes. -/
theorem Cursor.fetch_value {n v : Nat} (hv : v < 256 ^ n) {fs : List Field} {c : Cursor} {rest : List Byte}
    (h : Supplies (.raw (beBytes n v) :: fs) c.pair c.bytes rest) :
    ∃ c', c.fetch n = .ok (v, c') ∧ Supplies fs c'.pair c'.bytes rest := by
  have := Cursor.fetch_supplied h
  rwa [beBytes_length, beValue_beBytes, Nat.mod_eq_of_lt hv] at this

theorem decodeBase_supplied {base : Base} {fs : List Field} {c : Cursor} {rest : List Byte}
    (h : Supplies (base.fields ++ fs) c.pair c.bytes rest) :
    ∃ c', decodeBase base.spec c = .ok (base, c') ∧ Supplies fs c'.pair c'.bytes rest := by
  cases base with
  | abs a =>
    obtain ⟨c', hc, hs⟩ := Cursor.fetch_value (n := 3) a.isLt h
    exact ⟨c', by simp [decodeBase, Base.spec, hc], hs⟩
  | ind i =>
    obtain ⟨c', hc, hs⟩ := Cursor.slot_supplied h
    exact ⟨c', by simp [decodeBase, Base.spec, hc], hs⟩

theorem decodeDisp_supplied {disp : Disp} {fs : List Field} {c : Cursor} {rest : List Byte}
    (h : Supplies (disp.fields ++ fs) c.pair c.bytes rest) :
    ∃ c', decodeDisp disp.spec c = .ok (disp, c') ∧ Supplies fs c'.pair c'.bytes rest := by
  cases disp with
  | noDisp => exact ⟨c, rfl, h⟩
  | disp wd j =>
    obtain ⟨c', hc, hs⟩ := Cursor.slot_supplied h
    exact ⟨c', by simp [decodeDisp, Disp.spec, hc], hs⟩

theorem decodeMemRef_supplied {m : MemRef} {fs : List Field} {c : Cursor} {rest : List Byte}
    (h : Supplies (m.fields ++ fs) c.pair c.bytes rest) :
    ∃ c', decodeMemRef m.base.spec m.disp.spec c = .ok (m, c') ∧ Supplies fs c'.pair c'.bytes rest := by
  obtain ⟨base, disp⟩ := m
  simp only [MemRef.fields, List.append_assoc] at h
  obtain ⟨c₁, h₁, hs₁⟩ := decodeBase_supplied h
  obtain ⟨c₂, h₂, hs₂⟩ := decodeDisp_supplied hs₁
  exact ⟨c₂, by simp [decodeMemRef, h₁, h₂], hs₂⟩

/-- A well-formed operand, read from a cursor that supplies its fields. -/
theorem decodeOperand_supplied {o : Operand} (hw : o.wf = true) {fs : List Field} {c : Cursor} {rest : List Byte}
    (h : Supplies (o.fields ++ fs) c.pair c.bytes rest) :
    ∃ c', decodeOperand o.spec c = .ok (o, c') ∧ Supplies fs c'.pair c'.bytes rest := by
  cases o with
  | reg w i =>
    obtain ⟨c', hc, hs⟩ := Cursor.slot_supplied h
    exact ⟨c', by simp [decodeOperand, Operand.spec, hc], hs⟩
  | imm w v =>
    have hv : v.toNat < 256 ^ w.bytes := by
      have : v.toNat < 2 ^ w.bits := by simpa [Operand.wf, immFits] using hw
      rwa [Width.two_pow_bits] at this
    obtain ⟨c', hc, hs⟩ := Cursor.fetch_value hv h
    exact ⟨c', by simp [decodeOperand, Operand.spec, hc], hs⟩
  | mem w m =>
    obtain ⟨c', hc, hs⟩ := decodeMemRef_supplied h
    exact ⟨c', by simp [decodeOperand, Operand.spec, hc], hs⟩
  | addr m =>
    obtain ⟨c', hc, hs⟩ := decodeMemRef_supplied h
    exact ⟨c', by simp [decodeOperand, Operand.spec, hc], hs⟩
  | freg k =>
    obtain ⟨c', hc, hs⟩ := Cursor.fslot_supplied h
    exact ⟨c', by simp [decodeOperand, Operand.spec, hc], hs⟩
  | fimm p =>
    obtain ⟨c', hc, hs⟩ := Cursor.fetch_value (n := 4) p.isLt h
    exact ⟨c', by simp [decodeOperand, Operand.spec, hc], hs⟩
  | fmem m =>
    obtain ⟨c', hc, hs⟩ := decodeMemRef_supplied h
    exact ⟨c', by simp [decodeOperand, Operand.spec, hc], hs⟩
  | ridx i =>
    obtain ⟨c', hc, hs⟩ := Cursor.slot_supplied h
    exact ⟨c', by simp [decodeOperand, Operand.spec, hc], hs⟩
  | fidx k =>
    obtain ⟨c', hc, hs⟩ := Cursor.fslot_supplied h
    exact ⟨c', by simp [decodeOperand, Operand.spec, hc], hs⟩
  | tgt t =>
    cases t with
    | abs a =>
      obtain ⟨c', hc, hs⟩ := Cursor.fetch_value (n := 3) a.isLt h
      exact ⟨c', by simp [decodeOperand, Operand.spec, hc], hs⟩
    | reg i =>
      obtain ⟨c', hc, hs⟩ := Cursor.slot_supplied h
      exact ⟨c', by simp [decodeOperand, Operand.spec, hc], hs⟩

/-! ### Operand forms and operands -/

@[simp] theorem ILoc.operand_iloc? (x : ILoc) : x.operand.iloc? = some x := by cases x <;> rfl

@[simp] theorem ISrc.operand_isrc? (x : ISrc) : x.operand.isrc? = some x := by cases x <;> rfl

@[simp] theorem RegOrImm.operand_regOrImm? (x : RegOrImm) : x.operand.regOrImm? = some x := by cases x <;> rfl

@[simp] theorem FLoc.operand_floc? (x : FLoc) : x.operand.floc? = some x := by cases x <;> rfl

@[simp] theorem FSrc.operand_fsrc? (x : FSrc) : x.operand.fsrc? = some x := by cases x <;> rfl

@[simp] theorem Cell.operand_cell? (x : Cell) : x.operand.cell? = some x := by cases x <;> rfl

@[simp] theorem Operand.wf_reg (w : Width) (i : Slot) : (Operand.reg w i).wf = true := rfl

@[simp] theorem Operand.wf_mem (w : Width) (m : MemRef) : (Operand.mem w m).wf = true := rfl

@[simp] theorem Operand.wf_addr (m : MemRef) : (Operand.addr m).wf = true := rfl

@[simp] theorem Operand.wf_freg (k : FSlot) : (Operand.freg k).wf = true := rfl

@[simp] theorem Operand.wf_fimm (p : FloatBits) : (Operand.fimm p).wf = true := rfl

@[simp] theorem Operand.wf_fmem (m : MemRef) : (Operand.fmem m).wf = true := rfl

@[simp] theorem Operand.wf_ridx (i : Slot) : (Operand.ridx i).wf = true := rfl

@[simp] theorem Operand.wf_fidx (k : FSlot) : (Operand.fidx k).wf = true := rfl

@[simp] theorem Operand.wf_tgt (t : Target) : (Operand.tgt t).wf = true := rfl

@[simp] theorem ILoc.operand_wf (x : ILoc) : x.operand.wf = true := by cases x <;> rfl

@[simp] theorem ISrc.operand_wf (x : ISrc) : x.operand.wf = x.wf := by cases x <;> rfl

@[simp] theorem RegOrImm.operand_wf (x : RegOrImm) : x.operand.wf = x.wf := by cases x <;> rfl

@[simp] theorem FLoc.operand_wf (x : FLoc) : x.operand.wf = true := by cases x <;> rfl

@[simp] theorem FSrc.operand_wf (x : FSrc) : x.operand.wf = true := by cases x <;> rfl

@[simp] theorem FRegOrImm.operand_wf (x : FRegOrImm) : x.operand.wf = true := by cases x <;> rfl

@[simp] theorem Cell.operand_wf (x : Cell) : x.operand.wf = true := by cases x <;> rfl

@[simp] theorem pairOp_some {α β : Type} (f : α → β → Instr) (a : α) (b : β) :
    pairOp f (some a) (some b) = some (f a b) := rfl

end Sys2Proof
end

