-- ==== Sys2Proof/Laws/PerInstr.lean ====
section
/-! SUPPORT. Facts about every instruction as syntax, one lemma per constructor. -/

namespace Sys2Proof.Laws

/-- Assembling a well-formed instruction's own op tag and operands gives the instruction back (30_encoding.md R123). -/
def AssembleOperands.Statement (i : Instr) : Prop := i.wf = true → assemble i.op i.operands = some i

/-- The operands of a well-formed instruction are well-formed (30_encoding.md R110). -/
def OperandsWf.Statement (i : Instr) : Prop := i.wf = true → ∀ o ∈ i.operands, o.wf = true

/-- The descriptor of a well-formed instruction is a candidate row (30_encoding.md R122 a, c, e; R123). -/
def CandidateRow.Statement (i : Instr) : Prop :=
  i.wf = true → Config.candidate i.op (i.operands.map Operand.spec) = true

theorem AssembleOperands.ld (dst : ILoc) (src : ISrc) : AssembleOperands.Statement (.ld dst src) := by
  intro h
  have hw : dst.width = src.width := by simp only [Instr.wf, Bool.and_eq_true, decide_eq_true_eq] at h; exact h.2
  simp [Instr.op, Instr.operands, assemble, hw]

theorem AssembleOperands.ldff (d s : FSlot) : AssembleOperands.Statement (.ldff d s) := by
  intro _
  simp [Instr.op, Instr.operands, assemble]

theorem AssembleOperands.ldfi (d : FSlot) (p : FloatBits) : AssembleOperands.Statement (.ldfi d p) := by
  intro _
  simp [Instr.op, Instr.operands, assemble]

theorem AssembleOperands.ldfm (d : FSlot) (m : MemRef) : AssembleOperands.Statement (.ldfm d m) := by
  intro _
  simp [Instr.op, Instr.operands, assemble]

theorem AssembleOperands.stf (m : MemRef) (src : FRegOrImm) : AssembleOperands.Statement (.stf m src) := by
  intro _
  cases src <;> rfl

theorem AssembleOperands.ldfx (d : FSlot) (src : ISrc) : AssembleOperands.Statement (.ldfx d src) := by
  intro _
  simp [Instr.op, Instr.operands, assemble]

theorem AssembleOperands.ldxf (dst : ILoc) (s : FSlot) : AssembleOperands.Statement (.ldxf dst s) := by
  intro _
  simp [Instr.op, Instr.operands, assemble]

theorem AssembleOperands.fill (m : MemRef) (pattern count : RegOrImm) :
    AssembleOperands.Statement (.fill m pattern count) := by
  intro _
  simp [Instr.op, Instr.operands, assemble]

theorem AssembleOperands.fills (m : MemRef) (pattern count : RegOrImm) (wr : Width) (rep : Slot) :
    AssembleOperands.Statement (.fills m pattern count wr rep) := by
  intro _
  simp [Instr.op, Instr.operands, assemble]

theorem AssembleOperands.add (dst : ILoc) (src : ISrc) : AssembleOperands.Statement (.add dst src) := by
  intro _
  simp [Instr.op, Instr.operands, assemble]

theorem AssembleOperands.sub (dst : ILoc) (src : ISrc) : AssembleOperands.Statement (.sub dst src) := by
  intro _
  simp [Instr.op, Instr.operands, assemble]

theorem AssembleOperands.addf (dst : ILoc) (src : FSrc) : AssembleOperands.Statement (.addf dst src) := by
  intro _
  simp [Instr.op, Instr.operands, assemble]

theorem AssembleOperands.subf (dst : ILoc) (src : FSrc) : AssembleOperands.Statement (.subf dst src) := by
  intro _
  simp [Instr.op, Instr.operands, assemble]

theorem AssembleOperands.mul (dst : ILoc) (src : ISrc) : AssembleOperands.Statement (.mul dst src) := by
  intro _
  simp [Instr.op, Instr.operands, assemble]

theorem AssembleOperands.div (dst : ILoc) (src : ISrc) : AssembleOperands.Statement (.div dst src) := by
  intro _
  simp [Instr.op, Instr.operands, assemble]

theorem AssembleOperands.divr (dst : ILoc) (src : ISrc) (rem : ILoc) :
    AssembleOperands.Statement (.divr dst src rem) := by
  intro _
  simp [Instr.op, Instr.operands, assemble]

theorem AssembleOperands.sdiv (dst : ILoc) (src : ISrc) : AssembleOperands.Statement (.sdiv dst src) := by
  intro _
  simp [Instr.op, Instr.operands, assemble]

theorem AssembleOperands.sdivr (dst : ILoc) (src : ISrc) (rem : ILoc) :
    AssembleOperands.Statement (.sdivr dst src rem) := by
  intro _
  simp [Instr.op, Instr.operands, assemble]

theorem AssembleOperands.cp (op1 : ILoc) (op2 : ISrc) : AssembleOperands.Statement (.cp op1 op2) := by
  intro _
  simp [Instr.op, Instr.operands, assemble]

theorem AssembleOperands.fcp (op1 : FLoc) (op2 : FSrc) : AssembleOperands.Statement (.fcp op1 op2) := by
  intro _
  simp [Instr.op, Instr.operands, assemble]

theorem AssembleOperands.nand (dst : ILoc) (src : ISrc) : AssembleOperands.Statement (.nand dst src) := by
  intro _
  simp [Instr.op, Instr.operands, assemble]

theorem AssembleOperands.xnor (dst : ILoc) (src : ISrc) : AssembleOperands.Statement (.xnor dst src) := by
  intro _
  simp [Instr.op, Instr.operands, assemble]

theorem AssembleOperands.imply (dst : ILoc) (src : ISrc) : AssembleOperands.Statement (.imply dst src) := by
  intro _
  simp [Instr.op, Instr.operands, assemble]

theorem AssembleOperands.push (w : Width) (i : Slot) : AssembleOperands.Statement (.push w i) := by
  intro _
  simp [Instr.op, Instr.operands, assemble]

theorem AssembleOperands.pop (w : Width) (i : Slot) : AssembleOperands.Statement (.pop w i) := by
  intro _
  simp [Instr.op, Instr.operands, assemble]

theorem AssembleOperands.pushr (s e : Slot) : AssembleOperands.Statement (.pushr s e) := by
  intro _
  simp [Instr.op, Instr.operands, assemble]

theorem AssembleOperands.popr (s e : Slot) : AssembleOperands.Statement (.popr s e) := by
  intro _
  simp [Instr.op, Instr.operands, assemble]

theorem AssembleOperands.pushf (k : FSlot) : AssembleOperands.Statement (.pushf k) := by
  intro _
  simp [Instr.op, Instr.operands, assemble]

theorem AssembleOperands.popf (k : FSlot) : AssembleOperands.Statement (.popf k) := by
  intro _
  simp [Instr.op, Instr.operands, assemble]

theorem AssembleOperands.pushfr (s e : FSlot) : AssembleOperands.Statement (.pushfr s e) := by
  intro _
  simp [Instr.op, Instr.operands, assemble]

theorem AssembleOperands.popfr (s e : FSlot) : AssembleOperands.Statement (.popfr s e) := by
  intro _
  simp [Instr.op, Instr.operands, assemble]

theorem AssembleOperands.djnz (cell : Cell) (tgt : Target) : AssembleOperands.Statement (.djnz cell tgt) := by
  intro _
  simp [Instr.op, Instr.operands, assemble]

theorem AssembleOperands.fdenom (ops : List Operand) : AssembleOperands.Statement (.fdenom ops) := by
  intro _
  simp [Instr.op, Instr.operands, assemble]

theorem OperandsWf.ld (dst : ILoc) (src : ISrc) : OperandsWf.Statement (.ld dst src) := by
  intro h
  simp only [Instr.wf, Bool.and_eq_true] at h
  simp [Instr.operands, h.1]

theorem OperandsWf.ldff (d s : FSlot) : OperandsWf.Statement (.ldff d s) := by
  intro h
  simp_all [Instr.wf, Instr.operands]

theorem OperandsWf.ldfi (d : FSlot) (p : FloatBits) : OperandsWf.Statement (.ldfi d p) := by
  intro h
  simp_all [Instr.wf, Instr.operands]

theorem OperandsWf.ldfm (d : FSlot) (m : MemRef) : OperandsWf.Statement (.ldfm d m) := by
  intro h
  simp_all [Instr.wf, Instr.operands]

theorem OperandsWf.stf (m : MemRef) (src : FRegOrImm) : OperandsWf.Statement (.stf m src) := by
  intro h
  simp_all [Instr.wf, Instr.operands]

theorem OperandsWf.ldfx (d : FSlot) (src : ISrc) : OperandsWf.Statement (.ldfx d src) := by
  intro h
  simp_all [Instr.wf, Instr.operands]

theorem OperandsWf.ldxf (dst : ILoc) (s : FSlot) : OperandsWf.Statement (.ldxf dst s) := by
  intro h
  simp_all [Instr.wf, Instr.operands]

theorem OperandsWf.fill (m : MemRef) (pattern count : RegOrImm) : OperandsWf.Statement (.fill m pattern count) := by
  intro h
  simp only [Instr.wf, Bool.and_eq_true] at h
  simp [Instr.operands, h.1, h.2]

theorem OperandsWf.fills (m : MemRef) (pattern count : RegOrImm) (wr : Width) (rep : Slot) :
    OperandsWf.Statement (.fills m pattern count wr rep) := by
  intro h
  simp only [Instr.wf, Bool.and_eq_true] at h
  simp [Instr.operands, h.1, h.2]

theorem OperandsWf.add (dst : ILoc) (src : ISrc) : OperandsWf.Statement (.add dst src) := by
  intro h
  simp_all [Instr.wf, Instr.operands]

theorem OperandsWf.sub (dst : ILoc) (src : ISrc) : OperandsWf.Statement (.sub dst src) := by
  intro h
  simp_all [Instr.wf, Instr.operands]

theorem OperandsWf.addf (dst : ILoc) (src : FSrc) : OperandsWf.Statement (.addf dst src) := by
  intro h
  simp_all [Instr.wf, Instr.operands]

theorem OperandsWf.subf (dst : ILoc) (src : FSrc) : OperandsWf.Statement (.subf dst src) := by
  intro h
  simp_all [Instr.wf, Instr.operands]

theorem OperandsWf.mul (dst : ILoc) (src : ISrc) : OperandsWf.Statement (.mul dst src) := by
  intro h
  simp_all [Instr.wf, Instr.operands]

theorem OperandsWf.div (dst : ILoc) (src : ISrc) : OperandsWf.Statement (.div dst src) := by
  intro h
  simp_all [Instr.wf, Instr.operands]

theorem OperandsWf.divr (dst : ILoc) (src : ISrc) (rem : ILoc) : OperandsWf.Statement (.divr dst src rem) := by
  intro h
  simp_all [Instr.wf, Instr.operands]

theorem OperandsWf.sdiv (dst : ILoc) (src : ISrc) : OperandsWf.Statement (.sdiv dst src) := by
  intro h
  simp_all [Instr.wf, Instr.operands]

theorem OperandsWf.sdivr (dst : ILoc) (src : ISrc) (rem : ILoc) : OperandsWf.Statement (.sdivr dst src rem) := by
  intro h
  simp_all [Instr.wf, Instr.operands]

theorem OperandsWf.cp (op1 : ILoc) (op2 : ISrc) : OperandsWf.Statement (.cp op1 op2) := by
  intro h
  simp_all [Instr.wf, Instr.operands]

theorem OperandsWf.fcp (op1 : FLoc) (op2 : FSrc) : OperandsWf.Statement (.fcp op1 op2) := by
  intro h
  simp_all [Instr.wf, Instr.operands]

theorem OperandsWf.nand (dst : ILoc) (src : ISrc) : OperandsWf.Statement (.nand dst src) := by
  intro h
  simp_all [Instr.wf, Instr.operands]

theorem OperandsWf.xnor (dst : ILoc) (src : ISrc) : OperandsWf.Statement (.xnor dst src) := by
  intro h
  simp_all [Instr.wf, Instr.operands]

theorem OperandsWf.imply (dst : ILoc) (src : ISrc) : OperandsWf.Statement (.imply dst src) := by
  intro h
  simp_all [Instr.wf, Instr.operands]

theorem OperandsWf.push (w : Width) (i : Slot) : OperandsWf.Statement (.push w i) := by
  intro h
  simp_all [Instr.wf, Instr.operands]

theorem OperandsWf.pop (w : Width) (i : Slot) : OperandsWf.Statement (.pop w i) := by
  intro h
  simp_all [Instr.wf, Instr.operands]

theorem OperandsWf.pushr (s e : Slot) : OperandsWf.Statement (.pushr s e) := by
  intro h
  simp_all [Instr.wf, Instr.operands]

theorem OperandsWf.popr (s e : Slot) : OperandsWf.Statement (.popr s e) := by
  intro h
  simp_all [Instr.wf, Instr.operands]

theorem OperandsWf.pushf (k : FSlot) : OperandsWf.Statement (.pushf k) := by
  intro h
  simp_all [Instr.wf, Instr.operands]

theorem OperandsWf.popf (k : FSlot) : OperandsWf.Statement (.popf k) := by
  intro h
  simp_all [Instr.wf, Instr.operands]

theorem OperandsWf.pushfr (s e : FSlot) : OperandsWf.Statement (.pushfr s e) := by
  intro h
  simp_all [Instr.wf, Instr.operands]

theorem OperandsWf.popfr (s e : FSlot) : OperandsWf.Statement (.popfr s e) := by
  intro h
  simp_all [Instr.wf, Instr.operands]

theorem OperandsWf.djnz (cell : Cell) (tgt : Target) : OperandsWf.Statement (.djnz cell tgt) := by
  intro h
  simp_all [Instr.wf, Instr.operands]

theorem OperandsWf.fdenom (ops : List Operand) : OperandsWf.Statement (.fdenom ops) := by
  intro h
  simpa [Instr.wf, Instr.operands] using h

theorem CandidateRow.ld (dst : ILoc) (src : ISrc) : CandidateRow.Statement (.ld dst src) := by
  intro h
  have hw : dst.width = src.width := by simp only [Instr.wf, Bool.and_eq_true, decide_eq_true_eq] at h; exact h.2
  cases dst <;> cases src <;> simp_all [Instr.op, Instr.operands, Config.candidate, ILoc.operand, ISrc.operand,
      Operand.spec, Config.OperandSpec.isILoc, Config.OperandSpec.isISrc, Config.OperandSpec.width?, ILoc.width,
          ISrc.width]

theorem CandidateRow.ldff (d s : FSlot) : CandidateRow.Statement (.ldff d s) := by
  intro _
  rfl

theorem CandidateRow.ldfi (d : FSlot) (p : FloatBits) : CandidateRow.Statement (.ldfi d p) := by
  intro _
  rfl

theorem CandidateRow.ldfm (d : FSlot) (m : MemRef) : CandidateRow.Statement (.ldfm d m) := by
  intro _
  rfl

theorem CandidateRow.stf (m : MemRef) (src : FRegOrImm) : CandidateRow.Statement (.stf m src) := by
  intro _
  cases src <;> rfl

theorem CandidateRow.ldfx (d : FSlot) (src : ISrc) : CandidateRow.Statement (.ldfx d src) := by
  intro _
  cases src <;> rfl

theorem CandidateRow.ldxf (dst : ILoc) (s : FSlot) : CandidateRow.Statement (.ldxf dst s) := by
  intro _
  cases dst <;> rfl

theorem CandidateRow.fill (m : MemRef) (pattern count : RegOrImm) : CandidateRow.Statement (.fill m pattern count) :=
    by
  intro _
  cases pattern <;> cases count <;> rfl

theorem CandidateRow.fills (m : MemRef) (pattern count : RegOrImm) (wr : Width) (rep : Slot) :
    CandidateRow.Statement (.fills m pattern count wr rep) := by
  intro _
  cases pattern <;> cases count <;> rfl

theorem CandidateRow.add (dst : ILoc) (src : ISrc) : CandidateRow.Statement (.add dst src) := by
  intro _
  cases dst <;> cases src <;> rfl

theorem CandidateRow.sub (dst : ILoc) (src : ISrc) : CandidateRow.Statement (.sub dst src) := by
  intro _
  cases dst <;> cases src <;> rfl

theorem CandidateRow.addf (dst : ILoc) (src : FSrc) : CandidateRow.Statement (.addf dst src) := by
  intro _
  cases dst <;> cases src <;> rfl

theorem CandidateRow.subf (dst : ILoc) (src : FSrc) : CandidateRow.Statement (.subf dst src) := by
  intro _
  cases dst <;> cases src <;> rfl

theorem CandidateRow.mul (dst : ILoc) (src : ISrc) : CandidateRow.Statement (.mul dst src) := by
  intro _
  cases dst <;> cases src <;> rfl

theorem CandidateRow.div (dst : ILoc) (src : ISrc) : CandidateRow.Statement (.div dst src) := by
  intro _
  cases dst <;> cases src <;> rfl

theorem CandidateRow.divr (dst : ILoc) (src : ISrc) (rem : ILoc) : CandidateRow.Statement (.divr dst src rem) := by
  intro _
  cases dst <;> cases src <;> cases rem <;> rfl

theorem CandidateRow.sdiv (dst : ILoc) (src : ISrc) : CandidateRow.Statement (.sdiv dst src) := by
  intro _
  cases dst <;> cases src <;> rfl

theorem CandidateRow.sdivr (dst : ILoc) (src : ISrc) (rem : ILoc) : CandidateRow.Statement (.sdivr dst src rem) := by
  intro _
  cases dst <;> cases src <;> cases rem <;> rfl

theorem CandidateRow.cp (op1 : ILoc) (op2 : ISrc) : CandidateRow.Statement (.cp op1 op2) := by
  intro _
  cases op1 <;> cases op2 <;> rfl

theorem CandidateRow.fcp (op1 : FLoc) (op2 : FSrc) : CandidateRow.Statement (.fcp op1 op2) := by
  intro _
  cases op1 <;> cases op2 <;> rfl

theorem CandidateRow.nand (dst : ILoc) (src : ISrc) : CandidateRow.Statement (.nand dst src) := by
  intro _
  cases dst <;> cases src <;> rfl

theorem CandidateRow.xnor (dst : ILoc) (src : ISrc) : CandidateRow.Statement (.xnor dst src) := by
  intro _
  cases dst <;> cases src <;> rfl

theorem CandidateRow.imply (dst : ILoc) (src : ISrc) : CandidateRow.Statement (.imply dst src) := by
  intro _
  cases dst <;> cases src <;> rfl

theorem CandidateRow.push (w : Width) (i : Slot) : CandidateRow.Statement (.push w i) := by
  intro _
  rfl

theorem CandidateRow.pop (w : Width) (i : Slot) : CandidateRow.Statement (.pop w i) := by
  intro _
  rfl

theorem CandidateRow.pushr (s e : Slot) : CandidateRow.Statement (.pushr s e) := by
  intro _
  rfl

theorem CandidateRow.popr (s e : Slot) : CandidateRow.Statement (.popr s e) := by
  intro _
  rfl

theorem CandidateRow.pushf (k : FSlot) : CandidateRow.Statement (.pushf k) := by
  intro _
  rfl

theorem CandidateRow.popf (k : FSlot) : CandidateRow.Statement (.popf k) := by
  intro _
  rfl

theorem CandidateRow.pushfr (s e : FSlot) : CandidateRow.Statement (.pushfr s e) := by
  intro _
  rfl

theorem CandidateRow.popfr (s e : FSlot) : CandidateRow.Statement (.popfr s e) := by
  intro _
  rfl

theorem CandidateRow.djnz (cell : Cell) (tgt : Target) : CandidateRow.Statement (.djnz cell tgt) := by
  intro _
  cases cell <;> cases tgt <;> rfl

theorem CandidateRow.fdenom (ops : List Operand) : CandidateRow.Statement (.fdenom ops) := by
  intro _
  rfl

end Sys2Proof.Laws
end

