-- ==== Sys2Proof/Laws/Reads.lean ====
section
/-! SUPPORT. What each part of the decoder consumes: how many bytes, how many values of the mixed pair, and that the
bytes behind do not matter (30_encoding.md R106 to R116, R121). -/

namespace Sys2Proof

open Config Machine

variable {α β γ : Type}

/-- A part of the decoder that reads n bytes and k index fields, the latter from the pair first: what it answers rests
on those alone, and with that many bytes there it answers or meets an index that names no slot. -/
def Reads (f : Cursor → Except DecodeError (α × Cursor)) (n k : Nat) : Prop :=
  ∀ p bs,
    (∀ x c', f ⟨p, bs⟩ = .ok (x, c') → ∃ used, bs = used ++ c'.bytes ∧ used.length = n + (k - p.length) ∧
      c'.pair = p.drop k ∧ ∀ rest, f ⟨p, used ++ rest⟩ = .ok (x, ⟨p.drop k, rest⟩)) ∧
    (n + (k - p.length) ≤ bs.length → (∃ x c', f ⟨p, bs⟩ = .ok (x, c')) ∨ f ⟨p, bs⟩ = .error .badRegIndex)

/-- A part that passes on what another answers. -/
theorem Reads.map {f : Cursor → Except DecodeError (α × Cursor)} {n k : Nat} (hf : Reads f n k)
    {F : Cursor → Except DecodeError (β × Cursor)} (g : α → β)
    (he : ∀ c e, f c = .error e → F c = .error e) (ho : ∀ c x c', f c = .ok (x, c') → F c = .ok (g x, c')) :
    Reads F n k := by
  intro p bs
  obtain ⟨h₁, h₂⟩ := hf p bs
  refine ⟨fun y c' h => ?_, fun hb => ?_⟩
  · cases hx : f ⟨p, bs⟩ with
    | error e => rw [he _ _ hx] at h; cases h
    | ok r =>
      obtain ⟨x, c₁⟩ := r
      rw [ho _ _ _ hx] at h
      cases h
      obtain ⟨used, hu, hl, hp, hr⟩ := h₁ x _ hx
      exact ⟨used, hu, hl, hp, fun rest => ho _ _ _ (hr rest)⟩
  · rcases h₂ hb with ⟨x, c', hx⟩ | hx
    · exact .inl ⟨g x, c', ho _ _ _ hx⟩
    · exact .inr (he _ _ hx)

/-- A part that runs two parts one after the other. -/
theorem Reads.seq {f : Cursor → Except DecodeError (α × Cursor)} {g : Cursor → Except DecodeError (β × Cursor)}
    {n k n' k' : Nat} (hf : Reads f n k) (hg : Reads g n' k') {F : Cursor → Except DecodeError (γ × Cursor)}
    (h : α → β → γ) (he : ∀ c e, f c = .error e → F c = .error e)
    (he' : ∀ c x c' e, f c = .ok (x, c') → g c' = .error e → F c = .error e)
    (ho : ∀ c x c' y c'', f c = .ok (x, c') → g c' = .ok (y, c'') → F c = .ok (h x y, c'')) :
    Reads F (n + n') (k + k') := by
  intro p bs
  obtain ⟨h₁, h₂⟩ := hf p bs
  refine ⟨fun z c'' hz => ?_, fun hb => ?_⟩
  · cases hx : f ⟨p, bs⟩ with
    | error e => rw [he _ _ hx] at hz; cases hz
    | ok r =>
      obtain ⟨x, c'⟩ := r
      cases hy : g c' with
      | error e => rw [he' _ _ _ _ hx hy] at hz; cases hz
      | ok r' =>
        obtain ⟨y, c₂⟩ := r'
        rw [ho _ _ _ _ _ hx hy] at hz
        cases hz
        obtain ⟨used, hu, hl, hp, hr⟩ := h₁ x c' hx
        obtain ⟨p', bs'⟩ := c'
        obtain ⟨used', hu', hl', hp', hr'⟩ := (hg p' bs').1 y _ hy
        simp only at hp hu hu'
        subst hp
        refine ⟨used ++ used', by rw [hu, hu', List.append_assoc], ?_, ?_, fun rest => ?_⟩
        · simp only [List.length_append, List.length_drop] at hl hl' ⊢
          omega
        · rw [hp', List.drop_drop]
        · have := ho _ _ _ _ _ (hr (used' ++ rest)) (hr' rest)
          rwa [← List.append_assoc, List.drop_drop] at this
  · rcases h₂ (by omega) with ⟨x, c', hx⟩ | hx
    · obtain ⟨used, hu, hl, hp, hr⟩ := h₁ x c' hx
      obtain ⟨p', bs'⟩ := c'
      simp only at hp hu
      subst hp
      have hb' : n' + (k' - (p.drop k).length) ≤ bs'.length := by
        have := congrArg List.length hu
        simp only [List.length_append, List.length_drop] at this ⊢
        omega
      rcases (hg (p.drop k) bs').2 hb' with ⟨y, c'', hy⟩ | hy
      · exact .inl ⟨h x y, c'', ho _ _ _ _ _ hx hy⟩
      · exact .inr (he' _ _ _ _ hx hy)
    · exact .inr (he _ _ hx)

theorem Reads.nothing (x : α) : Reads (fun c => .ok (x, c)) 0 0 := by
  intro p bs
  exact ⟨fun y c' h => ⟨[], by cases h; simp, by simp, by cases h; simp, fun rest => by cases h; simp⟩,
    fun _ => .inl ⟨x, _, rfl⟩⟩

theorem Cursor.slot_reads : Reads Cursor.slot 0 1 := by
  intro p bs
  cases p with
  | cons v p =>
    refine ⟨fun x c' h => ⟨[], ?_⟩, fun _ => ?_⟩
    · simp only [Cursor.slot, Cursor.index] at h ⊢
      split at h <;> cases h
      rename_i hv
      simp [hv]
    · simp only [Cursor.slot, Cursor.index]
      split
      · exact .inl ⟨_, _, rfl⟩
      · exact .inr rfl
  | nil =>
    cases bs with
    | nil => exact ⟨fun x c' h => by simp [Cursor.slot, Cursor.index] at h, fun h => by simp at h⟩
    | cons b bs =>
      refine ⟨fun x c' h => ⟨[b], ?_⟩, fun _ => ?_⟩
      · simp only [Cursor.slot, Cursor.index] at h ⊢
        split at h <;> cases h
        rename_i hv
        simp only [List.cons_append, List.nil_append, hv]
        simp
      · simp only [Cursor.slot, Cursor.index]
        split
        · exact .inl ⟨_, _, rfl⟩
        · exact .inr rfl

theorem Cursor.fslot_reads : Reads Cursor.fslot 0 1 := by
  intro p bs
  cases p with
  | cons v p =>
    refine ⟨fun x c' h => ⟨[], ?_⟩, fun _ => .inl ⟨_, _, rfl⟩⟩
    simp only [Cursor.fslot, Cursor.index] at h ⊢
    cases h
    simp
  | nil =>
    cases bs with
    | nil => exact ⟨fun x c' h => by simp [Cursor.fslot, Cursor.index] at h, fun h => by simp at h⟩
    | cons b bs =>
      refine ⟨fun x c' h => ⟨[b], ?_⟩, fun _ => .inl ⟨_, _, rfl⟩⟩
      simp only [Cursor.fslot, Cursor.index] at h ⊢
      cases h
      simp

theorem Cursor.fetch_reads (n : Nat) : Reads (Cursor.fetch · n) n 0 := by
  intro p bs
  refine ⟨fun x c' h => ?_, fun h => .inl ?_⟩
  · simp only [Cursor.fetch] at h
    split at h
    · rename_i hn
      cases h
      refine ⟨bs.take n, by simp, by simp [hn], by simp, fun rest => ?_⟩
      simp [Cursor.fetch, hn]
    · cases h
  · exact ⟨_, _, by simp only [Cursor.fetch]; rw [if_pos (by omega)]⟩

/-- The bytes of a base field that are no index field. -/
def baseRaw : BaseSpec → Nat
  | .abs => 3
  | .ind => 0

/-- The index fields of a base. -/
def baseIndex : BaseSpec → Nat
  | .abs => 0
  | .ind => 1

/-- The index fields of a displacement. -/
def dispIndex : DispSpec → Nat
  | .noDisp => 0
  | .disp _ => 1

theorem decodeBase_reads (b : BaseSpec) : Reads (decodeBase b) (baseRaw b) (baseIndex b) := by
  cases b with
  | abs =>
    exact Reads.map (Cursor.fetch_reads 3) (fun a => Base.abs (BitVec.ofNat 24 a))
        (fun c e h => by simp [decodeBase, h])
      fun c x c' h => by simp [decodeBase, h]
  | ind =>
    exact Reads.map Cursor.slot_reads Base.ind (fun c e h => by simp [decodeBase, h])
      fun c x c' h => by simp [decodeBase, h]

theorem decodeDisp_reads (x : DispSpec) : Reads (decodeDisp x) 0 (dispIndex x) := by
  cases x with
  | noDisp => exact Reads.nothing Disp.noDisp
  | disp wd =>
    exact Reads.map Cursor.slot_reads (Disp.disp wd) (fun c e h => by simp [decodeDisp, h])
      fun c x c' h => by simp [decodeDisp, h]

theorem decodeMemRef_reads (b : BaseSpec) (x : DispSpec) :
    Reads (decodeMemRef b x) (baseRaw b) (baseIndex b + dispIndex x) :=
  Reads.seq (decodeBase_reads b) (decodeDisp_reads x) MemRef.mk (fun c e h => by simp [decodeMemRef, h])
    (fun c x c' e h h' => by simp [decodeMemRef, h, h']) fun c x c' y c'' h h' => by simp [decodeMemRef, h, h']

/-- An operand reads the bytes and the index fields its shape implies. -/
theorem decodeOperand_reads (o : OperandSpec) : Reads (decodeOperand o) (rawBytes o) o.indexFields := by
  cases o with
  | reg w =>
    exact Reads.map Cursor.slot_reads (Operand.reg w) (fun c e h => by simp [decodeOperand, h])
      fun c x c' h => by simp [decodeOperand, h]
  | imm w =>
    exact Reads.map (Cursor.fetch_reads w.bytes) (fun v => Operand.imm w (BitVec.ofNat 32 v))
        (fun c e h => by simp [decodeOperand, h])
      fun c x c' h => by simp [decodeOperand, h]
  | mem w b x =>
    have := Reads.map (decodeMemRef_reads b x) (F := decodeOperand (.mem w b x)) (Operand.mem w)
        (fun c e h => by simp [decodeOperand, h])
      fun c x c' h => by simp [decodeOperand, h]
    cases b <;> cases x <;> exact this
  | addr b x =>
    have := Reads.map (decodeMemRef_reads b x) (F := decodeOperand (.addr b x)) Operand.addr
        (fun c e h => by simp [decodeOperand, h])
      fun c x c' h => by simp [decodeOperand, h]
    cases b <;> cases x <;> exact this
  | freg =>
    exact Reads.map Cursor.fslot_reads Operand.freg (fun c e h => by simp [decodeOperand, h])
      fun c x c' h => by simp [decodeOperand, h]
  | fimm =>
    exact Reads.map (Cursor.fetch_reads 4) (fun v => Operand.fimm (BitVec.ofNat 32 v))
        (fun c e h => by simp [decodeOperand, h])
      fun c x c' h => by simp [decodeOperand, h]
  | fmem b x =>
    have := Reads.map (decodeMemRef_reads b x) (F := decodeOperand (.fmem b x)) Operand.fmem
        (fun c e h => by simp [decodeOperand, h])
      fun c x c' h => by simp [decodeOperand, h]
    cases b <;> cases x <;> exact this
  | ridx =>
    exact Reads.map Cursor.slot_reads Operand.ridx (fun c e h => by simp [decodeOperand, h])
      fun c x c' h => by simp [decodeOperand, h]
  | fidx =>
    exact Reads.map Cursor.fslot_reads Operand.fidx (fun c e h => by simp [decodeOperand, h])
      fun c x c' h => by simp [decodeOperand, h]
  | tgt t =>
    cases t with
    | tAbs =>
      exact Reads.map (Cursor.fetch_reads 3) (fun a => Operand.tgt (.abs (BitVec.ofNat 24 a)))
          (fun c e h => by simp [decodeOperand, h])
        fun c x c' h => by simp [decodeOperand, h]
    | tReg =>
      exact Reads.map Cursor.slot_reads (fun i => Operand.tgt (.reg i)) (fun c e h => by simp [decodeOperand, h])
        fun c x c' h => by simp [decodeOperand, h]

theorem decodeOperands_reads (os : List OperandSpec) :
    Reads (decodeOperands os) (os.map rawBytes).sum (os.map OperandSpec.indexFields).sum := by
  induction os with
  | nil => exact Reads.nothing []
  | cons o os ih =>
    exact Reads.seq (decodeOperand_reads o) ih List.cons (fun c e h => by simp [decodeOperands, h])
      (fun c x c' e h h' => by simp [decodeOperands, h, h']) fun c x c' y c'' h h' => by simp [decodeOperands, h, h']

/-! ### The shapes of decoded operands -/

theorem decodeBase_spec {b : BaseSpec} {c c' : Cursor} {x : Base} (h : decodeBase b c = .ok (x, c')) : x.spec = b :=
    by
  cases b <;> simp only [decodeBase] at h <;> split at h <;> cases h <;> rfl

theorem decodeDisp_spec {b : DispSpec} {c c' : Cursor} {x : Disp} (h : decodeDisp b c = .ok (x, c')) : x.spec = b :=
    by
  cases b with
  | noDisp => cases h; rfl
  | disp wd => simp only [decodeDisp] at h; split at h <;> cases h; rfl

theorem decodeMemRef_spec {b : BaseSpec} {d : DispSpec} {c c' : Cursor} {m : MemRef}
    (h : decodeMemRef b d c = .ok (m, c')) : m.base.spec = b ∧ m.disp.spec = d := by
  simp only [decodeMemRef] at h
  split at h
  · cases h
  · rename_i hb
    split at h
    · cases h
    · rename_i hd
      cases h
      exact ⟨decodeBase_spec hb, decodeDisp_spec hd⟩

/-- A decoded operand has the shape its descriptor asked for, and its immediate fits. -/
theorem decodeOperand_spec {o : OperandSpec} {c c' : Cursor} {x : Operand} (h : decodeOperand o c = .ok (x, c')) :
    x.spec = o ∧ x.wf = true := by
  cases o with
  | imm w =>
    simp only [decodeOperand] at h
    split at h <;> cases h
    rename_i v hv
    refine ⟨rfl, ?_⟩
    simp only [Cursor.fetch] at hv
    split at hv <;> cases hv
    rename_i hn
    have hlt := beValue_lt (c.bytes.take w.bytes)
    rw [List.length_take, Nat.min_eq_left hn, ← Width.two_pow_bits] at hlt
    have h32 := w.two_pow_bits_le
    simp only [Operand.wf, immFits, decide_eq_true_eq, BitVec.toNat_ofNat]
    rw [Nat.mod_eq_of_lt (by omega)]
    exact hlt
  | mem w b d =>
    simp only [decodeOperand] at h
    split at h <;> cases h
    rename_i hm
    obtain ⟨hb, hd⟩ := decodeMemRef_spec hm
    exact ⟨by simp only [Operand.spec, hb, hd], rfl⟩
  | addr b d =>
    simp only [decodeOperand] at h
    split at h <;> cases h
    rename_i hm
    obtain ⟨hb, hd⟩ := decodeMemRef_spec hm
    exact ⟨by simp only [Operand.spec, hb, hd], rfl⟩
  | fmem b d =>
    simp only [decodeOperand] at h
    split at h <;> cases h
    rename_i hm
    obtain ⟨hb, hd⟩ := decodeMemRef_spec hm
    exact ⟨by simp only [Operand.spec, hb, hd], rfl⟩
  | reg w => simp only [decodeOperand] at h; split at h <;> cases h; exact ⟨rfl, rfl⟩
  | freg => simp only [decodeOperand] at h; split at h <;> cases h; exact ⟨rfl, rfl⟩
  | fimm => simp only [decodeOperand] at h; split at h <;> cases h; exact ⟨rfl, rfl⟩
  | ridx => simp only [decodeOperand] at h; split at h <;> cases h; exact ⟨rfl, rfl⟩
  | fidx => simp only [decodeOperand] at h; split at h <;> cases h; exact ⟨rfl, rfl⟩
  | tgt t => cases t <;> simp only [decodeOperand] at h <;> split at h <;> cases h <;> exact ⟨rfl, rfl⟩

theorem decodeOperands_spec {os : List OperandSpec} {c c' : Cursor} {xs : List Operand}
    (h : decodeOperands os c = .ok (xs, c')) : xs.map Operand.spec = os ∧ ∀ x ∈ xs, x.wf = true := by
  induction os generalizing c c' xs with
  | nil => cases h; simp
  | cons o os ih =>
    simp only [decodeOperands] at h
    split at h
    · cases h
    · rename_i ho
      split at h
      · cases h
      · rename_i hos
        cases h
        obtain ⟨h₁, h₂⟩ := decodeOperand_spec ho
        obtain ⟨h₃, h₄⟩ := ih hos
        exact ⟨by simp [h₁, h₃], by simp [h₂]; exact h₄⟩

end Sys2Proof
end

