-- ==== Sys2Proof/Laws/Encoding.lean ====
section
/-! SUPPORT. Whole operand lists and encodings: supplying and counting fields, the mixed pair, and when operands make
an instruction. -/

namespace Sys2Proof

open Config Machine

/-- Operands whose fields are supplied are decoded as themselves. -/
theorem decodeOperands_supplied {os : List Operand} (hw : ∀ o ∈ os, o.wf = true) {c : Cursor} {rest : List Byte}
    (h : Supplies (os.flatMap Operand.fields) c.pair c.bytes rest) :
    ∃ c', decodeOperands (os.map Operand.spec) c = .ok (os, c') ∧ c'.bytes = rest := by
  induction os generalizing c with
  | nil => exact ⟨c, rfl, h⟩
  | cons o os ih =>
    rw [List.flatMap_cons] at h
    obtain ⟨c₁, h₁, s₁⟩ := decodeOperand_supplied (hw o (by simp)) h
    obtain ⟨c₂, h₂, s₂⟩ := ih (fun o ho => hw o (by simp [ho])) s₁
    exact ⟨c₂, by simp [decodeOperands, h₁, h₂], s₂⟩

/-- The two indices of a mixed pair, read back from `last` and the pair byte (30_encoding.md R108). -/
theorem carries_pair {last : Byte} {f₁ f₂ : Field} {i₁ i₂ : BitVec 5} (h₁ : f₁.index? = some i₁) (h₂ :
    f₂.index? = some i₂)
    (hl : lastCarries last f₁ = true) :
    ∃ v₁ v₂, mixedPair last (BitVec.ofNat 8 (i₁.toNat % 8 * 32 + i₂.toNat)) = [v₁, v₂] ∧ Carries v₁ f₁ ∧
        Carries v₂ f₂ := by
  refine ⟨_, _, rfl, ?_, ?_⟩
  · have e : ∀ x : BitVec 2, ∀ y : BitVec 3, ((x.setWidth 5 <<< 3) ||| y.setWidth 5).toNat = 8 * x.toNat + y.toNat :=
        by decide
    have hx := e (last.setWidth 2) (i₁.setWidth 3)
    have e0 : (0x1F#5) = BitVec.allOnes 5 := rfl
    have hlast := last.isLt
    have hi₁ := i₁.isLt
    have hi₂ := i₂.isLt
    have e1 : ((last.setWidth 2).setWidth 5 <<< 3) = (last.setWidth 5 <<< 3) := by
      apply BitVec.eq_of_toNat_eq
      simp [BitVec.toNat_shiftLeft, Nat.shiftLeft_eq]; omega
    have e2 : (i₁.setWidth 3).setWidth 5 = ((BitVec.ofNat 8 (i₁.toNat % 8 * 32 + i₂.toNat)) >>> 5).setWidth 5 := by
      apply BitVec.eq_of_toNat_eq
      simp [Nat.shiftRight_eq_div_pow]; omega
    rw [e1, e2] at hx
    rw [e0, BitVec.and_allOnes]
    have hx' : (last.setWidth 5 <<< 3 ||| ((BitVec.ofNat 8 (i₁.toNat % 8 * 32 + i₂.toNat)) >>> 5).setWidth 5).toNat =
        8 * (last.toNat % 4) + i₁.toNat % 8 := by
      rw [hx]; simp
    cases f₁ with
    | idx i =>
      simp only [Field.index?, Option.some.injEq] at h₁
      simp only [lastCarries, decide_eq_true_eq] at hl
      simp only [Carries]
      rw [hx', hl, ← h₁]
      have := i.isLt
      simp; omega
    | fidx i =>
      simp only [Field.index?, Option.some.injEq] at h₁
      simp only [lastCarries, decide_eq_true_eq] at hl
      simp only [Carries]
      rw [hx', ← h₁]
      have := i.isLt
      simp only [BitVec.toNat_ofNat]; omega
    | raw b => cases h₁
  · have hi₂ := i₂.isLt
    cases f₂ with
    | idx i =>
      simp only [Field.index?, Option.some.injEq] at h₂
      simp only [Carries]; subst h₂
      have := i.isLt
      simp; omega
    | fidx i =>
      simp only [Field.index?, Option.some.injEq] at h₂
      simp only [Carries]; subst h₂
      have := i.isLt
      simp
    | raw b => cases h₂

/-- What an encoding is: one or two opcode bytes and a body. -/
theorem encode_some {m : OpMap} {i : Instr} {bs : List Byte} (h : encode m i = some bs) :
    (∃ p d b, l1 m p = .direct d ∧ encodeUnder d p i = some b ∧ bs = p :: b) ∨
    ∃ p t s d b, l1 m p = .sub t ∧ l2 t s = some d ∧ encodeUnder d s i = some b ∧ bs = p :: s :: b := by
  obtain ⟨p, _, hp⟩ := List.exists_of_findSome?_eq_some h
  unfold encodeAt at hp
  split at hp
  · cases hp
  · cases hp
  · rename_i d hd
    rw [Option.map_eq_some_iff] at hp
    obtain ⟨b, hb, rfl⟩ := hp
    exact .inl ⟨p, d, b, hd, hb, rfl⟩
  · rename_i t ht
    obtain ⟨s, _, hs⟩ := List.exists_of_findSome?_eq_some hp
    split at hs
    · cases hs
    · rename_i d hd
      rw [Option.map_eq_some_iff] at hs
      obtain ⟨b, hb, rfl⟩ := hs
      exact .inr ⟨p, t, s, d, b, ht, hd, hb, rfl⟩

/-- The raw bytes of a field list. -/
def rawLen (fs : List Field) : Nat := (fs.map fun | .raw b => b.length | _ => 0).sum

/-- The index fields of a field list. -/
def idxCount (fs : List Field) : Nat := (fs.map fun | .raw _ => 0 | _ => 1).sum

theorem fieldBytes_length (fs : List Field) : (fs.flatMap Field.bytes).length = rawLen fs + idxCount fs := by
  induction fs with
  | nil => rfl
  | cons f fs ih => cases f <;> simp [rawLen, idxCount, Field.bytes] at * <;> omega

theorem takeIndexField_counts {fs fs' : List Field} {f : Field} (h : takeIndexField fs = some (f, fs')) :
    rawLen fs = rawLen fs' ∧ idxCount fs = idxCount fs' + 1 := by
  induction fs generalizing fs' with
  | nil => cases h
  | cons g fs ih =>
    cases g with
    | idx i => cases h; simp [rawLen, idxCount]; omega
    | fidx k => cases h; simp [rawLen, idxCount]; omega
    | raw b =>
      simp only [takeIndexField] at h
      split at h
      · cases h
      · rename_i f' fs'' heq
        cases h
        have := ih heq
        simp [rawLen, idxCount] at *
        omega

theorem fields_counts (o : Operand) : rawLen o.fields = rawBytes o.spec ∧ idxCount o.fields = o.spec.indexFields := by
  have key : ∀ m : MemRef, ∀ w : Width,
      (rawLen m.fields = rawBytes (.mem w m.base.spec m.disp.spec) ∧
        idxCount m.fields = (OperandSpec.mem w m.base.spec m.disp.spec).indexFields) ∧
      (rawLen m.fields = rawBytes (.addr m.base.spec m.disp.spec) ∧
        idxCount m.fields = (OperandSpec.addr m.base.spec m.disp.spec).indexFields) ∧
      (rawLen m.fields = rawBytes (.fmem m.base.spec m.disp.spec) ∧
        idxCount m.fields = (OperandSpec.fmem m.base.spec m.disp.spec).indexFields) := by
    rintro ⟨b, d⟩ w
    cases b <;> cases d <;> exact ⟨⟨rfl, rfl⟩, ⟨rfl, rfl⟩, rfl, rfl⟩
  cases o with
  | mem w m => exact (key m w).1
  | addr m => exact (key m .w8).2.1
  | fmem m => exact (key m .w8).2.2
  | tgt t => cases t <;> exact ⟨rfl, rfl⟩
  | imm w v => exact ⟨by simp [rawLen, Operand.fields, Operand.spec, rawBytes], rfl⟩
  | fimm p => exact ⟨by simp [rawLen, Operand.fields, Operand.spec, rawBytes], rfl⟩
  | _ => exact ⟨rfl, rfl⟩

theorem operandFields_counts (os : List Operand) : rawLen (os.flatMap Operand.fields) =
    ((os.map Operand.spec).map rawBytes).sum ∧ 
    idxCount (os.flatMap Operand.fields) = ((os.map Operand.spec).map OperandSpec.indexFields).sum := by
  have a1 : ∀ x y, rawLen (x ++ y) = rawLen x + rawLen y := by intro x y; simp [rawLen]
  have a2 : ∀ x y, idxCount (x ++ y) = idxCount x + idxCount y := by intro x y; simp [idxCount]
  induction os with
  | nil => exact ⟨rfl, rfl⟩
  | cons o os ih =>
    simp only [List.flatMap_cons, a1, a2, ih, fields_counts, List.map_cons, List.sum_cons, and_self]

/-- An encoding is as long as the descriptor says (30_encoding.md R129, R130). -/
theorem encodeUnder_length {d : Descriptor} {last : Byte} {i : Instr} {b : List Byte} (h :
    encodeUnder d last i = some b) :
    b.length = bodyLength d := by
  unfold encodeUnder at h
  split at h
  case isFalse => cases h
  rename_i hd
  obtain ⟨hop, hos⟩ := hd
  have hlen := operandFields_counts i.operands
  rw [← hos] at hlen
  unfold encodeBody at h
  unfold bodyLength Descriptor.indexFields
  cases hm : d.mixed with
  | false =>
    rw [hm] at h
    simp only [Bool.false_eq_true, if_false, Option.some.injEq] at h ⊢
    subst h; rw [fieldBytes_length]; omega
  | true =>
    rw [hm] at h
    simp only [if_true] at h ⊢
    split at h
    · cases h
    rename_i f₁ fs₁ hf₁
    split at h
    · cases h
    rename_i f₂ fs₂ hf₂
    split at h
    case _ =>
      split at h
      case isFalse => cases h
      simp only [Option.some.injEq] at h
      subst h
      have h1 := takeIndexField_counts hf₁
      have h2 := takeIndexField_counts hf₂
      simp only [List.length_cons, fieldBytes_length]
      omega
    · cases h

theorem lookup_mem_list {α β} [BEq α] [LawfulBEq α] {l : List (α × β)} {a : α} {b : β} (h : l.lookup a = some b) :
    (a, b) ∈ l := by
  induction l with
  | nil => cases h
  | cons x l ih =>
    obtain ⟨k, v⟩ := x
    rw [List.lookup_cons] at h
    split at h
    · rename_i hk; simp at hk; cases h; simp [hk]
    · simp [ih h]

theorem isrc_wf {o x} (h : Operand.isrc? o = some x) (hw : o.wf = true) : x.wf = true := by
  cases o <;> cases h <;> exact hw

theorem roi_wf {o x} (h : Operand.regOrImm? o = some x) (hw : o.wf = true) : x.wf = true := by
  cases o <;> cases h <;> exact hw

theorem pairOp_some_iff {α β} {f : α → β → Instr} {a b i} (h : pairOp f a b = some i) :
    ∃ x y, a = some x ∧ b = some y ∧ i = f x y := by
  unfold pairOp at h; split at h
  · cases h; exact ⟨_, _, rfl, rfl, rfl⟩
  · cases h

/-- An instruction made of well-formed operands is well-formed. -/
theorem assemble_wf {op os i} (h : assemble op os = some i) (hw : ∀ o ∈ os, o.wf = true) : i.wf = true := by
  unfold assemble at h
  split at h
  case h_1 =>
    split at h
    · rename_i hs
      split at h
      · cases h
        rename_i hww
        simp [Instr.wf, hww, isrc_wf hs (hw _ (by simp))]
      · cases h
    · cases h
  case h_7 =>
    rw [Option.map_eq_some_iff] at h
    obtain ⟨x, hx, rfl⟩ := h
    simp [Instr.wf, isrc_wf hx (hw _ (by simp))]
  case h_9 => 
    obtain ⟨x, y, hx, hy, rfl⟩ := pairOp_some_iff h
    simp [Instr.wf, roi_wf hx (hw _ (by simp)), roi_wf hy (hw _ (by simp))]
  case h_10 => 
    obtain ⟨x, y, hx, hy, rfl⟩ := pairOp_some_iff h
    simp [Instr.wf, roi_wf hx (hw _ (by simp)), roi_wf hy (hw _ (by simp))]
  all_goals first
    | (cases h; done)
    | (cases h; rfl)
    | (obtain ⟨x, y, hx, hy, rfl⟩ := pairOp_some_iff h; first | rfl | simp [Instr.wf, isrc_wf hy (hw _ (by simp))])
    | (rw [Option.map_eq_some_iff] at h; obtain ⟨x, hx, rfl⟩ := h; rfl)
    | (rw [Option.bind_eq_some_iff] at h; obtain ⟨r, hr, h⟩ := h; obtain ⟨x, y, hx, hy, rfl⟩ :=
          pairOp_some_iff h; simp [Instr.wf, isrc_wf hy (hw _ (by simp))])
    | (cases h; simpa [Instr.wf, List.all_eq_true] using hw)

/-- What a successful decode of the operand bytes says. -/
theorem decodeBody_inv {d last bs i rest} (h : decodeBody d last bs = .ok (i, rest)) :
   (d.mixed = true → ∃ cm bs', bs = cm :: bs') ∧ ∃ c ops c',
       (if d.mixed then ∃ cm bs', bs = cm :: bs' ∧ c = ⟨mixedPair last cm, bs'⟩ else c = ⟨[], bs⟩) ∧
    decodeOperands d.operands c = .ok (ops, c') ∧ assemble d.op ops = some i ∧ rest = c'.bytes := by
  unfold decodeBody at h
  cases hm : d.mixed
  · rw [hm] at h
    simp only [Bool.false_eq_true, if_false] at h
    split at h
    · cases h
    · rename_i ops c' hc
      split at h
      · rename_i ha
        cases h
        exact ⟨by simp, _, _, _, by simp, hc, ha, rfl⟩
      · cases h
  · rw [hm] at h
    cases bs with
    | nil => simp at h
    | cons cm bs' =>
      simp only [if_true] at h
      split at h
      · cases h
      · rename_i ops c' hc
        split at h
        · rename_i ha
          cases h
          exact ⟨fun _ => ⟨_, _, rfl⟩, _, _, _, by simp, hc, ha, rfl⟩
        · cases h

theorem l1_wf {m : OpMap} (h : wfOpMap m = true) (p : Byte) : (l1 m p).wf = true := by
  unfold l1
  cases hl : m.lookup p with
  | none => rfl
  | some e =>
    have := lookup_mem_list hl
    unfold wfOpMap at h; rw [List.all_eq_true] at h
    exact h _ this

theorem l2_wf {t} (h : (L1Entry.sub t).wf = true) {s d} (hd : l2 t s = some d) : d.wf = true := by
  simp only [L1Entry.wf, List.all_eq_true] at h
  exact h _ (lookup_mem_list hd)

theorem iloc_some {o : Operand} (h : o.spec.isILoc = true) : ∃ x, o.iloc? = some x ∧ x.operand = o := by
  cases o with
  | tgt t => cases t <;> cases h
  | _ => first | (cases h; done) | exact ⟨_, rfl, rfl⟩

theorem isrc_some {o : Operand} (h : o.spec.isISrc = true) : ∃ x, o.isrc? = some x ∧ x.operand = o := by
  cases o with
  | tgt t => cases t <;> cases h
  | _ => first | (cases h; done) | exact ⟨_, rfl, rfl⟩

theorem roi_some {o : Operand} (h : o.spec.isRegOrImm = true) : ∃ x, o.regOrImm? = some x ∧ x.operand = o := by
  cases o with
  | tgt t => cases t <;> cases h
  | _ => first | (cases h; done) | exact ⟨_, rfl, rfl⟩

theorem floc_some {o : Operand} (h : o.spec.isFLoc = true) : ∃ x, o.floc? = some x ∧ x.operand = o := by
  cases o with
  | tgt t => cases t <;> cases h
  | _ => first | (cases h; done) | exact ⟨_, rfl, rfl⟩

theorem fsrc_some {o : Operand} (h : o.spec.isFSrc = true) : ∃ x, o.fsrc? = some x ∧ x.operand = o := by
  cases o with
  | tgt t => cases t <;> cases h
  | _ => first | (cases h; done) | exact ⟨_, rfl, rfl⟩

theorem cell_some {o : Operand} (h : o.spec.isCell = true) : ∃ x, o.cell? = some x ∧ x.operand = o := by
  cases o with
  | tgt t => cases t <;> cases h
  | mem w m => 
    obtain ⟨b, d⟩ := m
    cases d
    · cases b <;> exact ⟨_, rfl, rfl⟩
    · cases h
  | _ => first | (cases h; done) | exact ⟨_, rfl, rfl⟩

/-- Operands of a candidate row make an instruction (30_encoding.md R122). -/
theorem assemble_candidate {op : OpTag} {os : List Operand} (h : candidate op (os.map Operand.spec) = true) :
    ∃ i, assemble op os = some i := by
  have tgtS : ∀ o : Operand, ∀ t, o.spec = .tgt t → ∃ g, o = .tgt g := by
    intro o t h; cases o <;> first | exact ⟨_, rfl⟩ | cases h
  have fregS : ∀ o : Operand, o.spec = .freg → ∃ g, o = .freg g := by
    intro o h; cases o with | tgt t => cases t <;> cases h | _ => first | exact ⟨_, rfl⟩ | cases h
  have fimmS : ∀ o : Operand, o.spec = .fimm → ∃ g, o = .fimm g := by
    intro o h; cases o with | tgt t => cases t <;> cases h | _ => first | exact ⟨_, rfl⟩ | cases h
  have ridxS : ∀ o : Operand, o.spec = .ridx → ∃ g, o = .ridx g := by
    intro o h; cases o with | tgt t => cases t <;> cases h | _ => first | exact ⟨_, rfl⟩ | cases h
  have fidxS : ∀ o : Operand, o.spec = .fidx → ∃ g, o = .fidx g := by
    intro o h; cases o with | tgt t => cases t <;> cases h | _ => first | exact ⟨_, rfl⟩ | cases h
  have fmemS : ∀ o : Operand, ∀ b x, o.spec = .fmem b x → ∃ g, o = .fmem g := by
    intro o b x h; cases o with | tgt t => cases t <;> cases h | _ => first | exact ⟨_, rfl⟩ | cases h
  have addrS : ∀ o : Operand, ∀ b x, o.spec = .addr b x → ∃ g, o = .addr g := by
    intro o b x h; cases o with | tgt t => cases t <;> cases h | _ => first | exact ⟨_, rfl⟩ | cases h
  have regS : ∀ o : Operand, ∀ w, o.spec = .reg w → ∃ g, o = .reg w g := by
    intro o w h; cases o with | tgt t => cases t <;> cases h | _ => first | (cases h; exact ⟨_, rfl⟩) | cases h
  have width : ∀ x : ILoc, ∀ y : ISrc, x.operand.spec.width? = y.operand.spec.width? → x.width = y.width := by
    intro x y; cases x <;> cases y <;> (intro h; simpa [ILoc.operand, ISrc.operand, Operand.spec, OperandSpec.width?,
        ILoc.width, ISrc.width] using h)
  have two : ∀ {a b : OperandSpec}, os.map Operand.spec = [a, b] → ∃ x y, os = [x, y] ∧ x.spec = a ∧ y.spec = b := by
    intro a b hs
    match os with
    | [] => cases hs
    | [_] => cases hs
    | [x, y] => simp at hs; exact ⟨x, y, rfl, hs.1, hs.2⟩
    | _ :: _ :: _ :: _ => simp at hs
  have one : ∀ {a : OperandSpec}, os.map Operand.spec = [a] → ∃ x, os = [x] ∧ x.spec = a := by
    intro a hs
    match os with
    | [] => cases hs
    | [x] => simp at hs; exact ⟨x, rfl, hs⟩
    | _ :: _ :: _ => simp at hs
  have three : ∀ {a b c : OperandSpec}, os.map Operand.spec = [a, b, c] → ∃ x y z, os = [x, y, z] ∧ x.spec = a ∧
      y.spec = b ∧ z.spec = c := by
    intro a b c hs
    match os with
    | [] => cases hs
    | [_] => cases hs
    | [_, _] => cases hs
    | [x, y, z] => simp at hs; exact ⟨x, y, z, rfl, hs.1, hs.2.1, hs.2.2⟩
    | _ :: _ :: _ :: _ :: _ => simp at hs
  have four : ∀ {a b c d : OperandSpec}, os.map Operand.spec = [a, b, c, d] → ∃ x y z u, os = [x, y, z, u] ∧
      x.spec = a ∧ y.spec = b ∧ z.spec = c ∧ u.spec = d := by
    intro a b c d hs
    match os with
    | [] => cases hs
    | [_] => cases hs
    | [_, _] => cases hs
    | [_, _, _] => cases hs
    | [x, y, z, u] => simp at hs; exact ⟨x, y, z, u, rfl, hs.1, hs.2.1, hs.2.2.1, hs.2.2.2⟩
    | _ :: _ :: _ :: _ :: _ :: _ => simp at hs
  generalize hss : os.map Operand.spec = ss at h one two three four
  unfold candidate at h
  split at h
  case h_1 =>
    obtain ⟨a, b, rfl, rfl, rfl⟩ := two rfl
    simp only [Bool.and_eq_true, decide_eq_true_eq] at h
    obtain ⟨x, hx, hxo⟩ := iloc_some h.1.1
    obtain ⟨y, hy, hyo⟩ := isrc_some h.1.2
    have := width x y (by rw [hxo, hyo]; exact h.2)
    exact ⟨_, by simp only [assemble, hx, hy]; rw [if_pos this]⟩
  all_goals first
    | (cases h; done)
    | (obtain ⟨a, b, rfl, ha, hb⟩ := two rfl
       obtain ⟨x, rfl⟩ := fregS _ ha
       obtain ⟨y, rfl⟩ := fregS _ hb
       exact ⟨_, rfl⟩)
    | (obtain ⟨a, b, rfl, ha, hb⟩ := two rfl
       obtain ⟨x, rfl⟩ := fregS _ ha
       obtain ⟨y, rfl⟩ := fimmS _ hb
       exact ⟨_, rfl⟩)
    | (obtain ⟨a, b, rfl, ha, hb⟩ := two rfl
       obtain ⟨x, rfl⟩ := fregS _ ha
       obtain ⟨y, rfl⟩ := fmemS _ _ _ hb
       exact ⟨_, rfl⟩)
    | (obtain ⟨a, b, rfl, ha, hb⟩ := two rfl
       obtain ⟨x, rfl⟩ := fmemS _ _ _ ha
       obtain ⟨y, rfl⟩ := fregS _ hb
       exact ⟨_, rfl⟩)
    | (obtain ⟨a, b, rfl, ha, hb⟩ := two rfl
       obtain ⟨x, rfl⟩ := fmemS _ _ _ ha
       obtain ⟨y, rfl⟩ := fimmS _ hb
       exact ⟨_, rfl⟩)
    | (obtain ⟨a, b, rfl, ha, hb⟩ := two rfl
       obtain ⟨x, rfl⟩ := fregS _ ha
       rw [← hb] at h
       obtain ⟨y, hy, _⟩ := isrc_some h
       exact ⟨_, by simp [assemble, hy]; rfl⟩)
    | (obtain ⟨a, b, rfl, ha, hb⟩ := two rfl
       obtain ⟨x, rfl⟩ := fregS _ hb
       rw [← ha] at h
       obtain ⟨y, hy, _⟩ := iloc_some h
       exact ⟨_, by simp [assemble, hy]; rfl⟩)
    | (obtain ⟨a, b, c, rfl, ha, hb, hc⟩ := three rfl
       simp only [Bool.and_eq_true] at h
       rw [← hb, ← hc] at h
       obtain ⟨x, rfl⟩ := addrS _ _ _ ha
       obtain ⟨y, hy, _⟩ := roi_some h.1
       obtain ⟨z, hz, _⟩ := roi_some h.2
       exact ⟨_, by simp [assemble, hy, hz]; rfl⟩)
    | (obtain ⟨a, b, c, d, rfl, ha, hb, hc, hd⟩ := four rfl
       simp only [Bool.and_eq_true] at h
       rw [← hb, ← hc] at h
       obtain ⟨x, rfl⟩ := addrS _ _ _ ha
       obtain ⟨u, rfl⟩ := regS _ _ hd
       obtain ⟨y, hy, _⟩ := roi_some h.1
       obtain ⟨z, hz, _⟩ := roi_some h.2
       exact ⟨_, by simp [assemble, hy, hz]; rfl⟩)
    | (obtain ⟨a, b, rfl, ha, hb⟩ := two rfl
       simp only [Bool.and_eq_true] at h
       rw [← ha, ← hb] at h
       obtain ⟨y, hy, _⟩ := iloc_some h.1
       obtain ⟨z, hz, _⟩ := isrc_some h.2
       exact ⟨_, by simp [assemble, hy, hz]; rfl⟩)
    | (obtain ⟨a, b, rfl, ha, hb⟩ := two rfl
       simp only [Bool.and_eq_true] at h
       rw [← ha, ← hb] at h
       obtain ⟨y, hy, _⟩ := iloc_some h.1
       obtain ⟨z, hz, _⟩ := fsrc_some h.2
       exact ⟨_, by simp [assemble, hy, hz]; rfl⟩)
    | (obtain ⟨a, b, rfl, ha, hb⟩ := two rfl
       simp only [Bool.and_eq_true] at h
       rw [← ha, ← hb] at h
       obtain ⟨y, hy, _⟩ := floc_some h.1
       obtain ⟨z, hz, _⟩ := fsrc_some h.2
       exact ⟨_, by simp [assemble, hy, hz]; rfl⟩)
    | (obtain ⟨a, b, c, rfl, ha, hb, hc⟩ := three rfl
       simp only [Bool.and_eq_true] at h
       rw [← ha, ← hb, ← hc] at h
       obtain ⟨x, hx, _⟩ := iloc_some h.1.1
       obtain ⟨y, hy, _⟩ := isrc_some h.1.2
       obtain ⟨z, hz, _⟩ := iloc_some h.2
       exact ⟨_, by simp [assemble, hx, hy, hz]; rfl⟩)
    | (obtain ⟨a, rfl, ha⟩ := one rfl
       obtain ⟨x, rfl⟩ := regS _ _ ha
       exact ⟨_, rfl⟩)
    | (obtain ⟨a, rfl, ha⟩ := one rfl
       obtain ⟨x, rfl⟩ := fregS _ ha
       exact ⟨_, rfl⟩)
    | (obtain ⟨a, b, rfl, ha, hb⟩ := two rfl
       obtain ⟨x, rfl⟩ := ridxS _ ha
       obtain ⟨y, rfl⟩ := ridxS _ hb
       exact ⟨_, rfl⟩)
    | (obtain ⟨a, b, rfl, ha, hb⟩ := two rfl
       obtain ⟨x, rfl⟩ := fidxS _ ha
       obtain ⟨y, rfl⟩ := fidxS _ hb
       exact ⟨_, rfl⟩)
    | (obtain ⟨a, b, rfl, ha, hb⟩ := two rfl
       rw [← ha] at h
       obtain ⟨y, hy, _⟩ := cell_some h
       obtain ⟨g, rfl⟩ := tgtS _ _ hb
       exact ⟨_, by simp [assemble, hy]; rfl⟩)
    | exact ⟨_, rfl⟩

end Sys2Proof
end

