-- ==== Sys2Proof/Laws/Ram.lean ====
section
/-! SUPPORT. RAM and the stack region: what a store of a byte list changes, what a read after it gives, and the
canonical form. -/

namespace Sys2Proof.Machine

/-! ### RAM -/

theorem addr_one : (1 : Addr).toNat = 1 := rfl

@[simp] theorem ramBytes_length (m : Memory) (a : Addr) (n : Nat) : (ramBytes m a n).length = n := by
  induction n generalizing a with
  | zero => rfl
  | succ n ih => simp [ramBytes, ih]

theorem ramStore_wf {m : Memory} (h : m.wf = true) (a : Addr) (bs : List Byte) : (ramStore m a bs).wf = true := by
  induction bs generalizing m a with
  | nil => exact h
  | cons b bs ih => exact ih (Memory.put_wf h _ _) _

theorem ramStore_keys {m : Memory} {a : Addr} {bs : List Byte} (h : ∀ e ∈ m, e.1 < 2 ^ 24) :
    ∀ e ∈ ramStore m a bs, e.1 < 2 ^ 24 := by
  induction bs generalizing m a with
  | nil => exact h
  | cons b bs ih =>
    refine ih fun e he => ?_
    rcases Memory.put_keys he with he | he
    · rw [he]; exact a.isLt
    · exact h e he

/-- A byte at no address of the stored list is left alone. -/
theorem ramStore_read_outside {m : Memory} (h : m.wf = true) {a x : Addr} {bs : List Byte}
    (hx : ∀ k < bs.length, x ≠ a + BitVec.ofNat 24 k) : (ramStore m a bs).read x.toNat = m.read x.toNat := by
  induction bs generalizing m a with
  | nil => rfl
  | cons b bs ih =>
    have h0 : x ≠ a := by simpa using hx 0 (by simp)
    have hne : x.toNat ≠ a.toNat := fun e => h0 (BitVec.eq_of_toNat_eq e)
    have hs : (ramStore (m.put a.toNat b) (a + 1) bs).read x.toNat = (m.put a.toNat b).read x.toNat := by
      refine ih (Memory.put_wf h _ _) fun k hk e => ?_
      refine hx (k + 1) (by simpa using hk) ?_
      rw [e]
      apply BitVec.eq_of_toNat_eq
      simp only [BitVec.toNat_add, BitVec.toNat_ofNat, addr_one]
      omega
    simp only [ramStore, hs, Memory.read_put h, hne, if_false]

/-- A store of at most 2^24 bytes, read back, gives those bytes. -/
theorem ramBytes_store {m : Memory} (h : m.wf = true) (a : Addr) {bs : List Byte} (hl : bs.length ≤ 2 ^ 24) :
    ramBytes (ramStore m a bs) a bs.length = bs := by
  induction bs generalizing m a with
  | nil => rfl
  | cons b bs ih =>
    have hl' : bs.length < 2 ^ 24 := by simpa using hl
    simp only [List.length_cons, ramBytes, ramStore]
    congr 1
    · rw [ramStore_read_outside (Memory.put_wf h _ _), Memory.read_put h, if_pos rfl]
      intro k hk e
      have := congrArg BitVec.toNat e
      simp only [BitVec.toNat_add, BitVec.toNat_ofNat, addr_one] at this
      have := a.isLt
      omega
    · exact ih (Memory.put_wf h _ _) (a + 1) (Nat.le_of_lt hl')

theorem memRead_lt (m : Memory) (a : Addr) (n : Nat) : memRead m a n < 256 ^ n := by
  have := beValue_lt (ramBytes m a n)
  simpa [memRead] using this

theorem memRead_write {m : Memory} (h : m.wf = true) (a : Addr) {n : Nat} (hn : n ≤ 2 ^ 24) (v : Nat) :
    memRead (memWrite m a n v) a n = v % 256 ^ n := by
  have := ramBytes_store h a (bs := beBytes n v) (by simpa using hn)
  rw [beBytes_length] at this
  simp only [memRead, memWrite, this, beValue_beBytes]

theorem memWrite_wf {m : Memory} (h : m.wf = true) (a : Addr) (n v : Nat) : (memWrite m a n v).wf = true :=
  ramStore_wf h _ _

theorem memWrite_keys {m : Memory} {a : Addr} {n v : Nat} (h : ∀ e ∈ m, e.1 < 2 ^ 24) :
    ∀ e ∈ memWrite m a n v, e.1 < 2 ^ 24 := ramStore_keys h

theorem memWrite_read_outside {m : Memory} (h : m.wf = true) {a x : Addr} {n : Nat} (v : Nat)
    (hx : ∀ k < n, x ≠ a + BitVec.ofNat 24 k) : (memWrite m a n v).read x.toNat = m.read x.toNat :=
  ramStore_read_outside h (by simpa using hx)

theorem fillCore_wf {m : Memory} (h : m.wf = true) (a : Addr) (p u n : Nat) : (fillCore m a p u n).wf = true := by
  induction n with
  | zero => exact h
  | succ n ih => exact memWrite_wf ih _ _ _

theorem fillCore_keys {m : Memory} {a : Addr} {p u n : Nat} (h : ∀ e ∈ m, e.1 < 2 ^ 24) :
    ∀ e ∈ fillCore m a p u n, e.1 < 2 ^ 24 := by
  induction n with
  | zero => exact h
  | succ n ih => exact memWrite_keys ih

theorem stampCore_wf {m : Memory} (h : m.wf = true) (a : Addr) (p u n d r : Nat) :
    (stampCore m a p u n d r).wf = true := by
  induction r with
  | zero => exact h
  | succ r ih => exact fillCore_wf ih _ _ _ _

theorem stampCore_keys {m : Memory} {a : Addr} {p u n d r : Nat} (h : ∀ e ∈ m, e.1 < 2 ^ 24) :
    ∀ e ∈ stampCore m a p u n d r, e.1 < 2 ^ 24 := by
  induction r with
  | zero => exact h
  | succ r ih => exact fillCore_keys ih

/-! ### The stack region -/

@[simp] theorem stkBytes_length (m : Memory) (i n : Nat) : (stkBytes m i n).length = n := by
  induction n generalizing i with
  | zero => rfl
  | succ n ih => simp [stkBytes, ih]

theorem stkStore_wf {m : Memory} (h : m.wf = true) (i : Nat) (bs : List Byte) : (stkStore m i bs).wf = true := by
  induction bs generalizing m i with
  | nil => exact h
  | cons b bs ih => exact ih (Memory.put_wf h _ _) _

theorem stkStore_keys {m : Memory} {i c : Nat} {bs : List Byte} (h : ∀ e ∈ m, e.1 < c) (hi : i + bs.length ≤ c) :
    ∀ e ∈ stkStore m i bs, e.1 < c := by
  induction bs generalizing m i with
  | nil => exact h
  | cons b bs ih =>
    simp only [List.length_cons] at hi
    refine ih (fun e he => ?_) (by omega)
    rcases Memory.put_keys he with he | he
    · omega
    · exact h e he

theorem stkStore_read_outside {m : Memory} (h : m.wf = true) {i x : Nat} {bs : List Byte}
    (hx : x < i ∨ i + bs.length ≤ x) : (stkStore m i bs).read x = m.read x := by
  induction bs generalizing m i with
  | nil => rfl
  | cons b bs ih =>
    simp only [List.length_cons] at hx
    simp only [stkStore]
    rw [ih (Memory.put_wf h _ _) (by omega), Memory.read_put h, if_neg (by omega)]

theorem stkBytes_store {m : Memory} (h : m.wf = true) (i : Nat) (bs : List Byte) :
    stkBytes (stkStore m i bs) i bs.length = bs := by
  induction bs generalizing m i with
  | nil => rfl
  | cons b bs ih =>
    simp only [List.length_cons, stkBytes, stkStore]
    rw [ih (Memory.put_wf h _ _), stkStore_read_outside (Memory.put_wf h _ _) (by omega), Memory.read_put h,
        if_pos rfl]

end Sys2Proof.Machine
end

