-- ==== Sys2Proof/Laws/State.lean ====
section
/-! SUPPORT. One lemma per field per update of the state, so that no later proof unfolds a record update. -/

namespace Sys2Proof.Machine.State

@[simp] theorem setRegs_regs (s : State) (r : Vector Byte 26) : (s.setRegs r).regs = r := rfl
@[simp] theorem setRegs_fregs (s : State) (r : Vector Byte 26) : (s.setRegs r).fregs = s.fregs := rfl
@[simp] theorem setRegs_flags (s : State) (r : Vector Byte 26) : (s.setRegs r).flags = s.flags := rfl
@[simp] theorem setRegs_ipo (s : State) (r : Vector Byte 26) : (s.setRegs r).ipo = s.ipo := rfl
@[simp] theorem setRegs_spr (s : State) (r : Vector Byte 26) : (s.setRegs r).spr = s.spr := rfl
@[simp] theorem setRegs_stack (s : State) (r : Vector Byte 26) : (s.setRegs r).stack = s.stack := rfl
@[simp] theorem setRegs_ram (s : State) (r : Vector Byte 26) : (s.setRegs r).ram = s.ram := rfl
@[simp] theorem setRegs_hmem (s : State) (r : Vector Byte 26) : (s.setRegs r).hmem = s.hmem := rfl
@[simp] theorem setRegs_events (s : State) (r : Vector Byte 26) : (s.setRegs r).events = s.events := rfl
@[simp] theorem setRegs_cfg (s : State) (r : Vector Byte 26) : (s.setRegs r).cfg = s.cfg := rfl

@[simp] theorem setFregs_regs (s : State) (r : Vector FloatBits 16) : (s.setFregs r).regs = s.regs := rfl
@[simp] theorem setFregs_fregs (s : State) (r : Vector FloatBits 16) : (s.setFregs r).fregs = r := rfl
@[simp] theorem setFregs_flags (s : State) (r : Vector FloatBits 16) : (s.setFregs r).flags = s.flags := rfl
@[simp] theorem setFregs_ipo (s : State) (r : Vector FloatBits 16) : (s.setFregs r).ipo = s.ipo := rfl
@[simp] theorem setFregs_spr (s : State) (r : Vector FloatBits 16) : (s.setFregs r).spr = s.spr := rfl
@[simp] theorem setFregs_stack (s : State) (r : Vector FloatBits 16) : (s.setFregs r).stack = s.stack := rfl
@[simp] theorem setFregs_ram (s : State) (r : Vector FloatBits 16) : (s.setFregs r).ram = s.ram := rfl
@[simp] theorem setFregs_hmem (s : State) (r : Vector FloatBits 16) : (s.setFregs r).hmem = s.hmem := rfl
@[simp] theorem setFregs_events (s : State) (r : Vector FloatBits 16) : (s.setFregs r).events = s.events := rfl
@[simp] theorem setFregs_cfg (s : State) (r : Vector FloatBits 16) : (s.setFregs r).cfg = s.cfg := rfl

@[simp] theorem setFlags_regs (s : State) (f : Flags) : (s.setFlags f).regs = s.regs := rfl
@[simp] theorem setFlags_fregs (s : State) (f : Flags) : (s.setFlags f).fregs = s.fregs := rfl
@[simp] theorem setFlags_flags (s : State) (f : Flags) : (s.setFlags f).flags = f := rfl
@[simp] theorem setFlags_ipo (s : State) (f : Flags) : (s.setFlags f).ipo = s.ipo := rfl
@[simp] theorem setFlags_spr (s : State) (f : Flags) : (s.setFlags f).spr = s.spr := rfl
@[simp] theorem setFlags_stack (s : State) (f : Flags) : (s.setFlags f).stack = s.stack := rfl
@[simp] theorem setFlags_ram (s : State) (f : Flags) : (s.setFlags f).ram = s.ram := rfl
@[simp] theorem setFlags_hmem (s : State) (f : Flags) : (s.setFlags f).hmem = s.hmem := rfl
@[simp] theorem setFlags_events (s : State) (f : Flags) : (s.setFlags f).events = s.events := rfl
@[simp] theorem setFlags_cfg (s : State) (f : Flags) : (s.setFlags f).cfg = s.cfg := rfl

@[simp] theorem setIpo_regs (s : State) (a : Addr) : (s.setIpo a).regs = s.regs := rfl
@[simp] theorem setIpo_fregs (s : State) (a : Addr) : (s.setIpo a).fregs = s.fregs := rfl
@[simp] theorem setIpo_flags (s : State) (a : Addr) : (s.setIpo a).flags = s.flags := rfl
@[simp] theorem setIpo_ipo (s : State) (a : Addr) : (s.setIpo a).ipo = a := rfl
@[simp] theorem setIpo_spr (s : State) (a : Addr) : (s.setIpo a).spr = s.spr := rfl
@[simp] theorem setIpo_stack (s : State) (a : Addr) : (s.setIpo a).stack = s.stack := rfl
@[simp] theorem setIpo_ram (s : State) (a : Addr) : (s.setIpo a).ram = s.ram := rfl
@[simp] theorem setIpo_hmem (s : State) (a : Addr) : (s.setIpo a).hmem = s.hmem := rfl
@[simp] theorem setIpo_events (s : State) (a : Addr) : (s.setIpo a).events = s.events := rfl
@[simp] theorem setIpo_cfg (s : State) (a : Addr) : (s.setIpo a).cfg = s.cfg := rfl

@[simp] theorem setSpr_regs (s : State) (n : Nat) : (s.setSpr n).regs = s.regs := rfl
@[simp] theorem setSpr_fregs (s : State) (n : Nat) : (s.setSpr n).fregs = s.fregs := rfl
@[simp] theorem setSpr_flags (s : State) (n : Nat) : (s.setSpr n).flags = s.flags := rfl
@[simp] theorem setSpr_ipo (s : State) (n : Nat) : (s.setSpr n).ipo = s.ipo := rfl
@[simp] theorem setSpr_spr (s : State) (n : Nat) : (s.setSpr n).spr = n := rfl
@[simp] theorem setSpr_stack (s : State) (n : Nat) : (s.setSpr n).stack = s.stack := rfl
@[simp] theorem setSpr_ram (s : State) (n : Nat) : (s.setSpr n).ram = s.ram := rfl
@[simp] theorem setSpr_hmem (s : State) (n : Nat) : (s.setSpr n).hmem = s.hmem := rfl
@[simp] theorem setSpr_events (s : State) (n : Nat) : (s.setSpr n).events = s.events := rfl
@[simp] theorem setSpr_cfg (s : State) (n : Nat) : (s.setSpr n).cfg = s.cfg := rfl

@[simp] theorem setStack_regs (s : State) (m : Memory) : (s.setStack m).regs = s.regs := rfl
@[simp] theorem setStack_fregs (s : State) (m : Memory) : (s.setStack m).fregs = s.fregs := rfl
@[simp] theorem setStack_flags (s : State) (m : Memory) : (s.setStack m).flags = s.flags := rfl
@[simp] theorem setStack_ipo (s : State) (m : Memory) : (s.setStack m).ipo = s.ipo := rfl
@[simp] theorem setStack_spr (s : State) (m : Memory) : (s.setStack m).spr = s.spr := rfl
@[simp] theorem setStack_stack (s : State) (m : Memory) : (s.setStack m).stack = m := rfl
@[simp] theorem setStack_ram (s : State) (m : Memory) : (s.setStack m).ram = s.ram := rfl
@[simp] theorem setStack_hmem (s : State) (m : Memory) : (s.setStack m).hmem = s.hmem := rfl
@[simp] theorem setStack_events (s : State) (m : Memory) : (s.setStack m).events = s.events := rfl
@[simp] theorem setStack_cfg (s : State) (m : Memory) : (s.setStack m).cfg = s.cfg := rfl

@[simp] theorem setRam_regs (s : State) (m : Memory) : (s.setRam m).regs = s.regs := rfl
@[simp] theorem setRam_fregs (s : State) (m : Memory) : (s.setRam m).fregs = s.fregs := rfl
@[simp] theorem setRam_flags (s : State) (m : Memory) : (s.setRam m).flags = s.flags := rfl
@[simp] theorem setRam_ipo (s : State) (m : Memory) : (s.setRam m).ipo = s.ipo := rfl
@[simp] theorem setRam_spr (s : State) (m : Memory) : (s.setRam m).spr = s.spr := rfl
@[simp] theorem setRam_stack (s : State) (m : Memory) : (s.setRam m).stack = s.stack := rfl
@[simp] theorem setRam_ram (s : State) (m : Memory) : (s.setRam m).ram = m := rfl
@[simp] theorem setRam_hmem (s : State) (m : Memory) : (s.setRam m).hmem = s.hmem := rfl
@[simp] theorem setRam_events (s : State) (m : Memory) : (s.setRam m).events = s.events := rfl
@[simp] theorem setRam_cfg (s : State) (m : Memory) : (s.setRam m).cfg = s.cfg := rfl

@[simp] theorem setHmem_regs (s : State) (h : Hmem) : (s.setHmem h).regs = s.regs := rfl
@[simp] theorem setHmem_fregs (s : State) (h : Hmem) : (s.setHmem h).fregs = s.fregs := rfl
@[simp] theorem setHmem_flags (s : State) (h : Hmem) : (s.setHmem h).flags = s.flags := rfl
@[simp] theorem setHmem_ipo (s : State) (h : Hmem) : (s.setHmem h).ipo = s.ipo := rfl
@[simp] theorem setHmem_spr (s : State) (h : Hmem) : (s.setHmem h).spr = s.spr := rfl
@[simp] theorem setHmem_stack (s : State) (h : Hmem) : (s.setHmem h).stack = s.stack := rfl
@[simp] theorem setHmem_ram (s : State) (h : Hmem) : (s.setHmem h).ram = s.ram := rfl
@[simp] theorem setHmem_hmem (s : State) (h : Hmem) : (s.setHmem h).hmem = h := rfl
@[simp] theorem setHmem_events (s : State) (h : Hmem) : (s.setHmem h).events = s.events := rfl
@[simp] theorem setHmem_cfg (s : State) (h : Hmem) : (s.setHmem h).cfg = s.cfg := rfl

@[simp] theorem emit_regs (s : State) (e : Event) : (s.emit e).regs = s.regs := rfl
@[simp] theorem emit_fregs (s : State) (e : Event) : (s.emit e).fregs = s.fregs := rfl
@[simp] theorem emit_flags (s : State) (e : Event) : (s.emit e).flags = s.flags := rfl
@[simp] theorem emit_ipo (s : State) (e : Event) : (s.emit e).ipo = s.ipo := rfl
@[simp] theorem emit_spr (s : State) (e : Event) : (s.emit e).spr = s.spr := rfl
@[simp] theorem emit_stack (s : State) (e : Event) : (s.emit e).stack = s.stack := rfl
@[simp] theorem emit_ram (s : State) (e : Event) : (s.emit e).ram = s.ram := rfl
@[simp] theorem emit_hmem (s : State) (e : Event) : (s.emit e).hmem = s.hmem := rfl
@[simp] theorem emit_events (s : State) (e : Event) : (s.emit e).events = e :: s.events := rfl
@[simp] theorem emit_cfg (s : State) (e : Event) : (s.emit e).cfg = s.cfg := rfl

@[simp] theorem setSlot_regs (s : State) (i : Slot) (b : Byte) : (s.setSlot i b).regs = s.regs.set i.val b := rfl
@[simp] theorem setSlot_fregs (s : State) (i : Slot) (b : Byte) : (s.setSlot i b).fregs = s.fregs := rfl
@[simp] theorem setSlot_flags (s : State) (i : Slot) (b : Byte) : (s.setSlot i b).flags = s.flags := rfl
@[simp] theorem setSlot_ipo (s : State) (i : Slot) (b : Byte) : (s.setSlot i b).ipo = s.ipo := rfl
@[simp] theorem setSlot_spr (s : State) (i : Slot) (b : Byte) : (s.setSlot i b).spr = s.spr := rfl
@[simp] theorem setSlot_stack (s : State) (i : Slot) (b : Byte) : (s.setSlot i b).stack = s.stack := rfl
@[simp] theorem setSlot_ram (s : State) (i : Slot) (b : Byte) : (s.setSlot i b).ram = s.ram := rfl
@[simp] theorem setSlot_hmem (s : State) (i : Slot) (b : Byte) : (s.setSlot i b).hmem = s.hmem := rfl
@[simp] theorem setSlot_events (s : State) (i : Slot) (b : Byte) : (s.setSlot i b).events = s.events := rfl
@[simp] theorem setSlot_cfg (s : State) (i : Slot) (b : Byte) : (s.setSlot i b).cfg = s.cfg := rfl

@[simp] theorem setFreg_regs (s : State) (k : FSlot) (p : FloatBits) : (s.setFreg k p).regs = s.regs := rfl
@[simp] theorem setFreg_fregs (s : State) (k : FSlot) (p : FloatBits) :
    (s.setFreg k p).fregs = s.fregs.set k.val p := rfl
@[simp] theorem setFreg_flags (s : State) (k : FSlot) (p : FloatBits) : (s.setFreg k p).flags = s.flags := rfl
@[simp] theorem setFreg_ipo (s : State) (k : FSlot) (p : FloatBits) : (s.setFreg k p).ipo = s.ipo := rfl
@[simp] theorem setFreg_spr (s : State) (k : FSlot) (p : FloatBits) : (s.setFreg k p).spr = s.spr := rfl
@[simp] theorem setFreg_stack (s : State) (k : FSlot) (p : FloatBits) : (s.setFreg k p).stack = s.stack := rfl
@[simp] theorem setFreg_ram (s : State) (k : FSlot) (p : FloatBits) : (s.setFreg k p).ram = s.ram := rfl
@[simp] theorem setFreg_hmem (s : State) (k : FSlot) (p : FloatBits) : (s.setFreg k p).hmem = s.hmem := rfl
@[simp] theorem setFreg_events (s : State) (k : FSlot) (p : FloatBits) : (s.setFreg k p).events = s.events := rfl
@[simp] theorem setFreg_cfg (s : State) (k : FSlot) (p : FloatBits) : (s.setFreg k p).cfg = s.cfg := rfl

@[simp] theorem pushBytes_regs (s : State) (bs : List Byte) : (s.pushBytes bs).regs = s.regs := rfl
@[simp] theorem pushBytes_fregs (s : State) (bs : List Byte) : (s.pushBytes bs).fregs = s.fregs := rfl
@[simp] theorem pushBytes_flags (s : State) (bs : List Byte) : (s.pushBytes bs).flags = s.flags := rfl
@[simp] theorem pushBytes_ipo (s : State) (bs : List Byte) : (s.pushBytes bs).ipo = s.ipo := rfl
@[simp] theorem pushBytes_spr (s : State) (bs : List Byte) : (s.pushBytes bs).spr = s.spr + bs.length := rfl
@[simp] theorem pushBytes_stack (s : State) (bs : List Byte) : (s.pushBytes bs).stack = stkStore s.stack s.spr bs :=
    rfl
@[simp] theorem pushBytes_ram (s : State) (bs : List Byte) : (s.pushBytes bs).ram = s.ram := rfl
@[simp] theorem pushBytes_hmem (s : State) (bs : List Byte) : (s.pushBytes bs).hmem = s.hmem := rfl
@[simp] theorem pushBytes_events (s : State) (bs : List Byte) : (s.pushBytes bs).events = s.events := rfl
@[simp] theorem pushBytes_cfg (s : State) (bs : List Byte) : (s.pushBytes bs).cfg = s.cfg := rfl

@[simp] theorem drop_regs (s : State) (n : Nat) : (s.drop n).regs = s.regs := rfl
@[simp] theorem drop_fregs (s : State) (n : Nat) : (s.drop n).fregs = s.fregs := rfl
@[simp] theorem drop_flags (s : State) (n : Nat) : (s.drop n).flags = s.flags := rfl
@[simp] theorem drop_ipo (s : State) (n : Nat) : (s.drop n).ipo = s.ipo := rfl
@[simp] theorem drop_spr (s : State) (n : Nat) : (s.drop n).spr = s.spr - n := rfl
@[simp] theorem drop_stack (s : State) (n : Nat) : (s.drop n).stack = s.stack := rfl
@[simp] theorem drop_ram (s : State) (n : Nat) : (s.drop n).ram = s.ram := rfl
@[simp] theorem drop_hmem (s : State) (n : Nat) : (s.drop n).hmem = s.hmem := rfl
@[simp] theorem drop_events (s : State) (n : Nat) : (s.drop n).events = s.events := rfl
@[simp] theorem drop_cfg (s : State) (n : Nat) : (s.drop n).cfg = s.cfg := rfl

@[simp] theorem reportDivZero_regs (s : State) : s.reportDivZero.regs = s.regs := rfl
@[simp] theorem reportDivZero_fregs (s : State) : s.reportDivZero.fregs = s.fregs := rfl
@[simp] theorem reportDivZero_flags (s : State) : s.reportDivZero.flags = s.flags := rfl
@[simp] theorem reportDivZero_ipo (s : State) : s.reportDivZero.ipo = s.ipo := rfl
@[simp] theorem reportDivZero_spr (s : State) : s.reportDivZero.spr = s.spr := rfl
@[simp] theorem reportDivZero_stack (s : State) : s.reportDivZero.stack = s.stack := rfl
@[simp] theorem reportDivZero_ram (s : State) : s.reportDivZero.ram = s.ram := rfl
@[simp] theorem reportDivZero_hmem (s : State) : s.reportDivZero.hmem = s.hmem := rfl
@[simp] theorem reportDivZero_events (s : State) : s.reportDivZero.events = .err s.cfg.errDivZeroArg :: s.events :=
    rfl
@[simp] theorem reportDivZero_cfg (s : State) : s.reportDivZero.cfg = s.cfg := rfl

@[simp] theorem stackFault_regs (s : State) (kind : StackFaultKind) : (s.stackFault kind).regs = s.regs := rfl
@[simp] theorem stackFault_fregs (s : State) (kind : StackFaultKind) : (s.stackFault kind).fregs = s.fregs := rfl
@[simp] theorem stackFault_flags (s : State) (kind : StackFaultKind) : (s.stackFault kind).flags = s.flags := rfl
@[simp] theorem stackFault_ipo (s : State) (kind : StackFaultKind) :
    (s.stackFault kind).ipo = BitVec.ofNat 24 (s.hmem.read s.cfg.hmemErrHandler) := rfl
@[simp] theorem stackFault_spr (s : State) (kind : StackFaultKind) : (s.stackFault kind).spr = 0 := rfl
@[simp] theorem stackFault_stack (s : State) (kind : StackFaultKind) : (s.stackFault kind).stack = s.stack := rfl
@[simp] theorem stackFault_ram (s : State) (kind : StackFaultKind) : (s.stackFault kind).ram = s.ram := rfl
@[simp] theorem stackFault_hmem (s : State) (kind : StackFaultKind) :
    (s.stackFault kind).hmem = s.hmem.put s.cfg.hmemErrId (s.faultCode kind) := rfl
@[simp] theorem stackFault_events (s : State) (kind : StackFaultKind) :
    (s.stackFault kind).events = .log kind s.ipo :: s.events := rfl
@[simp] theorem stackFault_cfg (s : State) (kind : StackFaultKind) : (s.stackFault kind).cfg = s.cfg := rfl

@[simp] theorem advance_regs (s : State) (n : Nat) : (s.advance n).regs = s.regs := rfl
@[simp] theorem advance_fregs (s : State) (n : Nat) : (s.advance n).fregs = s.fregs := rfl
@[simp] theorem advance_flags (s : State) (n : Nat) : (s.advance n).flags = s.flags := rfl
@[simp] theorem advance_ipo (s : State) (n : Nat) : (s.advance n).ipo = s.ipo + BitVec.ofNat 24 n := rfl
@[simp] theorem advance_spr (s : State) (n : Nat) : (s.advance n).spr = s.spr := rfl
@[simp] theorem advance_stack (s : State) (n : Nat) : (s.advance n).stack = s.stack := rfl
@[simp] theorem advance_ram (s : State) (n : Nat) : (s.advance n).ram = s.ram := rfl
@[simp] theorem advance_hmem (s : State) (n : Nat) : (s.advance n).hmem = s.hmem := rfl
@[simp] theorem advance_events (s : State) (n : Nat) : (s.advance n).events = s.events := rfl
@[simp] theorem advance_cfg (s : State) (n : Nat) : (s.advance n).cfg = s.cfg := rfl

end Sys2Proof.Machine.State
end

