-- ==== Sys2Proof/Laws/Regs.lean ====
section
/-! SUPPORT. The register files: a group read after a write, what a write of slots leaves alone. -/

namespace Sys2Proof.Machine.State

variable (s : State)

theorem slot_setSlot (i j : Slot) (b : Byte) : (s.setSlot i b).slot j = if j = i then b else s.slot j := by
  simp only [slot, setSlot_regs, Vector.getElem_set, Fin.ext_iff, eq_comm]

theorem freg_setFreg (k l : FSlot) (p : FloatBits) : (s.setFreg k p).freg l = if l = k then p else s.freg l := by
  simp only [freg, setFreg_fregs, Vector.getElem_set, Fin.ext_iff, eq_comm]

@[simp] theorem freg_setFreg_self (k : FSlot) (p : FloatBits) : (s.setFreg k p).freg k = p := by
  simp [freg_setFreg]

/-! Writing slots changes the integer registers alone. -/

theorem setSlots_frame (i : Slot) (bs : List Byte) :
    (s.setSlots i bs).fregs = s.fregs ∧ (s.setSlots i bs).flags = s.flags ∧ (s.setSlots i bs).ipo = s.ipo ∧
    (s.setSlots i bs).spr = s.spr ∧ (s.setSlots i bs).stack = s.stack ∧ (s.setSlots i bs).ram = s.ram ∧
    (s.setSlots i bs).hmem = s.hmem ∧ (s.setSlots i bs).events = s.events ∧ (s.setSlots i bs).cfg = s.cfg := by
  induction bs generalizing s i with
  | nil => simp [setSlots]
  | cons b bs ih =>
    have := ih (s.setSlot i b) (i + 1)
    simpa [setSlots] using this

@[simp] theorem setSlots_fregs (i : Slot) (bs : List Byte) : (s.setSlots i bs).fregs = s.fregs :=
    (setSlots_frame s i bs).1
@[simp] theorem setSlots_flags (i : Slot) (bs : List Byte) : (s.setSlots i bs).flags = s.flags :=
    (setSlots_frame s i bs).2.1
@[simp] theorem setSlots_ipo (i : Slot) (bs : List Byte) : (s.setSlots i bs).ipo = s.ipo :=
    (setSlots_frame s i bs).2.2.1
@[simp] theorem setSlots_spr (i : Slot) (bs : List Byte) : (s.setSlots i bs).spr = s.spr :=
    (setSlots_frame s i bs).2.2.2.1
@[simp] theorem setSlots_stack (i : Slot) (bs : List Byte) : (s.setSlots i bs).stack = s.stack :=
    (setSlots_frame s i bs).2.2.2.2.1
@[simp] theorem setSlots_ram (i : Slot) (bs : List Byte) : (s.setSlots i bs).ram = s.ram :=
    (setSlots_frame s i bs).2.2.2.2.2.1
@[simp] theorem setSlots_hmem (i : Slot) (bs : List Byte) : (s.setSlots i bs).hmem = s.hmem :=
    (setSlots_frame s i bs).2.2.2.2.2.2.1
@[simp] theorem setSlots_events (i : Slot) (bs : List Byte) : (s.setSlots i bs).events = s.events :=
    (setSlots_frame s i bs).2.2.2.2.2.2.2.1
@[simp] theorem setSlots_cfg (i : Slot) (bs : List Byte) : (s.setSlots i bs).cfg = s.cfg :=
    (setSlots_frame s i bs).2.2.2.2.2.2.2.2

@[simp] theorem setGroup_fregs (w : Width) (i : Slot) (v : Nat) : (s.setGroup w i v).fregs = s.fregs :=
    setSlots_fregs ..
@[simp] theorem setGroup_flags (w : Width) (i : Slot) (v : Nat) : (s.setGroup w i v).flags = s.flags :=
    setSlots_flags ..
@[simp] theorem setGroup_ipo (w : Width) (i : Slot) (v : Nat) : (s.setGroup w i v).ipo = s.ipo := setSlots_ipo ..
@[simp] theorem setGroup_spr (w : Width) (i : Slot) (v : Nat) : (s.setGroup w i v).spr = s.spr := setSlots_spr ..
@[simp] theorem setGroup_stack (w : Width) (i : Slot) (v : Nat) : (s.setGroup w i v).stack = s.stack :=
    setSlots_stack ..
@[simp] theorem setGroup_ram (w : Width) (i : Slot) (v : Nat) : (s.setGroup w i v).ram = s.ram := setSlots_ram ..
@[simp] theorem setGroup_hmem (w : Width) (i : Slot) (v : Nat) : (s.setGroup w i v).hmem = s.hmem := setSlots_hmem ..
@[simp] theorem setGroup_events (w : Width) (i : Slot) (v : Nat) : (s.setGroup w i v).events = s.events :=
    setSlots_events ..
@[simp] theorem setGroup_cfg (w : Width) (i : Slot) (v : Nat) : (s.setGroup w i v).cfg = s.cfg := setSlots_cfg ..

@[simp] theorem slotBytes_length (i : Slot) (n : Nat) : (s.slotBytes i n).length = n := by
  induction n generalizing i with
  | zero => rfl
  | succ n ih => simp [slotBytes, ih]

/-- Whatever keeps the register file keeps its groups. -/
theorem slotBytes_congr {s t : State} (h : s.regs = t.regs) (i : Slot) (n : Nat) :
    s.slotBytes i n = t.slotBytes i n := by
  induction n generalizing i with
  | zero => rfl
  | succ n ih => simp [slotBytes, ih, slot, h]

theorem group_congr {s t : State} (h : s.regs = t.regs) (w : Width) (i : Slot) : s.group w i = t.group w i := by
  simp [group, slotBytes_congr h]

theorem group_lt (w : Width) (i : Slot) : s.group w i < 2 ^ w.bits := by
  have := beValue_lt (s.slotBytes i w.bytes)
  rwa [slotBytes_length, ← Width.two_pow_bits] at this

/-- A slot that is none of the written ones keeps its value. -/
theorem slot_setSlots_outside {i j : Slot} {bs : List Byte} (hj : ∀ k < bs.length, j.val ≠ (i.val + k) % 26) :
    (s.setSlots i bs).slot j = s.slot j := by
  induction bs generalizing s i with
  | nil => rfl
  | cons b bs ih =>
    have h0 : j ≠ i := by
      intro e
      have := hj 0 (by simp)
      subst e
      omega
    simp only [setSlots]
    rw [ih, slot_setSlot, if_neg h0]
    intro k hk
    have := hj (k + 1) (by simpa using hk)
    simp only [Fin.val_add]
    omega

/-- At most 26 written slots, read back, give the written bytes. -/
theorem slotBytes_setSlots (i : Slot) {bs : List Byte} (hl : bs.length ≤ 26) :
    (s.setSlots i bs).slotBytes i bs.length = bs := by
  induction bs generalizing s i with
  | nil => rfl
  | cons b bs ih =>
    simp only [List.length_cons] at hl
    simp only [List.length_cons, slotBytes, setSlots]
    congr 1
    · rw [slot_setSlots_outside, slot_setSlot, if_pos rfl]
      intro k hk
      simp only [Fin.val_add]
      omega
    · exact ih _ _ (by omega)

theorem group_setGroup (w : Width) (i : Slot) (v : Nat) : (s.setGroup w i v).group w i = v % 2 ^ w.bits := by
  have := slotBytes_setSlots s i (bs := beBytes w.bytes v) (by have := w.bytes_le; simp; omega)
  rw [beBytes_length] at this
  rw [group, setGroup, this, beValue_beBytes, Width.two_pow_bits]

theorem slot_setGroup_outside {w : Width} {i j : Slot} {v : Nat} (hj : ∀ k < w.bytes, j.val ≠ (i.val + k) % 26) :
    (s.setGroup w i v).slot j = s.slot j :=
  slot_setSlots_outside s (by simpa using hj)

end Sys2Proof.Machine.State
end

