-- ==== Sys2Proof/Laws/Ops.lean ====
section
/-! SUPPORT. One lemma for each shared stack operation, saying everything it can do. -/

namespace Sys2Proof.Machine.State

variable {s t : State}

/-- A push that answers a next state either overflowed, with nothing written, or wrote the bytes at SPR. -/
theorem push_next {bs : List Byte} (h : s.push bs = .next t) :
    (s.cfg.stackCap < s.spr + bs.length ∧ t = s.stackFault .overflow) ∨
    (s.spr + bs.length ≤ s.cfg.stackCap ∧ t = s.pushBytes bs) := by
  unfold push at h
  split at h
  · exact .inl ⟨‹_›, by cases h; rfl⟩
  · exact .inr ⟨by omega, by cases h; rfl⟩

theorem push_fits {bs : List Byte} (h : s.spr + bs.length ≤ s.cfg.stackCap) : s.push bs = .next (s.pushBytes bs) := by
  unfold push
  rw [if_neg (by omega)]

theorem push_overflows {bs : List Byte} (h : s.cfg.stackCap < s.spr + bs.length) :
    s.push bs = .next (s.stackFault .overflow) := by
  unfold push
  rw [if_pos h]

/-- A checked pop that answers a next state either underflowed, with nothing read, or went on. -/
theorem popCheck_next {n : Nat} {k : State → State} (h : s.popCheck n k = .next t) :
    (s.spr < n ∧ t = s.stackFault .underflow) ∨ (n ≤ s.spr ∧ s.spr ≤ s.cfg.stackCap ∧ t = k s) := by
  unfold popCheck at h
  split at h
  · exact .inl ⟨‹_›, by cases h; rfl⟩
  · split at h
    · cases h
    · exact .inr ⟨by omega, by omega, by cases h; rfl⟩

theorem popCheck_holds {n : Nat} {k : State → State} (h : n ≤ s.spr) (h' : s.spr ≤ s.cfg.stackCap) :
    s.popCheck n k = .next (k s) := by
  unfold popCheck
  rw [if_neg (by omega), if_neg (by omega)]

theorem popCheck_underflows {n : Nat} {k : State → State} (h : s.spr < n) :
    s.popCheck n k = .next (s.stackFault .underflow) := by
  unfold popCheck
  rw [if_pos h]

/-! The loops of the range pops change the registers they pop into and SPR alone. -/

theorem popSlots_frame (s : State) (i : Slot) (n : Nat) :
    (s.popSlots i n).fregs = s.fregs ∧ (s.popSlots i n).flags = s.flags ∧ (s.popSlots i n).ipo = s.ipo ∧
    (s.popSlots i n).stack = s.stack ∧ (s.popSlots i n).ram = s.ram ∧ (s.popSlots i n).hmem = s.hmem ∧
    (s.popSlots i n).events = s.events ∧ (s.popSlots i n).cfg = s.cfg ∧ (s.popSlots i n).spr = s.spr - n := by
  induction n generalizing s i with
  | zero => simp [popSlots]
  | succ n ih =>
    have h := ih ((s.drop 1).setSlots i (s.topBytes 1)) (i - 1)
    simp only [setSlots_fregs, setSlots_flags, setSlots_ipo, setSlots_spr, setSlots_stack, setSlots_ram,
        setSlots_hmem,
      setSlots_events, setSlots_cfg, drop_fregs, drop_flags, drop_ipo, drop_spr, drop_stack, drop_ram, drop_hmem,
      drop_events, drop_cfg] at h
    obtain ⟨h₁, h₂, h₃, h₄, h₅, h₆, h₇, h₈, h₉⟩ := h
    exact ⟨h₁, h₂, h₃, h₄, h₅, h₆, h₇, h₈, by simp only [popSlots, h₉]; omega⟩

theorem popFregs_frame (s : State) (k : FSlot) (n : Nat) :
    (s.popFregs k n).regs = s.regs ∧ (s.popFregs k n).flags = s.flags ∧ (s.popFregs k n).ipo = s.ipo ∧
    (s.popFregs k n).stack = s.stack ∧ (s.popFregs k n).ram = s.ram ∧ (s.popFregs k n).hmem = s.hmem ∧
    (s.popFregs k n).events = s.events ∧ (s.popFregs k n).cfg = s.cfg ∧ (s.popFregs k n).spr = s.spr - 4 * n := by
  induction n generalizing s k with
  | zero => simp [popFregs]
  | succ n ih =>
    have h := ih ((s.drop 4).setFreg k (BitVec.ofNat 32 (beValue (s.topBytes 4)))) (k - 1)
    simp only [setFreg_regs, setFreg_flags, setFreg_ipo, setFreg_spr, setFreg_stack, setFreg_ram, setFreg_hmem,
      setFreg_events, setFreg_cfg, drop_regs, drop_flags, drop_ipo, drop_spr, drop_stack, drop_ram, drop_hmem,
      drop_events, drop_cfg] at h
    obtain ⟨h₁, h₂, h₃, h₄, h₅, h₆, h₇, h₈, h₉⟩ := h
    exact ⟨h₁, h₂, h₃, h₄, h₅, h₆, h₇, h₈, by simp only [popFregs, h₉]; omega⟩

@[simp] theorem fregBytes_length (s : State) (k : FSlot) (n : Nat) : (s.fregBytes k n).length = 4 * n := by
  induction n generalizing k with
  | zero => rfl
  | succ n ih => simp [fregBytes, ih]; omega

end Sys2Proof.Machine.State

namespace Sys2Proof.Machine

theorem rangeCount_pos {M : Nat} (s e : Fin M) : 0 < rangeCount s e := Nat.succ_pos _

theorem rangeCount_le {M : Nat} (s e : Fin M) : rangeCount s e ≤ M := by
  have hM : 0 < M := Nat.lt_of_le_of_lt (Nat.zero_le _) s.isLt
  exact Nat.mod_lt _ hM

end Sys2Proof.Machine
end

