-- ==== Sys2Proof/Laws/Operands.lean ====
section
/-! SUPPORT. Resolved operands: reading back what was written, and the frame of a write. -/

namespace Sys2Proof.Machine

variable (s : State) (l : Loc) (v : Nat)

@[simp] theorem Loc.write_fregs : (l.write s v).fregs = s.fregs := by cases l <;> simp [Loc.write]
@[simp] theorem Loc.write_flags : (l.write s v).flags = s.flags := by cases l <;> simp [Loc.write]
@[simp] theorem Loc.write_ipo : (l.write s v).ipo = s.ipo := by cases l <;> simp [Loc.write]
@[simp] theorem Loc.write_spr : (l.write s v).spr = s.spr := by cases l <;> simp [Loc.write]
@[simp] theorem Loc.write_stack : (l.write s v).stack = s.stack := by cases l <;> simp [Loc.write]
@[simp] theorem Loc.write_hmem : (l.write s v).hmem = s.hmem := by cases l <;> simp [Loc.write]
@[simp] theorem Loc.write_events : (l.write s v).events = s.events := by cases l <;> simp [Loc.write]
@[simp] theorem Loc.write_cfg : (l.write s v).cfg = s.cfg := by cases l <;> simp [Loc.write]

@[simp] theorem resolve_width (i : ILoc) : (resolve s i).width = i.width := by cases i <;> rfl

@[simp] theorem resolveCell_width (c : Cell) : (resolveCell s c).width = c.width := by cases c <;> rfl

theorem Loc.read_lt : l.read s < 2 ^ l.width.bits := by
  cases l with
  | reg w i => exact s.group_lt w i
  | mem w ea =>
    have := memRead_lt s.ram ea w.bytes
    rwa [← Width.two_pow_bits] at this

theorem srcVal_lt (i : ISrc) : srcVal s i < 2 ^ i.width.bits := by
  cases i with
  | reg w i => exact s.group_lt w i
  | imm w v => exact trunc_lt w _
  | mem w m =>
    have := memRead_lt s.ram (effAddr s m) w.bytes
    rwa [← Width.two_pow_bits] at this

variable {s l v}

/-- A read depends on the register file and RAM alone. -/
theorem Loc.read_congr {s t : State} (hr : s.regs = t.regs) (hm : s.ram = t.ram) (l : Loc) : l.read s = l.read t := by
  cases l with
  | reg w i => exact State.group_congr hr w i
  | mem w ea => simp [Loc.read, hm]

/-- A location, read back, gives the value written to it, reduced to its width (R118). -/
theorem Loc.read_write (h : s.ram.wf = true) : l.read (l.write s v) = v % 2 ^ l.width.bits := by
  cases l with
  | reg w i =>
    simp only [Loc.read, Loc.write, Loc.width, State.group_setGroup, trunc, Nat.mod_mod]
  | mem w ea =>
    have := w.bytes_le
    simp only [Loc.read, Loc.write, Loc.width, State.setRam_ram, memRead_write h ea (n := w.bytes) (by omega), trunc,
      Width.two_pow_bits, Nat.mod_mod]

/-- The slots a write leaves alone. -/
theorem Loc.write_slot {j : Slot} (hj : ¬l.hasSlot j) : (l.write s v).slot j = s.slot j := by
  cases l with
  | reg w i =>
    refine s.slot_setGroup_outside fun k hk e => hj ⟨k, hk, e⟩
  | mem w ea => rfl

/-- The RAM bytes a write leaves alone. -/
theorem Loc.write_ram (h : s.ram.wf = true) {x : Addr} (hx : ¬l.hasAddr x) :
    (l.write s v).ram.read x.toNat = s.ram.read x.toNat := by
  cases l with
  | reg w i => simp [Loc.write]
  | mem w ea => exact memWrite_read_outside h _ fun k hk e => hx ⟨k, hk, e⟩

theorem Loc.write_ram_wf (h : s.ram.wf = true) : (l.write s v).ram.wf = true := by
  cases l with
  | reg w i => simpa [Loc.write] using h
  | mem w ea => exact memWrite_wf h _ _ _

theorem Loc.write_ram_keys (h : ∀ e ∈ s.ram, e.1 < 2 ^ 24) : ∀ e ∈ (l.write s v).ram, e.1 < 2 ^ 24 := by
  cases l with
  | reg w i => simpa [Loc.write] using h
  | mem w ea => exact memWrite_keys h

/-- The frame of a write to a location. -/
theorem Loc.write_frame (h : s.ram.wf = true) : KeepsAllButLoc s (l.write s v) l where
  slots _ hj := Loc.write_slot hj
  fregs _ _ := by simp [State.freg]
  ram _ hx := Loc.write_ram h hx
  spr := by simp
  stack := by simp
  hmem := by simp
  events := by simp
  cfg := by simp

end Sys2Proof.Machine
end

