-- ==== Sys2Proof/Laws/Exec.lean ====
section
/-! SUPPORT. What writing a result leaves: the frame of one and of two locations, and the model's two's complement
arithmetic as arithmetic of bit vectors. -/

namespace Sys2Proof.Machine

/-! ### Two's complement (00_scope.md R7) -/

theorem truncInt_eq_ofInt (w : Width) (x : Int) : truncInt w x = (BitVec.ofInt w.bits x).toNat := by
  simp [truncInt, BitVec.toNat_ofInt]

theorem two_mul_half (w : Width) : 2 * 2 ^ (w.bits - 1) = 2 ^ w.bits := by cases w <;> rfl

theorem sext_eq_toInt (w : Width) {v : Nat} (h : v < 2 ^ w.bits) : sext w v = (BitVec.ofNat w.bits v).toInt := by
  have h2 := two_mul_half w
  rw [sext, signBit_eq w h, BitVec.toInt_eq_toNat_cond, BitVec.toNat_ofNat, Nat.mod_eq_of_lt h]
  by_cases hv : 2 ^ (w.bits - 1) ≤ v
  · have hn : ¬2 * v < 2 ^ w.bits := by rw [← h2]; omega
    simp [hv, hn]
  · have hn : 2 * v < 2 ^ w.bits := by rw [← h2]; omega
    simp [hv, hn]

theorem sext_eq_zero {w : Width} {v : Nat} (h : v < 2 ^ w.bits) : sext w v = 0 ↔ v = 0 := by
  have h2 := two_mul_half w
  have hc : ((2 ^ w.bits : Nat) : Int) = 2 ^ w.bits := by push_cast; rfl
  rw [sext, signBit_eq w h, ← hc]
  by_cases hv : 2 ^ (w.bits - 1) ≤ v
  · simp only [hv, decide_true, if_true]
    omega
  · simp only [hv, decide_false]
    simp

theorem clampW_eq (w : Width) (x : Int) : clampW w x = (max 0 (min x (2 ^ w.bits - 1))).toNat := by
  have h1 : 1 ≤ 2 ^ w.bits := Nat.one_le_two_pow
  have hm : ((maxVal w : Nat) : Int) = 2 ^ w.bits - 1 := by
    unfold maxVal
    push_cast [h1]
    rfl
  have hp : (1 : Int) ≤ 2 ^ w.bits := by exact_mod_cast h1
  unfold clampW
  rw [hm]
  generalize (2 : Int) ^ w.bits = k at *
  omega

/-- `NOT_W` is the complement of a W-bit word. -/
theorem notW_eq_not (w : Width) (x : BitVec w.bits) : notW w x.toNat = (~~~x).toNat := by
  have hx := x.isLt
  rw [BitVec.toNat_not, notW, maxVal, show 2 ^ w.bits - 1 - x.toNat = 2 ^ w.bits - (x.toNat + 1) by omega]
  apply Nat.eq_of_testBit_eq
  intro i
  rw [Nat.testBit_xor, Nat.testBit_two_pow_sub_one, Nat.testBit_two_pow_sub_succ hx]
  by_cases hi : i < w.bits
  · simp [hi]
  · have : x.toNat.testBit i = false :=
      Nat.testBit_lt_two_pow (Nat.lt_of_lt_of_le hx (Nat.pow_le_pow_right (by decide) (by omega)))
    simp [hi, this]

/-! ### Frames -/

theorem KeepsAllBut.setFlags {s t : State} {a : Slot → Prop} {b : FSlot → Prop} {c : Addr → Prop}
    (h : KeepsAllBut s t a b c) (f : Flags) : KeepsAllBut s (t.setFlags f) a b c :=
  ⟨h.slots, h.fregs, h.ram, h.spr, h.stack, h.hmem, h.events, h.cfg⟩

theorem KeepsAllBut.setIpo {s t : State} {a : Slot → Prop} {b : FSlot → Prop} {c : Addr → Prop}
    (h : KeepsAllBut s t a b c) (i : Addr) : KeepsAllBut s (t.setIpo i) a b c :=
  ⟨h.slots, h.fregs, h.ram, h.spr, h.stack, h.hmem, h.events, h.cfg⟩

@[simp] theorem Loc.read_setFlags (l : Loc) (s : State) (f : Flags) : l.read (s.setFlags f) = l.read s :=
  Loc.read_congr (s := s.setFlags f) (t := s) rfl rfl l

@[simp] theorem Loc.read_setIpo (l : Loc) (s : State) (a : Addr) : l.read (s.setIpo a) = l.read s :=
  Loc.read_congr (s := s.setIpo a) (t := s) rfl rfl l

theorem State.slotBytes_agree {s t : State} {i : Slot} {n : Nat} (h : ∀ j, inSlots i n j → t.slot j = s.slot j) :
    t.slotBytes i n = s.slotBytes i n := by
  induction n generalizing i with
  | zero => rfl
  | succ n ih =>
    simp only [State.slotBytes]
    rw [h i ⟨0, by omega, by have := i.isLt; omega⟩, ih]
    rintro j ⟨k, hk, hj⟩
    refine h j ⟨k + 1, by omega, ?_⟩
    simp only [Fin.val_add] at hj
    omega

theorem ramBytes_agree {m m' : Memory} {a : Addr} {n : Nat}
    (h : ∀ x, inAddrs a n x → m'.read x.toNat = m.read x.toNat) : ramBytes m' a n = ramBytes m a n := by
  induction n generalizing a with
  | zero => rfl
  | succ n ih =>
    simp only [ramBytes]
    rw [h a ⟨0, by omega, by simp⟩, ih]
    rintro x ⟨k, hk, rfl⟩
    refine h _ ⟨k + 1, by omega, ?_⟩
    apply BitVec.eq_of_toNat_eq
    simp only [BitVec.toNat_add, BitVec.toNat_ofNat, addr_one]
    omega

/-- A location reads the same in two states that agree on the bytes it covers. -/
theorem Loc.read_agree {s t : State} {l : Loc} (hs : ∀ j, l.hasSlot j → t.slot j = s.slot j)
    (hm : ∀ x, l.hasAddr x → t.ram.read x.toNat = s.ram.read x.toNat) : l.read t = l.read s := by
  cases l with
  | reg w i => simp only [Loc.read, State.group, State.slotBytes_agree hs]
  | mem w ea => simp only [Loc.read, memRead, ramBytes_agree hm]

theorem Loc.read_write_of_lt {s : State} {l : Loc} {r : Nat} (h : s.ram.wf = true) (hr : r < 2 ^ l.width.bits) :
    l.read (l.write s r) = r := by
  rw [Loc.read_write h, Nat.mod_eq_of_lt hr]

/-! ### Results -/

theorem writesLoc_write {s : State} {l : Loc} {r : Nat} {f : Flags} (h : s.ram.wf = true)
    (hr : r < 2 ^ l.width.bits) : WritesLoc (.next ((l.write s r).setFlags f)) s l r f :=
  ⟨_, rfl, by rw [Loc.read_setFlags, Loc.read_write_of_lt h hr], rfl, by simp, (Loc.write_frame h).setFlags f⟩

theorem writesLoc_write_keep {s : State} {l : Loc} {r : Nat} (h : s.ram.wf = true) (hr : r < 2 ^ l.width.bits) :
    WritesLoc (.next (l.write s r)) s l r s.flags :=
  ⟨_, rfl, Loc.read_write_of_lt h hr, by simp, by simp, Loc.write_frame h⟩

theorem writesTwoLocs_write {s : State} {l lr : Loc} {q rm : Nat} {f : Flags} (h : s.ram.wf = true)
    (hq : q < 2 ^ l.width.bits) :
    WritesTwoLocs (.next ((lr.write (l.write s q) rm).setFlags f)) s l lr q (rm % 2 ^ lr.width.bits) f := by
  have h₁ : (l.write s q).ram.wf = true := Loc.write_ram_wf h
  have f₁ := Loc.write_frame (l := l) (v := q) h
  have f₂ := Loc.write_frame (l := lr) (v := rm) h₁
  refine ⟨_, rfl, ?_, ?_, fun j hj => f₂.slots j hj, fun x hx => f₂.ram x hx, rfl, by simp, ?_⟩
  · rw [Loc.read_setFlags, Loc.read_write h₁]
  · intro hd
    have hl : l.read (lr.write (l.write s q) rm) = l.read (l.write s q) :=
      Loc.read_agree (fun j hj => f₂.slots j fun hr => hd.1 j ⟨hj, hr⟩)
        fun x hx => f₂.ram x fun hr => hd.2 x ⟨hx, hr⟩
    rw [Loc.read_setFlags, hl, Loc.read_write_of_lt h hq]
  · refine ⟨fun j hj => ?_, fun k _ => ?_, fun x hx => ?_, ?_, ?_, ?_, ?_, ?_⟩
    · exact (f₂.slots j fun hr => hj (.inr hr)).trans (f₁.slots j fun hr => hj (.inl hr))
    · exact (f₂.fregs k id).trans (f₁.fregs k id)
    · exact (f₂.ram x fun hr => hx (.inr hr)).trans (f₁.ram x fun hr => hx (.inl hr))
    all_goals simp

/-- A bitwise operation, said of bit vectors. -/
theorem logicWrite_writes {s : State} (h : s.ram.wf = true) {dst : ILoc} {src : ISrc} {f : Width → Nat → Nat → Nat}
    {r : BitVec (resolve s dst).width.bits}
    (hf : f (resolve s dst).width ((resolve s dst).read s) (trunc (resolve s dst).width (srcVal s src)) = r.toNat) :
    WritesLoc (logicWrite s dst src f) s (resolve s dst) r.toNat s.flags := by
  simp only [logicWrite, hf]
  exact writesLoc_write_keep h r.isLt

theorem setFreg_frame (s : State) (k : FSlot) (p : FloatBits) :
    KeepsAllBut s (s.setFreg k p) (fun _ => False) (fun j => j = k) (fun _ => False) where
  slots _ _ := rfl
  fregs j hj := by rw [State.freg_setFreg, if_neg hj]
  ram _ _ := rfl
  spr := rfl
  stack := rfl
  hmem := rfl
  events := rfl
  cfg := rfl

theorem writesFreg_setFreg (s : State) (k : FSlot) (p : FloatBits) : WritesFreg (.next (s.setFreg k p)) s k p :=
  ⟨_, rfl, by simp, rfl, rfl, setFreg_frame s k p⟩

end Sys2Proof.Machine
end

