-- ==== Sys2Proof/Laws/Erase.lean ====
section
/-! SUPPORT. Nothing an instruction reads depends on the flags or on the event history, and every write commutes with
replacing either. -/

namespace Sys2Proof.Machine

/-- The state with another event history. -/
def setEv (s : State) (e : List Event) : State := { s with events := e }

section

variable (s : State) (f : Flags)

theorem group_setFlags (w i) : (s.setFlags f).group w i = s.group w i :=
    State.group_congr (s := s.setFlags f) (t := s) rfl w i
theorem effAddr_setFlags (m) : effAddr (s.setFlags f) m = effAddr s m := by
  obtain ⟨b, d⟩ := m
  cases b <;> cases d <;> simp [effAddr, baseAddr, dispVal, group_setFlags]
theorem srcVal_setFlags (x) : srcVal (s.setFlags f) x = srcVal s x := by
  cases x <;> simp [srcVal, group_setFlags, effAddr_setFlags]
theorem resolve_setFlags (x) : resolve (s.setFlags f) x = resolve s x := by
  cases x <;> simp [resolve, effAddr_setFlags]
theorem roi_setFlags (x) : regOrImmVal (s.setFlags f) x = regOrImmVal s x := by
  cases x <;> simp [regOrImmVal, group_setFlags]
theorem freg_setFlags (k) : (s.setFlags f).freg k = s.freg k := rfl
theorem floatAt_setFlags (k) : floatAt (s.setFlags f) k = floatAt s k := by simp [floatAt, effAddr_setFlags]
theorem flocVal_setFlags (x) : flocVal (s.setFlags f) x = flocVal s x :=
    by cases x <;> simp [flocVal, freg_setFlags, floatAt_setFlags]
theorem fsrcVal_setFlags (x) : fsrcVal (s.setFlags f) x = fsrcVal s x :=
    by cases x <;> simp [fsrcVal, freg_setFlags, floatAt_setFlags]
theorem fri_setFlags (x) : fregOrImmVal (s.setFlags f) x = fregOrImmVal s x :=
    by cases x <;> simp [fregOrImmVal, freg_setFlags]
theorem setSlots_setFlags (i bs) : (s.setFlags f).setSlots i bs = (s.setSlots i bs).setFlags f := by
  induction bs generalizing s i with
  | nil => rfl
  | cons b bs ih => simp only [State.setSlots]; exact ih (s.setSlot i b) (i + 1)
theorem write_setFlags (l : Loc) (v) : l.write (s.setFlags f) v = (l.write s v).setFlags f := by
  cases l with
  | reg w i => exact setSlots_setFlags _ _ _ _
  | mem w a => rfl
theorem resolveCell_setFlags (x) : resolveCell (s.setFlags f) x = resolveCell s x := by
  cases x <;> simp [resolveCell, group_setFlags]
theorem target_setFlags (x) : targetVal (s.setFlags f) x = targetVal s x := by
  cases x <;> simp [targetVal, group_setFlags]
theorem slotBytes_setFlags (i n) : (s.setFlags f).slotBytes i n = s.slotBytes i n :=
    State.slotBytes_congr (s := s.setFlags f) (t := s) rfl i n
theorem fregBytes_setFlags (i n) : (s.setFlags f).fregBytes i n = s.fregBytes i n := by
  induction n generalizing i with
  | zero => rfl
  | succ n ih => simp only [State.fregBytes, ih]; rfl
theorem popSlots_setFlags (i n) : (s.setFlags f).popSlots i n = (s.popSlots i n).setFlags f := by
  induction n generalizing i s with
  | zero => rfl
  | succ n ih => simp only [State.popSlots]; rw [← ih, ← setSlots_setFlags]; rfl
theorem popFregs_setFlags (i n) : (s.setFlags f).popFregs i n = (s.popFregs i n).setFlags f := by
  induction n generalizing i s with
  | zero => rfl
  | succ n ih => simp only [State.popFregs]; rw [← ih]; rfl

end

section

variable (s : State) (f : List Event)

theorem group_setEv (w i) : (setEv s f).group w i = s.group w i := State.group_congr (s := setEv s f) (t := s) rfl w i
theorem effAddr_setEv (m) : effAddr (setEv s f) m = effAddr s m := by
  obtain ⟨b, d⟩ := m
  cases b <;> cases d <;> simp [effAddr, baseAddr, dispVal, group_setEv]
theorem ram_setEv : (setEv s f).ram = s.ram := rfl
theorem flags_setEv : (setEv s f).flags = s.flags := rfl
theorem srcVal_setEv (x) : srcVal (setEv s f) x = srcVal s x := by
  cases x <;> simp [srcVal, group_setEv, effAddr_setEv, ram_setEv]
theorem resolve_setEv (x) : resolve (setEv s f) x = resolve s x := by
  cases x <;> simp [resolve, effAddr_setEv]
theorem read_setEv (l : Loc) : l.read (setEv s f) = l.read s := Loc.read_congr (s := setEv s f) (t := s) rfl rfl l
theorem roi_setEv (x) : regOrImmVal (setEv s f) x = regOrImmVal s x := by
  cases x <;> simp [regOrImmVal, group_setEv]
theorem freg_setEv (k) : (setEv s f).freg k = s.freg k := rfl
theorem floatAt_setEv (k) : floatAt (setEv s f) k = floatAt s k := by simp [floatAt, effAddr_setEv, ram_setEv]
theorem flocVal_setEv (x) : flocVal (setEv s f) x = flocVal s x :=
    by cases x <;> simp [flocVal, freg_setEv, floatAt_setEv]
theorem fsrcVal_setEv (x) : fsrcVal (setEv s f) x = fsrcVal s x :=
    by cases x <;> simp [fsrcVal, freg_setEv, floatAt_setEv]
theorem fri_setEv (x) : fregOrImmVal (setEv s f) x = fregOrImmVal s x :=
    by cases x <;> simp [fregOrImmVal, freg_setEv]
theorem setSlots_setEv (i bs) : (setEv s f).setSlots i bs = setEv (s.setSlots i bs) f := by
  induction bs generalizing s i with
  | nil => rfl
  | cons b bs ih => simp only [State.setSlots]; exact ih (s.setSlot i b) (i + 1)
theorem write_setEv (l : Loc) (v) : l.write (setEv s f) v = setEv (l.write s v) f := by
  cases l with
  | reg w i => exact setSlots_setEv _ _ _ _
  | mem w a => rfl
theorem resolveCell_setEv (x) : resolveCell (setEv s f) x = resolveCell s x := by
  cases x <;> simp [resolveCell, group_setEv]
theorem target_setEv (x) : targetVal (setEv s f) x = targetVal s x := by
  cases x <;> simp [targetVal, group_setEv]
theorem slotBytes_setEv (i n) : (setEv s f).slotBytes i n = s.slotBytes i n :=
    State.slotBytes_congr (s := setEv s f) (t := s) rfl i n
theorem fregBytes_setEv (i n) : (setEv s f).fregBytes i n = s.fregBytes i n := by
  induction n generalizing i with
  | zero => rfl
  | succ n ih => simp only [State.fregBytes, ih]; rfl
theorem popSlots_setEv (i n) : (setEv s f).popSlots i n = setEv (s.popSlots i n) f := by
  induction n generalizing i s with
  | zero => rfl
  | succ n ih => simp only [State.popSlots]; rw [← ih, ← setSlots_setEv]; rfl
theorem popFregs_setEv (i n) : (setEv s f).popFregs i n = setEv (s.popFregs i n) f := by
  induction n generalizing i s with
  | zero => rfl
  | succ n ih => simp only [State.popFregs]; rw [← ih]; rfl

end

end Sys2Proof.Machine
end

