-- ==== Sys2Proof/Laws/Fill.lean ====
section
/-! SUPPORT. Single bytes of a RAM value, and what a fill and a stamped fill leave at every address. -/

namespace Sys2Proof.Machine

/-- A byte of a big-endian list from the value of the list. -/
theorem getElem_of_beValue (bs : List Byte) (k : Nat) (hk : k < bs.length) :
     (bs[k]).toNat = beValue bs / 256 ^ (bs.length - 1 - k) % 256 := by
    induction bs generalizing k with
    | nil => cases hk
    | cons b bs ih =>
      have hlt := beValue_lt bs
      cases k with
      | zero =>
        have hpos : 0 < 256 ^ bs.length := Nat.pow_pos (by decide)
        simp only [List.getElem_cons_zero, beValue, List.length_cons, Nat.add_sub_cancel, Nat.sub_zero]
        rw [Nat.mul_comm, Nat.mul_add_div hpos, Nat.div_eq_of_lt hlt]
        have := b.isLt; omega
      | succ k =>
        simp only [List.length_cons] at hk
        have hk' : k < bs.length := by omega
        simp only [List.getElem_cons_succ, beValue, List.length_cons]
        rw [ih k hk', show bs.length + 1 - 1 - (k+1) = bs.length - 1 - k by omega]
        have e : 256 ^ bs.length = 256 ^ (bs.length - 1 - k) * (256 * 256 ^ k) := by
          rw [← pow_succ', ← pow_add]; congr 1; omega
        have hpos : 0 < 256 ^ (bs.length - 1 - k) := Nat.pow_pos (by decide)
        rw [e, show b.toNat * (256 ^ (bs.length - 1 - k) * (256 * 256 ^ k)) = 256 ^ (bs.length - 1 - k) *
            (256 * (b.toNat * 256 ^ k)) by ring, Nat.mul_add_div hpos]
        omega

theorem ramBytes_getElem (m : Memory) (a : Addr) (n k : Nat) (hk : k < n) :
    (ramBytes m a n)[k]'(by simpa using hk) = m.read (a + BitVec.ofNat 24 k).toNat := by
  induction n generalizing a k with
  | zero => omega
  | succ n ih =>
    cases k with
    | zero => simp [ramBytes]
    | succ k =>
      simp only [ramBytes, List.getElem_cons_succ]
      rw [ih _ _ (by omega)]
      congr 2
      rw [show BitVec.ofNat 24 (k+1) = 1 + BitVec.ofNat 24 k by rw [Nat.add_comm, BitVec.ofNat_add]; rfl,
          BitVec.add_assoc]

theorem read_memRead (m : Memory) (a : Addr) (n k : Nat) (hk : k < n) :
    (m.read (a + BitVec.ofNat 24 k).toNat).toNat = memRead m a n / 256 ^ (n - 1 - k) % 256 := by
  have := getElem_of_beValue (ramBytes m a n) k (by simpa using hk)
  rw [ramBytes_getElem m a n k hk, ramBytes_length] at this; exact this

/-- A byte of a multi-byte write (20_memory.md R72). -/
theorem read_memWrite {m : Memory} (h : m.wf = true) (a : Addr) {n v : Nat} (hn : n ≤ 2^24) {k : Nat} (hk : k < n) :
    ((memWrite m a n v).read (a + BitVec.ofNat 24 k).toNat).toNat = v / 256 ^ (n - 1 - k) % 256 := by
  rw [read_memRead _ a n k hk, memRead_write h a hn]
  have e : 256 ^ n = 256 ^ (n - 1 - k) * (256 * 256 ^ k) := by
    rw [← pow_succ', ← pow_add]; congr 1; omega
  rw [e, Nat.mod_mul_right_div_self, Nat.mod_mul_right_mod]

/-- A byte no unit of a fill covers keeps its value (43_load_store.md R408). -/
theorem fillCore_outside {m : Memory} (h : m.wf = true) {a : Addr} {p u N : Nat} {x : Addr}
    (hx : ∀ j k, j < N → k < u → x ≠ a + BitVec.ofNat 24 (j * u + k)) :
    (fillCore m a p u N).read x.toNat = m.read x.toNat := by
  induction N with
  | zero => rfl
  | succ N ih =>
    rw [fillCore, memWrite_read_outside (fillCore_wf h ..)]
    · exact ih fun j k hj hk => hx j k (by omega) hk
    · intro k hk
      have := hx N k (by omega) hk
      rwa [BitVec.ofNat_add, ← BitVec.add_assoc] at this

/-- A byte a fill covers holds the pattern byte of the last unit that covers it (43_load_store.md R408). -/
theorem fillCore_byte {m : Memory} (h : m.wf = true) {a : Addr} {p u N : Nat} (hu : u ≤ 2^24) {j k : Nat} (hj :
    j < N) (hk : k < u)
    (hl : ∀ j' k', j < j' → j' < N → k' < u → a + BitVec.ofNat 24 (j' * u + k') ≠ a + BitVec.ofNat 24 (j * u + k)) :
    ((fillCore m a p u N).read (a + BitVec.ofNat 24 (j * u + k)).toNat).toNat = p / 256 ^ (u - 1 - k) % 256 := by
  induction N with
  | zero => omega
  | succ N ih =>
    rw [fillCore]
    by_cases hjN : j = N
    · subst hjN
      rw [BitVec.ofNat_add, ← BitVec.add_assoc]
      exact read_memWrite (fillCore_wf h ..) _ hu hk
    · rw [memWrite_read_outside (fillCore_wf h ..)]
      · exact ih (by omega) fun j' k' h1 h2 h3 => hl j' k' h1 (by omega) h3
      · intro k' hk'
        have := hl N k' (by omega) (by omega) hk'
        rw [BitVec.ofNat_add, ← BitVec.add_assoc] at this
        exact this.symm

theorem setRam_frame {s : State} {m : Memory} {P : Addr → Prop} (h : ∀ x :
    Addr, ¬P x → m.read x.toNat = s.ram.read x.toNat) :
    KeepsAllBut s (s.setRam m) (fun _ => False) (fun _ => False) P :=
  ⟨fun _ _ => rfl, fun _ _ => rfl, h, rfl, rfl, rfl, rfl, rfl⟩

/-- A byte no stamp covers keeps its value (43_load_store.md R409). -/
theorem stampCore_outside {m : Memory} (h : m.wf = true) {a : Addr} {p u N d R : Nat} {x : Addr}
    (hx : ∀ r j k, r < R → j < N → k < u → x ≠ a + BitVec.ofNat 24 (r * d + j * u + k)) :
    (stampCore m a p u N d R).read x.toNat = m.read x.toNat := by
  induction R with
  | zero => rfl
  | succ R ih =>
    rw [stampCore, fillCore_outside (stampCore_wf h ..)]
    · exact ih fun r j k hr hj hk => hx r j k (by omega) hj hk
    · intro j k hj hk
      have := hx R j k (by omega) hj hk
      rwa [Nat.add_assoc, BitVec.ofNat_add, ← BitVec.add_assoc] at this

/-- A byte a stamped fill covers holds the pattern byte of the last unit that covers it (R409). -/
theorem stampCore_byte {m : Memory} (h : m.wf = true) {a : Addr} {p u N d R : Nat} (hu : u ≤ 2^24) {r j k :
    Nat} (hr : r < R) (hj : j < N) (hk : k < u)
    (hl : ∀ r' j' k', r' < R → j' < N → k' < u → (r < r' ∨ (r = r' ∧ j < j')) →
      a + BitVec.ofNat 24 (r' * d + j' * u + k') ≠ a + BitVec.ofNat 24 (r * d + j * u + k)) :
    ((stampCore m a p u N d R).read (a + BitVec.ofNat 24 (r * d + j * u + k)).toNat).toNat = p / 256 ^
        (u - 1 - k) % 256 := by
  induction R with
  | zero => omega
  | succ R ih =>
    rw [stampCore]
    by_cases hrR : r = R
    · subst hrR
      have e : ∀ j k, a + BitVec.ofNat 24 (r * d + j * u + k) = (a + BitVec.ofNat 24 (r * d)) + BitVec.ofNat 24
          (j * u + k) := by
        intro j k; rw [Nat.add_assoc, BitVec.ofNat_add, ← BitVec.add_assoc]
      rw [e]
      refine fillCore_byte (stampCore_wf h ..) hu hj hk fun j' k' h1 h2 h3 => ?_
      rw [← e, ← e]
      exact hl r j' k' (by omega) h2 h3 (.inr ⟨rfl, h1⟩)
    · rw [fillCore_outside (stampCore_wf h ..)]
      · exact ih (by omega) fun r' j' k' h1 h2 h3 h4 => hl r' j' k' (by omega) h2 h3 h4
      · intro j' k' hj' hk'
        have := hl R j' k' (by omega) hj' hk' (.inl (by omega))
        rw [Nat.add_assoc, BitVec.ofNat_add, ← BitVec.add_assoc] at this
        exact this.symm

end Sys2Proof.Machine
end

