-- ==== Sys2Proof/Laws/Float.lean ====
section
/-! SUPPORT. The float primitives: a pattern's fields as bit slices, the size of the scaled integer that stands for a
value, and how far rounding moves a quotient. -/

namespace Sys2Proof.Machine

/-- The sign, the exponent field and the fraction field are the slices of 00_scope.md R10. -/
theorem fields_eq (p : FloatBits) :
    fSign p = p.getLsbD 31 ∧ fExp p = (p.extractLsb' 23 8).toNat ∧ fFrac p = (p.extractLsb' 0 23).toNat := by
  refine ⟨rfl, ?_, ?_⟩
  · simp [fExp, BitVec.extractLsb'_toNat, Nat.shiftRight_eq_div_pow]
  · simp [fFrac, BitVec.extractLsb'_toNat]

/-- The power of two of a normal pattern, as the scaled integer has it. -/
theorem two_zpow_exp {e : Nat} (h : e ≠ 0) : (2 : ℚ) ^ ((e : ℤ) - 127) = 2 ^ (e - 1) / 2 ^ 126 := by
  rw [eq_div_iff (by positivity), ← zpow_natCast, ← zpow_natCast, ← zpow_add₀ (by norm_num)]
  congr 1
  omega

/-- A finite pattern's scaled value lies below that of an infinity. -/
theorem fScaled_lt_inf {p : FloatBits} (h : isNaN p = false) (hi : isInf p = false) : fScaled p < 2 ^ 23 * 2 ^ 254 := by
  have hf : fFrac p < 2 ^ 23 := Nat.mod_lt _ (by decide)
  have he : fExp p < 256 := Nat.mod_lt _ (by decide)
  have hne : fExp p ≠ 255 := by
    intro e
    simp [isNaN, isInf, e] at h hi
    exact hi h
  unfold fScaled
  split
  · calc fFrac p < 2 ^ 23 := hf
      _ ≤ 2 ^ 23 * 2 ^ 254 := Nat.le_mul_of_pos_right _ (by positivity)
  · calc (2 ^ 23 + fFrac p) * 2 ^ (fExp p - 1) < 2 ^ 24 * 2 ^ (fExp p - 1) :=
          Nat.mul_lt_mul_of_pos_right (by omega) (by positivity)
      _ ≤ 2 ^ 24 * 2 ^ 253 := Nat.mul_le_mul_left _ (Nat.pow_le_pow_right (by decide) (by omega))
      _ = 2 ^ 23 * 2 ^ 254 := by norm_num

theorem fScaled_inf {p : FloatBits} (hi : isInf p = true) : fScaled p = 2 ^ 23 * 2 ^ 254 := by
  simp only [isInf, Bool.and_eq_true, decide_eq_true_eq] at hi
  rw [fScaled, hi.1, hi.2, if_neg (by decide), Nat.add_zero]

/-- Rounding moves a quotient by at most half, and by exactly half only to an even integer. -/
theorem roundHalfEven_error (n d : Nat) (hd : 0 < d) :
    2 * |(d * (roundHalfEven n d : Int)) - n| ≤ d ∧
      (2 * |(d * (roundHalfEven n d : Int)) - n| = d → (roundHalfEven n d : Int) % 2 = 0) := by
  have hdm : (n : Int) = d * (n / d : Nat) + (n % d : Nat) := by exact_mod_cast (Nat.div_add_mod n d).symm
  have hr : n % d < d := Nat.mod_lt _ hd
  unfold roundHalfEven
  generalize n / d = q at *
  generalize n % d = r at *
  have e1 : (d : Int) * (q : Int) - n = -r := by omega
  have e2 : (d : Int) * ((q : Int) + 1) - n = d - r := by rw [hdm]; ring
  simp only
  split
  · rw [e1, abs_neg, abs_of_nonneg (by omega)]; omega
  · split
    · push_cast; rw [e2, abs_of_nonneg (by omega)]; omega
    · split
      · rw [e1, abs_neg, abs_of_nonneg (by omega)]; omega
      · push_cast; rw [e2, abs_of_nonneg (by omega)]; omega

end Sys2Proof.Machine
end

