-- ==== Sys2Proof/Laws/Indices.lean ====
section
/-! SUPPORT. The index check against the fields of an instruction in RAM: a part of the decoder ends in BadRegIndex
exactly where an integer index among its fields exceeds 25 (30_encoding.md R128). -/

namespace Sys2Proof.Machine

open Config

variable {α β γ : Type}

/-- The index fields among fields. -/
def indexCount : List FieldShape → Nat
  | [] => 0
  | .raw _ :: fs => indexCount fs
  | .idx :: fs | .fidx :: fs => indexCount fs + 1

/-- The bytes of the fields that are no index fields. -/
def rawCount : List FieldShape → Nat
  | [] => 0
  | .raw n :: fs => n + rawCount fs
  | .idx :: fs | .fidx :: fs => rawCount fs

theorem indexCount_append (fs gs : List FieldShape) : indexCount (fs ++ gs) = indexCount fs + indexCount gs := by
  induction fs with
  | nil => simp [indexCount]
  | cons f fs ih => cases f <;> simp [indexCount, ih]; all_goals omega

theorem rawCount_append (fs gs : List FieldShape) : rawCount (fs ++ gs) = rawCount fs + rawCount gs := by
  induction fs with
  | nil => simp [rawCount]
  | cons f fs ih => cases f <;> simp [rawCount, ih]; all_goals omega

/-- The bytes the fields take behind a mixed pair of k values. -/
def takenBytes (fs : List FieldShape) (k : Nat) : Nat := rawCount fs + (indexCount fs - k)

theorem addr_add_add (a : Addr) (m n : Nat) :
    a + BitVec.ofNat 24 m + BitVec.ofNat 24 n = a + BitVec.ofNat 24 (m + n) := by
  rw [BitVec.add_assoc, BitVec.ofNat_add]

theorem ramBytes_drop (m : Memory) (a : Addr) (n k : Nat) :
    (ramBytes m a n).drop k = ramBytes m (a + BitVec.ofNat 24 k) (n - k) := by
  induction k generalizing a n with
  | zero => simp
  | succ k ih =>
    cases n with
    | zero => simp [ramBytes]
    | succ n =>
      simp only [ramBytes, List.drop_succ_cons, ih]
      rw [show (1 : Addr) = BitVec.ofNat 24 1 from rfl, addr_add_add, Nat.add_comm 1 k, Nat.add_sub_add_right]

theorem intIndices_append (m : Memory) (p : List Nat) (a : Addr) (fs gs : List FieldShape) :
    intIndices m p a (fs ++ gs) = intIndices m p a fs ++
      intIndices m (p.drop (indexCount fs)) (a + BitVec.ofNat 24 (takenBytes fs p.length)) gs := by
  induction fs generalizing p a with
  | nil => simp [intIndices, indexCount, rawCount, takenBytes]
  | cons f fs ih =>
    have one : (1 : Addr) = BitVec.ofNat 24 1 := rfl
    cases f <;> cases p <;>
      simp only [List.cons_append, intIndices, indexCount, rawCount, takenBytes, ih, List.drop_nil,
        List.drop_succ_cons, List.length_nil, List.length_cons, one, addr_add_add, List.cons.injEq, true_and]
    all_goals congr 4
    all_goals omega

/-- A part of the decoder that reads the fields fs checks their indices: over bytes of RAM enough for them it either
ends in BadRegIndex, an index exceeding 25, or it answers, none exceeding 25, and leaves the bytes behind the fields. -/
def Checks (F : Cursor → Except DecodeError (α × Cursor)) (fs : List FieldShape) : Prop :=
  ∀ (m : Memory) (p : List (BitVec 5)) (a : Addr) (n : Nat),
    let k := takenBytes fs p.length
    k ≤ n →
    (F ⟨p, ramBytes m a n⟩ = .error .badRegIndex ∧ ∃ v ∈ intIndices m (p.map BitVec.toNat) a fs, 25 < v) ∨
    ((∃ x, F ⟨p, ramBytes m a n⟩ =
        .ok (x, ⟨p.drop (indexCount fs), ramBytes m (a + BitVec.ofNat 24 k) (n - k)⟩)) ∧
      ∀ v ∈ intIndices m (p.map BitVec.toNat) a fs, v ≤ 25)

/-- A part that passes on what another answers. -/
theorem Checks.map {f : Cursor → Except DecodeError (α × Cursor)} {fs : List FieldShape} (hf : Checks f fs)
    {F : Cursor → Except DecodeError (β × Cursor)} (g : α → β)
    (he : ∀ c e, f c = .error e → F c = .error e) (ho : ∀ c x c', f c = .ok (x, c') → F c = .ok (g x, c')) :
    Checks F fs := by
  intro m p a n k hn
  rcases hf m p a n hn with ⟨h, r⟩ | ⟨⟨x, h⟩, r⟩
  · exact .inl ⟨he _ _ h, r⟩
  · exact .inr ⟨⟨g x, ho _ _ _ h⟩, r⟩

/-- A part that runs two parts one after the other. -/
theorem Checks.seq {f : Cursor → Except DecodeError (α × Cursor)} {g : Cursor → Except DecodeError (β × Cursor)}
    {fs gs : List FieldShape} (hf : Checks f fs) (hg : Checks g gs) {F : Cursor → Except DecodeError (γ × Cursor)}
    (h : α → β → γ) (he : ∀ c e, f c = .error e → F c = .error e)
    (he' : ∀ c x c' e, f c = .ok (x, c') → g c' = .error e → F c = .error e)
    (ho : ∀ c x c' y c'', f c = .ok (x, c') → g c' = .ok (y, c'') → F c = .ok (h x y, c'')) :
    Checks F (fs ++ gs) := by
  intro m p a n k hn
  have hk : k = takenBytes fs p.length + takenBytes gs (p.drop (indexCount fs)).length := by
    simp only [k, takenBytes, indexCount_append, rawCount_append, List.length_drop]
    omega
  simp only [indexCount_append, intIndices_append, List.length_map, List.mem_append, ← List.map_drop]
  rcases hf m p a n (by omega) with ⟨h₁, v, hv, hb⟩ | ⟨⟨x, h₁⟩, hv⟩
  · exact .inl ⟨he _ _ h₁, v, .inl hv, hb⟩
  · rcases hg m (p.drop (indexCount fs)) (a + BitVec.ofNat 24 (takenBytes fs p.length)) (n - takenBytes fs p.length)
      (by omega) with ⟨h₂, v, hv', hb⟩ | ⟨⟨y, h₂⟩, hv'⟩
    · exact .inl ⟨he' _ _ _ _ h₁ h₂, v, .inr hv', hb⟩
    · refine .inr ⟨⟨h x y, ?_⟩, fun v => Or.rec (hv v) (hv' v)⟩
      rw [ho _ _ _ _ _ h₁ h₂, List.drop_drop, addr_add_add, Nat.sub_sub, ← hk]

theorem Checks.nothing (x : α) : Checks (fun c => .ok (x, c)) [] := by
  intro m p a n k _
  exact .inr ⟨⟨x, by simp [k, takenBytes, indexCount, rawCount]⟩, by simp [intIndices]⟩

theorem slot_checks : Checks Cursor.slot [.idx] := by
  intro m p a n k hn
  cases p with
  | cons v p =>
    simp only [Cursor.slot, Cursor.index, intIndices, List.map_cons, List.mem_singleton, exists_eq_left, forall_eq]
    split
    · exact .inr ⟨⟨_, by simp [k, takenBytes, indexCount, rawCount]; rfl⟩, by omega⟩
    · exact .inl ⟨rfl, by omega⟩
  | nil =>
    obtain ⟨n, rfl⟩ : ∃ j, n = j + 1 := ⟨n - 1, by simp [k, takenBytes, indexCount, rawCount] at hn; omega⟩
    simp only [Cursor.slot, Cursor.index, intIndices, List.map_nil, List.mem_singleton, exists_eq_left, forall_eq,
      ramBytes]
    split
    all_goals rename_i h; rw [BitVec.toNat_setWidth] at h
    · exact .inr ⟨⟨_, by simp [k, takenBytes, indexCount, rawCount]; rfl⟩, by omega⟩
    · exact .inl ⟨rfl, by omega⟩

theorem fslot_checks : Checks Cursor.fslot [.fidx] := by
  intro m p a n k hn
  cases p with
  | cons v p =>
    refine .inr ⟨⟨(v.setWidth 4).toFin, ?_⟩, by simp [intIndices]⟩
    simp [Cursor.fslot, Cursor.index, k, takenBytes, indexCount, rawCount]
  | nil =>
    obtain ⟨n, rfl⟩ : ∃ j, n = j + 1 := ⟨n - 1, by simp [k, takenBytes, indexCount, rawCount] at hn; omega⟩
    refine .inr ⟨⟨(((m.read a.toNat).setWidth 5).setWidth 4).toFin, ?_⟩, by simp [intIndices]⟩
    simp [Cursor.fslot, Cursor.index, k, takenBytes, indexCount, rawCount, ramBytes]

theorem fetch_checks (l : Nat) : Checks (Cursor.fetch · l) [.raw l] := by
  intro m p a n k hn
  have hl : k = l := by simp [k, takenBytes, indexCount, rawCount]
  refine .inr ⟨⟨beValue ((ramBytes m a n).take l), ?_⟩, by simp [intIndices]⟩
  rw [hl] at hn ⊢
  simp [Cursor.fetch, hn, indexCount, ramBytes_drop]

theorem decodeMemRef_checks (b : BaseSpec) (x : DispSpec) : Checks (decodeMemRef b x) (memFields b x) := by
  have hb : Checks (decodeBase b) [match b with | .abs => .raw 3 | .ind => .idx] := by
    cases b with
    | abs =>
      exact Checks.map (fetch_checks 3) (fun a => Base.abs (BitVec.ofNat 24 a))
          (fun c e h => by simp [decodeBase, h])
        fun c x c' h => by simp [decodeBase, h]
    | ind =>
      exact Checks.map slot_checks Base.ind (fun c e h => by simp [decodeBase, h])
        fun c x c' h => by simp [decodeBase, h]
  have hx : Checks (decodeDisp x) (match x with | .noDisp => [] | .disp _ => [.idx]) := by
    cases x with
    | noDisp => exact Checks.nothing Disp.noDisp
    | disp wd =>
      exact Checks.map slot_checks (Disp.disp wd) (fun c e h => by simp [decodeDisp, h])
        fun c x c' h => by simp [decodeDisp, h]
  exact Checks.seq hb hx MemRef.mk (fun c e h => by simp [decodeMemRef, h])
    (fun c x c' e h h' => by simp [decodeMemRef, h, h']) fun c x c' y c'' h h' => by simp [decodeMemRef, h, h']

/-- An operand of a given shape checks the indices among its fields. -/
theorem decodeOperand_checks (o : OperandSpec) : Checks (decodeOperand o) (fieldsOf o) := by
  have slot : ∀ (o : OperandSpec) (g : Slot → Operand), (∀ c e, c.slot = .error e → decodeOperand o c = .error e) →
      (∀ c x c', c.slot = .ok (x, c') → decodeOperand o c = .ok (g x, c')) → Checks (decodeOperand o) [.idx] :=
    fun _ g he ho => Checks.map slot_checks g he ho
  have fslot : ∀ (o : OperandSpec) (g : FSlot → Operand), (∀ c e, c.fslot = .error e → decodeOperand o c = .error e) →
      (∀ c x c', c.fslot = .ok (x, c') → decodeOperand o c = .ok (g x, c')) → Checks (decodeOperand o) [.fidx] :=
    fun _ g he ho => Checks.map fslot_checks g he ho
  have fetch : ∀ (o : OperandSpec) (l : Nat) (g : Nat → Operand),
      (∀ c e, c.fetch l = .error e → decodeOperand o c = .error e) →
      (∀ c x c', c.fetch l = .ok (x, c') → decodeOperand o c = .ok (g x, c')) → Checks (decodeOperand o) [.raw l] :=
    fun _ l g he ho => Checks.map (fetch_checks l) g he ho
  have mem : ∀ (o : OperandSpec) (b : BaseSpec) (x : DispSpec) (g : MemRef → Operand),
      (∀ c e, decodeMemRef b x c = .error e → decodeOperand o c = .error e) →
      (∀ c m c', decodeMemRef b x c = .ok (m, c') → decodeOperand o c = .ok (g m, c')) →
      Checks (decodeOperand o) (memFields b x) :=
    fun _ b x g he ho => Checks.map (decodeMemRef_checks b x) g he ho
  cases o with
  | reg w => exact slot _ (Operand.reg w) (by simp +contextual [decodeOperand]) (by simp +contextual [decodeOperand])
  | imm w =>
    exact fetch _ w.bytes (fun v => Operand.imm w (BitVec.ofNat 32 v)) (by simp +contextual [decodeOperand])
      (by simp +contextual [decodeOperand])
  | mem w b x =>
    exact mem _ b x (Operand.mem w) (by simp +contextual [decodeOperand]) (by simp +contextual [decodeOperand])
  | addr b x => exact mem _ b x Operand.addr (by simp +contextual [decodeOperand]) (by simp +contextual [decodeOperand])
  | freg => exact fslot _ Operand.freg (by simp +contextual [decodeOperand]) (by simp +contextual [decodeOperand])
  | fimm =>
    exact fetch _ 4 (fun v => Operand.fimm (BitVec.ofNat 32 v)) (by simp +contextual [decodeOperand])
      (by simp +contextual [decodeOperand])
  | fmem b x => exact mem _ b x Operand.fmem (by simp +contextual [decodeOperand]) (by simp +contextual [decodeOperand])
  | ridx => exact slot _ Operand.ridx (by simp +contextual [decodeOperand]) (by simp +contextual [decodeOperand])
  | fidx => exact fslot _ Operand.fidx (by simp +contextual [decodeOperand]) (by simp +contextual [decodeOperand])
  | tgt t =>
    cases t with
    | tAbs =>
      exact fetch _ 3 (fun a => Operand.tgt (.abs (BitVec.ofNat 24 a))) (by simp +contextual [decodeOperand])
        (by simp +contextual [decodeOperand])
    | tReg =>
      exact slot _ (fun i => Operand.tgt (.reg i)) (by simp +contextual [decodeOperand])
        (by simp +contextual [decodeOperand])

/-- The operand fields of a descriptor check the indices among them. -/
theorem decodeOperands_checks (os : List OperandSpec) : Checks (decodeOperands os) (os.flatMap fieldsOf) := by
  induction os with
  | nil => exact Checks.nothing []
  | cons o os ih =>
    exact Checks.seq (decodeOperand_checks o) ih List.cons (fun c e h => by simp [decodeOperands, h])
      (fun c x c' e h h' => by simp [decodeOperands, h, h']) fun c x c' y c'' h h' => by simp [decodeOperands, h, h']

/-- The fields of an operand list are as long as the descriptor's length counts them (30_encoding.md R121). -/
theorem counts_fieldsOf (os : List OperandSpec) : rawCount (os.flatMap fieldsOf) = (os.map rawBytes).sum ∧
    indexCount (os.flatMap fieldsOf) = (os.map OperandSpec.indexFields).sum := by
  have one : ∀ o : OperandSpec, rawCount (fieldsOf o) = rawBytes o ∧ indexCount (fieldsOf o) = o.indexFields := by
    intro o
    cases o with
    | tgt t => cases t <;> exact ⟨rfl, rfl⟩
    | mem w b x => cases b <;> cases x <;> exact ⟨rfl, rfl⟩
    | addr b x => cases b <;> cases x <;> exact ⟨rfl, rfl⟩
    | fmem b x => cases b <;> cases x <;> exact ⟨rfl, rfl⟩
    | _ => exact ⟨rfl, rfl⟩
  induction os with
  | nil => exact ⟨rfl, rfl⟩
  | cons o os ih => simp [rawCount_append, indexCount_append, one, ih]

end Sys2Proof.Machine
end

