-- ==== Sys2Proof/Laws/Inv.lean ====
section
/-! SUPPORT. The machine's invariant under each operation. -/

namespace Sys2Proof.Machine.State

variable {s : State}

/-- Whatever keeps every field the invariant speaks of keeps the invariant. -/
theorem Inv.congr {t : State} (h : s.Inv) (hram : t.ram = s.ram) (hstack : t.stack = s.stack) (hspr : t.spr ≤ s.spr)
    (hhmem : t.hmem = s.hmem) (hcfg : t.cfg = s.cfg) : t.Inv where
  ramWf := by rw [hram]; exact h.ramWf
  ramKeys := by rw [hram]; exact h.ramKeys
  stackWf := by rw [hstack]; exact h.stackWf
  stackKeys := by rw [hstack, hcfg]; exact h.stackKeys
  sprLe := by rw [hcfg]; exact Nat.le_trans hspr h.sprLe
  hmemWf := by rw [hhmem]; exact h.hmemWf
  errIdFits := by rw [hhmem, hcfg]; exact h.errIdFits
  cfgWf := by rw [hcfg]; exact h.cfgWf

theorem Inv.setRam (h : s.Inv) {m : Memory} (hm : m.wf = true) (hk : ∀ e ∈ m, e.1 < 2 ^ 24) : (s.setRam m).Inv :=
  ⟨hm, hk, h.stackWf, h.stackKeys, h.sprLe, h.hmemWf, h.errIdFits, h.cfgWf⟩

theorem Inv.write (h : s.Inv) (l : Loc) (v : Nat) : (l.write s v).Inv := by
  cases l with
  | reg w i => exact h.congr (by simp [Loc.write]) (by simp) (by simp) (by simp) (by simp)
  | mem w ea => exact h.setRam (memWrite_wf h.ramWf _ _ _) (memWrite_keys h.ramKeys)

theorem Inv.setFlags (h : s.Inv) (f : Flags) : (s.setFlags f).Inv := h.congr rfl rfl (Nat.le_refl _) rfl rfl
theorem Inv.setIpo (h : s.Inv) (f : Addr) : (s.setIpo f).Inv := h.congr rfl rfl (Nat.le_refl _) rfl rfl
theorem Inv.advance (h : s.Inv) (n : Nat) : (s.advance n).Inv := h.setIpo _
theorem Inv.setFreg (h : s.Inv) (k : FSlot) (p : FloatBits) : (s.setFreg k p).Inv :=
    h.congr rfl rfl (Nat.le_refl _) rfl rfl
theorem Inv.reportDivZero (h : s.Inv) : s.reportDivZero.Inv := h.congr rfl rfl (Nat.le_refl _) rfl rfl

theorem Inv.pushBytes (h : s.Inv) {bs : List Byte} (hf : s.spr + bs.length ≤ s.cfg.stackCap) :
    (s.pushBytes bs).Inv where
  ramWf := h.ramWf
  ramKeys := h.ramKeys
  stackWf := stkStore_wf h.stackWf _ _
  stackKeys := stkStore_keys h.stackKeys hf
  sprLe := hf
  hmemWf := h.hmemWf
  errIdFits := h.errIdFits
  cfgWf := h.cfgWf

theorem Inv.faultCode_lt (h : s.Inv) (kind : StackFaultKind) : s.faultCode kind < 2 ^ s.cfg.errIdWidth := by
  have := h.cfgWf
  simp only [Config.Params.wf, Bool.and_eq_true, decide_eq_true_eq] at this
  cases kind <;> simp only [faultCode] <;> tauto

theorem Inv.stackFault (h : s.Inv) (kind : StackFaultKind) : (s.stackFault kind).Inv where
  ramWf := h.ramWf
  ramKeys := h.ramKeys
  stackWf := h.stackWf
  stackKeys := h.stackKeys
  sprLe := Nat.zero_le _
  hmemWf := Hmem.put_wf h.hmemWf _ _
  errIdFits := by
    rw [stackFault_hmem, stackFault_cfg, Hmem.read_put h.hmemWf, if_pos rfl]
    exact h.faultCode_lt kind
  cfgWf := h.cfgWf

end Sys2Proof.Machine.State
end

