-- ==== Sys2Proof/Laws/Stack.lean ====
section
/-! SUPPORT. The stack: what a push, the two range pops and a stack fault leave, each said once. -/

namespace Sys2Proof.Machine

/-- Taking a stack fault, said once (60_exceptions.md R501). -/
theorem stackFault_took {s : State} (h : s.hmem.wf = true) (kind : StackFaultKind) :
    TookStackFault s (s.stackFault kind) kind (s.faultCode kind) where
  log := rfl
  spr := rfl
  ipo := rfl
  errId := by rw [State.stackFault_hmem, Hmem.read_put h, if_pos rfl]
  slots i hi := by rw [State.stackFault_hmem, Hmem.read_put h, if_neg hi]
  regs := rfl
  fregs := rfl
  flags := rfl
  ram := rfl
  stack := rfl
  cfg := rfl

theorem stkBytes_getElem (m : Memory) (i n k : Nat) (hk : k < n) :
    (stkBytes m i n)[k]'(by simpa using hk) = m.read (i + k) := by
  induction n generalizing i k with
  | zero => omega
  | succ n ih =>
    cases k with
    | zero => rfl
    | succ k => simp only [stkBytes, List.getElem_cons_succ]; rw [ih _ _ (by omega)]; congr 1; omega

/-- A push that fits, said once (41_stack.md R301). -/
theorem pushBytes_onto {s : State} (h : s.stack.wf = true) (bs : List Byte) : PushedOnto s (s.pushBytes bs) bs where
  bytes k hk := by
    have := stkBytes_store h s.spr bs
    rw [State.pushBytes_stack, ← stkBytes_getElem _ _ bs.length k hk]
    simp only [this]
  others x hx := stkStore_read_outside h hx
  spr := rfl
  regs := rfl
  fregs := rfl
  flags := rfl
  ipo := rfl
  ram := rfl
  hmem := rfl
  events := rfl
  cfg := rfl

theorem slotBytes_eq_beBytes (s : State) (w : Width) (i : Slot) :
    s.slotBytes i w.bytes = beBytes w.bytes (s.group w i) := by
  have := beBytes_beValue (s.slotBytes i w.bytes)
  rw [State.slotBytes_length] at this; exact this.symm

theorem slotBytes_range (s : State) (a : Slot) (n : Nat) :
    s.slotBytes a n = (List.range n).map fun j => s.slot (a + Fin.ofNat 26 j) := by
  induction n generalizing a with
  | zero => rfl
  | succ n ih =>
    rw [State.slotBytes, ih, List.range_succ_eq_map, List.map_cons, List.map_map]
    have e0 : a + Fin.ofNat 26 0 = a := by apply Fin.ext; simp [Fin.ofNat]
    rw [e0]
    congr 1
    apply List.map_congr_left
    intro j _
    simp only [Function.comp]
    congr 1
    apply Fin.ext
    simp only [Fin.val_add, Fin.ofNat]
    omega

theorem fregBytes_range (s : State) (a : FSlot) (n : Nat) :
    s.fregBytes a n = (List.range n).flatMap fun j => beBytes 4 (s.freg (a + Fin.ofNat 16 j)).toNat := by
  induction n generalizing a with
  | zero => rfl
  | succ n ih =>
    rw [State.fregBytes, ih, List.range_succ_eq_map, List.flatMap_cons, List.flatMap_map]
    have e0 : a + Fin.ofNat 16 0 = a := by apply Fin.ext; simp [Fin.ofNat]
    rw [e0]
    congr 1
    congr 1
    funext j
    congr 3
    apply Fin.ext
    simp only [Fin.val_add, Fin.ofNat]
    omega

/-- A slot out of the range keeps its value (41_stack.md R306). -/
theorem popSlots_outside (s : State) (i : Slot) (n : Nat) (j : Slot) (hj : ∀ k < n, j ≠ i - Fin.ofNat 26 k) :
    (s.popSlots i n).slot j = s.slot j := by
  induction n generalizing s i with
  | zero => rfl
  | succ n ih =>
    rw [State.popSlots, ih]
    · rw [State.topBytes]
      have : ∀ b, stkBytes s.stack (s.spr - 1) 1 = [b] →
          ((s.drop 1).setSlots i (stkBytes s.stack (s.spr - 1) 1)).slot j = s.slot j := by
        intro b hb; rw [hb]
        show ((s.drop 1).setSlot i b).slot j = _
        rw [State.slot_setSlot, if_neg]; rfl
        have := hj 0 (by omega)
        simpa using this
      exact this _ rfl
    · intro k hk e
      apply hj (k+1) (by omega)
      rw [e]; apply Fin.ext
      simp only [Fin.sub_def, Fin.ofNat]
      simp
      omega

/-- What the loop of a range pop leaves in its registers (41_stack.md R306). -/
theorem popSlots_slot (s : State) (i : Slot) (n : Nat) (hn : n ≤ 26) (hs : n ≤ s.spr) (j : Nat) (hj : j < n) :
    (s.popSlots i n).slot (i - Fin.ofNat 26 j) = s.stack.read (s.spr - 1 - j) := by
  induction n generalizing s i j with
  | zero => omega
  | succ n ih =>
    rw [State.popSlots]
    cases j with
    | zero =>
      rw [popSlots_outside]
      · show ((s.drop 1).setSlot i (s.stack.read (s.spr - 1))).slot _ = _
        rw [State.slot_setSlot, if_pos (by simp)]; rfl
      · intro k hk e
        have := congrArg Fin.val e
        simp only [Fin.sub_def, Fin.ofNat] at this
        simp at this
        have := i.isLt
        omega
    | succ j =>
      have := ih ((s.drop 1).setSlots i (s.topBytes 1)) (i - 1) (by omega) (by simp; omega) j (by omega)
      simp only [State.setSlots_stack, State.setSlots_spr, State.drop_stack, State.drop_spr] at this
      rw [show s.spr - 1 - (j+1) = s.spr - 1 - 1 - j by omega, ← this]
      congr 1
      apply Fin.ext
      simp only [Fin.sub_def, Fin.ofNat]
      simp
      omega

/-- A float register out of the range keeps its value (41_stack.md R310). -/
theorem popFregs_outside (s : State) (i : FSlot) (n : Nat) (j : FSlot) (hj : ∀ k < n, j ≠ i - Fin.ofNat 16 k) :
    (s.popFregs i n).freg j = s.freg j := by
  induction n generalizing s i with
  | zero => rfl
  | succ n ih =>
    rw [State.popFregs, ih]
    · rw [State.freg_setFreg, if_neg]; rfl
      have := hj 0 (by omega)
      simpa using this
    · intro k hk e
      apply hj (k+1) (by omega)
      rw [e]; apply Fin.ext
      simp only [Fin.sub_def, Fin.ofNat]
      simp
      omega

/-- What the loop of a float range pop leaves in its registers (41_stack.md R310). -/
theorem popFregs_freg (s : State) (i : FSlot) (n : Nat) (hn : n ≤ 16) (hs : 4 * n ≤ s.spr) (j : Nat) (hj : j < n) :
    ((s.popFregs i n).freg (i - Fin.ofNat 16 j)).toNat = beValue (stkBytes s.stack (s.spr - 4 * (j + 1)) 4) := by
  induction n generalizing s i j with
  | zero => omega
  | succ n ih =>
    rw [State.popFregs]
    cases j with
    | zero =>
      rw [popFregs_outside]
      · rw [State.freg_setFreg, if_pos (by simp), BitVec.toNat_ofNat, Nat.mod_eq_of_lt]; rfl
        have := beValue_lt (s.topBytes 4); simpa [State.topBytes] using this
      · intro k hk e
        have := congrArg Fin.val e
        simp only [Fin.sub_def, Fin.ofNat] at this
        simp at this
        have := i.isLt
        omega
    | succ j =>
      have := ih ((s.drop 4).setFreg i (BitVec.ofNat 32 (beValue (s.topBytes 4)))) (i - 1) (by omega)
          (by simp; omega) j (by omega)
      simp only [State.setFreg_stack, State.setFreg_spr, State.drop_stack, State.drop_spr] at this
      rw [show s.spr - 4 * (j+1+1) = s.spr - 4 - 4 * (j+1) by omega, ← this]
      congr 2
      apply Fin.ext
      simp only [Fin.sub_def, Fin.ofNat]
      simp
      omega

theorem setSlot_slot (s : State) (i : Slot) : s.setSlot i (s.slot i) = s := by
  cases s; simp [State.setSlot, State.setRegs, State.slot]

theorem setSlots_slotBytes (s : State) (i : Slot) (n : Nat) : s.setSlots i (s.slotBytes i n) = s := by
  induction n generalizing i with
  | zero => rfl
  | succ n ih => rw [State.slotBytes, State.setSlots, setSlot_slot, ih]

theorem setFreg_freg (s : State) (k : FSlot) : s.setFreg k (s.freg k) = s := by
  cases s; simp [State.setFreg, State.setFregs, State.freg]

end Sys2Proof.Machine
end

