-- ==== Sys2Proof/Tests/Slice0.lean ====
section
/-! SUPPORT. The model's own tests. Expected results are those of 95_test_vectors.md (named T, V) or worked out by hand
from the rule named; opcode bytes are that file's `TEST_OPMAP`, with a few more second-level bytes for the op tags it
leaves out. The witnesses show that the hypotheses of the statements can be met. -/

namespace Sys2Proof.Tests

open Sys2Proof Sys2Proof.Config Sys2Proof.Machine

/-! ### The test machine -/

/-- `TEST_OPMAP`, loads, stores and fills; bytes from 0x80 on are this file's own. -/
def tableLd : List (Byte × Descriptor) :=
  [(0x10, ⟨.LD, [.reg .w8, .imm .w8], false⟩), (0x11, ⟨.LD, [.reg .w16, .imm .w16], false⟩),
   (0x13, ⟨.LD, [.reg .w8, .mem .w8 .ind .noDisp], false⟩),
   (0x15, ⟨.LD, [.reg .w8, .mem .w8 .ind (.disp .d8)], false⟩),
   (0x60, ⟨.FILL, [.addr .abs .noDisp, .imm .w8, .imm .w8], false⟩), (0x70, ⟨.LDFI, [.freg, .fimm], false⟩),
   (0x72, ⟨.STF, [.fmem .abs .noDisp, .freg], false⟩), (0x73, ⟨.LDXF, [.reg .w8, .freg], false⟩),
   (0x80, ⟨.LDFF, [.freg, .freg], false⟩), (0x81, ⟨.LDFM, [.freg, .fmem .abs (.disp .d16)], false⟩),
   (0x82, ⟨.LDFX, [.freg, .reg .w32], false⟩),
   (0x83, ⟨.FILLS, [.addr .ind .noDisp, .imm .w8, .imm .w16, .reg .w8], false⟩)]

/-- `TEST_OPMAP`, the ALU; bytes from 0x80 on are this file's own. -/
def tableAlu : List (Byte × Descriptor) :=
  [(0x20, ⟨.ADD, [.reg .w8, .reg .w8], false⟩), (0x23, ⟨.SUB, [.reg .w8, .imm .w8], false⟩),
   (0x24, ⟨.CP, [.reg .w8, .imm .w8], false⟩), (0x25, ⟨.MUL, [.reg .w8, .reg .w8], false⟩),
   (0x26, ⟨.DIV, [.reg .w8, .reg .w8], false⟩), (0x27, ⟨.SDIV, [.reg .w8, .reg .w8], false⟩),
   (0x28, ⟨.DIVR, [.reg .w8, .imm .w8, .reg .w8], false⟩), (0x29, ⟨.NAND, [.reg .w8, .imm .w8], false⟩),
   (0x71, ⟨.ADDF, [.reg .w8, .freg], false⟩), (0x84, ⟨.SUBF, [.reg .w8, .fimm], false⟩),
   (0x85, ⟨.SDIVR, [.reg .w8, .imm .w8, .mem .w8 .abs .noDisp], false⟩), (0x86, ⟨.FCP, [.freg, .freg], false⟩),
   (0x87, ⟨.XNOR, [.mem .w8 .ind .noDisp, .imm .w8], false⟩), (0x88, ⟨.IMPLY, [.reg .w8, .imm .w8], false⟩),
   (0xA0, ⟨.FDENOM, [.freg, .imm .w16], false⟩)]

/-- `TEST_OPMAP`, stack and control; bytes from 0x80 on are this file's own. -/
def tableStack : List (Byte × Descriptor) :=
  [(0x30, ⟨.DJNZ, [.reg .w8, .tgt .tAbs], false⟩), (0x32, ⟨.DJNZ, [.reg .w8, .tgt .tReg], false⟩),
   (0x40, ⟨.PUSHR, [.ridx, .ridx], true⟩), (0x43, ⟨.PUSHR, [.ridx, .ridx], true⟩),
   (0x47, ⟨.POPR, [.ridx, .ridx], true⟩), (0x50, ⟨.PUSH, [.reg .w16], false⟩), (0x51, ⟨.POP, [.reg .w16], false⟩),
   (0x53, ⟨.PUSHF, [.freg], false⟩), (0x54, ⟨.POPF, [.freg], false⟩), (0x8D, ⟨.PUSHFR, [.fidx, .fidx], true⟩),
   (0x91, ⟨.POPFR, [.fidx, .fidx], true⟩)]

/-- The test opcode map: `0x01` and a second byte; `0xFF` foreign; `0x05` a one-byte opcode; every other byte none. -/
def opmap : OpMap :=
  [(0x01, .sub (tableLd ++ (tableAlu ++ tableStack))), (0xFF, .foreign),
   (0x05, .direct ⟨.ADD, [.mem .w8 .abs (.disp .d8), .reg .w16], false⟩)]

/-- The OPEN parameters of the test machine; `STACK_CAP = 256` as in 95_test_vectors.md. -/
def cfg : Params where
  opmap := opmap
  stackCap := 256
  hmemErrHandler := 0
  hmemErrId := 1
  errIdWidth := 8
  errStackOverflow := 1
  errStackUnderflow := 2
  resetIpo := 0x100
  flagBit := FlagBits.listed
  errDivZeroArg := 9

/-- The state after reset of the test machine, with bytes in RAM at IPO and a handler address in HMEM. -/
def load (ipo : Addr) (bs : List Byte) : State :=
  { State.reset with cfg := cfg, ipo := ipo, ram := ramStore [] ipo bs, hmem := [(0, 0x800)] }

/-- A state with nothing in RAM. -/
def s₀ : State := load 0x100 []

/-- The outcome is a next state of which f holds. -/
def after (o : Host.Outcome State Fault Refusal) (f : State → Bool) : Bool :=
  match o with
  | .next t => f t
  | _ => false

/-- Group reads and writes by width and slot, for short test lines. -/
def A : ILoc := .reg .w8 0
def B : ILoc := .reg .w8 1
def AB : ILoc := .reg .w16 0
def atAbs (a : Addr) : MemRef := ⟨.abs a, .noDisp⟩

/-- The four arithmetic flags. -/
def zcsv (t : State) : List Bool := [t.flags.z, t.flags.c, t.flags.s, t.flags.v]

/-- A state with values in A and B. -/
def ab (a b : Nat) : State := (s₀.setGroup .w8 0 a).setGroup .w8 1 b

/-- A state with a value in A and a pattern in F0. -/
def af (a : Nat) (p : FloatBits) : State := (s₀.setGroup .w8 0 a).setFreg 0 p

/-! ### Well-formedness: every check refuses an ill-formed term -/

theorem test_wf_imm_refused : Instr.wf (.add A (.imm .w8 0x100)) = false := by decide
theorem test_wf_imm_max : Instr.wf (.add A (.imm .w8 0xFF)) = true := by decide
theorem test_wf_fill_pattern_refused : Instr.wf (.fill (atAbs 0) (.imm .w16 0x10000) (.imm .w8 1)) = false :=
    by decide
theorem test_wf_fills_count_refused :
    Instr.wf (.fills (atAbs 0) (.imm .w8 1) (.imm .w24 0x1000000) .w8 0) = false := by decide
theorem test_wf_ld_widths_refused : Instr.wf (.ld A (.reg .w16 1)) = false := by decide
theorem test_wf_fdenom_imm_refused : Instr.wf (.fdenom [.imm .w8 0x1FF]) = false := by decide
theorem test_wf_descriptor_row_refused : Descriptor.wf ⟨.ADD, [.imm .w8, .reg .w8], false⟩ = false := by decide
theorem test_wf_descriptor_ld_widths_refused : Descriptor.wf ⟨.LD, [.reg .w8, .reg .w16], false⟩ = false := by decide
theorem test_wf_descriptor_mixed_refused : Descriptor.wf ⟨.ADD, [.reg .w8, .imm .w8], true⟩ = false := by decide
theorem test_wf_djnz_disp_refused :
    Descriptor.wf ⟨.DJNZ, [.mem .w8 .abs (.disp .d8), .tgt .tAbs], false⟩ = false := by decide
theorem test_wf_map_refused : wfOpMap [(0x10, .direct ⟨.PUSH, [], false⟩)] = false := by decide
theorem test_wf_codes_refused : Params.wf { cfg with errStackUnderflow := 1 } = false := by decide
theorem test_wf_code_width_refused : Params.wf { cfg with errStackUnderflow := 256 } = false := by decide
theorem test_wf_flag_bits_refused : Params.wf { cfg with flagBit := ⟨0, 0, 2, 3, 4, 5, 6, 7⟩ } = false := by decide
theorem test_wf_stack_cap_refused : Params.wf { cfg with stackCap := 0 } = false := by decide
theorem test_wf_cfg : cfg.wf = true := by decide

/-! ### Decoding: a word for every constructor -/

theorem test_decode_ld : decode opmap [1, 0x15, 0x04, 0x00, 0x03] =
    .ok (.ld (.reg .w8 4) (.mem .w8 ⟨.ind 0, .disp .d8 3⟩), []) := by rfl
theorem test_decode_ldff : decode opmap [1, 0x80, 0x1F, 0xF2] = .ok (.ldff 15 2, []) := by rfl
theorem test_decode_ldfi : decode opmap [1, 0x70, 3, 0x3F, 0xC0, 0, 0] = .ok (.ldfi 3 0x3FC00000, []) := by rfl
theorem test_decode_ldfm : decode opmap [1, 0x81, 2, 1, 2, 3, 25] =
    .ok (.ldfm 2 ⟨.abs 0x010203, .disp .d16 25⟩, []) := by rfl
theorem test_decode_stf : decode opmap [1, 0x72, 0, 1, 0, 6] = .ok (.stf (atAbs 0x100) (.freg 6), []) := by rfl
theorem test_decode_ldfx : decode opmap [1, 0x82, 4, 9] = .ok (.ldfx 4 (.reg .w32 9), []) := by rfl
theorem test_decode_ldxf : decode opmap [1, 0x73, 5, 9] = .ok (.ldxf (.reg .w8 5) 9, []) := by rfl
theorem test_decode_fill : decode opmap [1, 0x60, 0, 0x20, 0, 0xEE, 6] =
    .ok (.fill (atAbs 0x2000) (.imm .w8 0xEE) (.imm .w8 6), []) := by rfl
theorem test_decode_fills : decode opmap [1, 0x83, 3, 0xEE, 0x01, 0x02, 7] =
    .ok (.fills ⟨.ind 3, .noDisp⟩ (.imm .w8 0xEE) (.imm .w16 0x0102) .w8 7, []) := by rfl
theorem test_decode_add : decode opmap [5, 0, 1, 0, 2, 3, 0xAA] =
    .ok (.add (.mem .w8 ⟨.abs 0x100, .disp .d8 2⟩) (.reg .w16 3), [0xAA]) := by rfl
theorem test_decode_sub : decode opmap [1, 0x23, 2, 7] = .ok (.sub (.reg .w8 2) (.imm .w8 7), []) := by rfl
theorem test_decode_addf : decode opmap [1, 0x71, 2, 7] = .ok (.addf (.reg .w8 2) (.freg 7), []) := by rfl
theorem test_decode_subf : decode opmap [1, 0x84, 2, 0x3F, 0, 0, 1] =
    .ok (.subf (.reg .w8 2) (.fimm 0x3F000001), []) := by rfl
theorem test_decode_mul : decode opmap [1, 0x25, 2, 7] = .ok (.mul (.reg .w8 2) (.reg .w8 7), []) := by rfl
theorem test_decode_div : decode opmap [1, 0x26, 2, 7] = .ok (.div (.reg .w8 2) (.reg .w8 7), []) := by rfl
theorem test_decode_divr : decode opmap [1, 0x28, 2, 7, 4] =
    .ok (.divr (.reg .w8 2) (.imm .w8 7) (.reg .w8 4), []) := by rfl
theorem test_decode_sdiv : decode opmap [1, 0x27, 2, 7] = .ok (.sdiv (.reg .w8 2) (.reg .w8 7), []) := by rfl
theorem test_decode_sdivr : decode opmap [1, 0x85, 2, 7, 0, 0, 4] =
    .ok (.sdivr (.reg .w8 2) (.imm .w8 7) (.mem .w8 (atAbs 4)), []) := by rfl
theorem test_decode_cp : decode opmap [1, 0x24, 2, 7] = .ok (.cp (.reg .w8 2) (.imm .w8 7), []) := by rfl
theorem test_decode_fcp : decode opmap [1, 0x86, 2, 7] = .ok (.fcp (.freg 2) (.freg 7), []) := by rfl
theorem test_decode_nand : decode opmap [1, 0x29, 2, 7] = .ok (.nand (.reg .w8 2) (.imm .w8 7), []) := by rfl
theorem test_decode_xnor : decode opmap [1, 0x87, 2, 7] =
    .ok (.xnor (.mem .w8 ⟨.ind 2, .noDisp⟩) (.imm .w8 7), []) := by rfl
theorem test_decode_imply : decode opmap [1, 0x88, 2, 7] = .ok (.imply (.reg .w8 2) (.imm .w8 7), []) := by rfl
theorem test_decode_push : decode opmap [1, 0x50, 25] = .ok (.push .w16 25, []) := by rfl
theorem test_decode_pop : decode opmap [1, 0x51, 2] = .ok (.pop .w16 2, []) := by rfl
/-- T1.8: `PUSH Y, B` and `POP Y, B`. -/
theorem test_decode_pushr : decode opmap [1, 0x43, 1] = .ok (.pushr 24 1, []) := by rfl
theorem test_decode_popr : decode opmap [1, 0x47, 1] = .ok (.popr 24 1, []) := by rfl
theorem test_decode_pushf : decode opmap [1, 0x53, 0xF3] = .ok (.pushf 3, []) := by rfl
theorem test_decode_popf : decode opmap [1, 0x54, 5] = .ok (.popf 5, []) := by rfl
/-- R109: bit 4 of a float index from the pair is ignored; `last` = 0x8D carries bit 3 of the first index. -/
theorem test_decode_pushfr : decode opmap [1, 0x8D, 0xD1] = .ok (.pushfr 14 1, []) := by rfl
theorem test_decode_popfr : decode opmap [1, 0x91, 0xC1] = .ok (.popfr 14 1, []) := by rfl
theorem test_decode_djnz : decode opmap [1, 0x30, 1, 0, 1, 8] = .ok (.djnz (.reg .w8 1) (.abs 0x108), []) := by rfl
theorem test_decode_fdenom : decode opmap [1, 0xA0, 2, 0x12, 0x34] =
    .ok (.fdenom [.freg 2, .imm .w16 0x1234], []) := by rfl

/-- The encoder writes the same bytes: a mixed form, an unmixed one, and a form the map does not list. -/
theorem test_encode : encode opmap (.pushr 24 1) = some [1, 0x43, 1] ∧
    encode opmap (.ldfi 3 0x3FC00000) = some [1, 0x70, 3, 0x3F, 0xC0, 0, 0] ∧
    encode opmap (.push .w32 0) = none := by decide

/-- The longest instructions of a candidate row fit `longestInstr`. -/
theorem test_longest : bodyLength ⟨.DIVR, [.mem .w32 .abs (.disp .d24), .mem .w32 .abs (.disp .d24),
    .mem .w32 .abs (.disp .d24)], false⟩ + 2 = 14 ∧
    bodyLength ⟨.FILLS, [.addr .abs (.disp .d24), .imm .w32, .imm .w32, .reg .w8], false⟩ + 2 = 15 := by decide

/-! ### Steps: dispatch (95_test_vectors.md 2.1) -/

/-- V1. -/
theorem test_step_v1 : after (step (load 0x100 [1, 0x10, 0, 0x2A])) (fun t => t.slot 0 == 0x2A && t.ipo == 0x104) :=
  by decide
/-- V2, V3, V4. -/
theorem test_step_illegal_foreign : step (load 0x100 [2]) = .refused .illegal ∧
    step (load 0x100 [1, 0]) = .refused .illegal ∧ step (load 0x100 [0xFF]) = .refused .foreign := ⟨rfl, rfl, rfl⟩
/-- V5, V6. -/
theorem test_step_bad_index : step (load 0x100 [1, 0x10, 0x1A, 5]) = .refused .badRegIndex ∧
    step (load 0x100 [1, 0x13, 0, 0x1F]) = .refused .badRegIndex := ⟨rfl, rfl⟩
/-- V8: an instruction that lies across the top of RAM. -/
theorem test_step_fetch_wraps : after (step (load 0xFFFFFE [1, 0x10, 0, 7]))
    (fun t => t.slot 0 == 7 && t.ipo == 2) := by decide

/-! ### Steps: ALU (95_test_vectors.md 1 and 2.3) -/

/-- T1.1 and V21. -/
theorem test_add : after (exec (.add A (.imm .w8 1)) (ab 0xFF 0))
    (fun t => t.slot 0 == 0 && zcsv t == [true, true, false, false]) ∧
    after (exec (.add A (.reg .w16 1)) ((ab 1 0).setGroup .w16 1 0x01FF))
      (fun t => t.slot 0 == 0 && zcsv t == [true, true, false, false]) := by decide
/-- T1.2 at W = 8, and V25. -/
theorem test_sub : after (exec (.sub A (.imm .w8 1)) s₀)
    (fun t => t.slot 0 == 0xFF && zcsv t == [false, true, true, false]) ∧
    after (exec (.sub A (.reg .w16 1)) ((ab 5 0).setGroup .w16 1 0x0105))
      (fun t => t.slot 0 == 0 && zcsv t == [true, true, false, false]) := by decide
/-- V28, V29. -/
theorem test_addf : after (exec (.addf A (.freg 0)) (af 3 0xC0A00000))
      (fun t => t.slot 0 == 0 && zcsv t == [true, false, false, true]) ∧
    after (exec (.addf A (.freg 0)) (af 1 0x40200000))
      (fun t => t.slot 0 == 3 && zcsv t == [false, false, false, false]) := by decide
/-- V32, V33. -/
theorem test_addf_special : exec (.addf A (.freg 0)) (af 1 0x7FC00000) = .refused .floatNaN ∧
    after (exec (.addf AB (.freg 0)) (af 0 0x7F800000))
      (fun t => t.group .w16 0 == 0xFFFF && zcsv t == [false, false, true, true]) := ⟨by rfl, by decide⟩
/-- V34, V35. -/
theorem test_subf : after (exec (.subf A (.freg 0)) (af 10 0xC0000000))
      (fun t => t.slot 0 == 0x0C && zcsv t == [false, false, false, false]) ∧
    after (exec (.subf A (.freg 0)) (af 1 0x3FC00000))
      (fun t => t.slot 0 == 0 && zcsv t == [true, false, false, true]) := by decide
/-- V37. -/
theorem test_mul : after (exec (.mul A (.reg .w8 0)) (ab 0xFF 0))
    (fun t => t.slot 0 == 1 && zcsv t == [false, true, false, false]) := by decide
/-- T1.3, V40. -/
theorem test_div : after (exec (.div A (.reg .w8 1)) (ab 0x2A 0))
      (fun t => t.slot 0 == 0xFF && zcsv t == [false, true, true, false] && t.events == []) ∧
    after (exec (.div A (.reg .w8 1)) (ab 7 2)) (fun t => t.slot 0 == 3 && zcsv t == [false, false, false, false]) :=
  by decide
/-- V42, V43. -/
theorem test_divr : after (exec (.divr A (.imm .w8 3) B) (ab 20 0)) (fun t => t.slot 0 == 6 && t.slot 1 == 2) ∧
    after (exec (.divr A (.imm .w8 5) A) (ab 17 0))
      (fun t => t.slot 0 == 2 && zcsv t == [false, false, false, false]) := by decide
/-- V44, V46. -/
theorem test_sdiv : after (exec (.sdiv A (.reg .w8 1)) (ab 0xF9 2))
      (fun t => t.slot 0 == 0xFD && zcsv t == [false, false, true, false]) ∧
    after (exec (.sdiv A (.reg .w8 1)) (ab 0x80 0xFF))
      (fun t => t.slot 0 == 0x80 && zcsv t == [false, false, true, false]) := by decide
/-- T1.4. -/
theorem test_sdiv_zero : after (exec (.sdiv A (.reg .w8 1)) (ab 0x2A 0))
    (fun t => t.slot 0 == 0x2A && t.events == [.err 9] && t.hmem == s₀.hmem) := by decide
/-- V47, V48. -/
theorem test_sdivr : after (exec (.sdivr A (.imm .w8 2) B) (ab 0xF9 0))
    (fun t => t.slot 0 == 0xFD && t.slot 1 == 0xFF) ∧
    after (exec (.sdivr A (.imm .w8 0xFE) B) (ab 7 0)) (fun t => t.slot 0 == 0xFD && t.slot 1 == 1) := by decide
/-- T1.5 (0x7F against 0x80), V58. -/
theorem test_cp : after (exec (.cp A (.reg .w8 1)) (ab 0x7F 0x80))
      (fun t => zcsv t == [false, true, true, false] && t.flags.lt && !t.flags.gt && !t.flags.eq) ∧
    after (exec (.cp A (.reg .w16 1)) ((ab 1 0).setGroup .w16 1 0x0101))
      (fun t => t.slot 0 == 1 && zcsv t == [false, true, false, false] && t.flags.lt && !t.flags.gt) := by decide
/-- T1.5, the float path: the two zeros, and -∞ below -1.0e30. -/
theorem test_fcp : after (exec (.fcp (.freg 0) (.fimm 0x80000000)) s₀)
      (fun t => t.flags == ⟨true, false, false, false, false, true, false, false⟩) ∧
    after (exec (.fcp (.freg 0) (.fimm 0xF149F2CA)) (af 0 0xFF800000))
      (fun t => t.flags == ⟨false, true, true, false, false, false, false, true⟩) := by decide
/-- V51, V57. -/
theorem test_nand : after (exec (.nand A (.imm .w8 0xCC)) (ab 0xF0 0))
    (fun t => t.slot 0 == 0x3F && t.flags == s₀.flags) ∧
    after (exec (.nand A (.reg .w16 1)) ((ab 0xFF 0).setGroup .w16 1 0x12F0)) (fun t => t.slot 0 == 0x0F) := by decide
/-- V53, V55. -/
theorem test_xnor_imply : after (exec (.xnor A (.imm .w8 0xCC)) (ab 0xF0 0)) (fun t => t.slot 0 == 0xC3) ∧
    after (exec (.imply A (.imm .w8 0xCC)) (ab 0xF0 0)) (fun t => t.slot 0 == 0xCF) := by decide
/-- V59. -/
theorem test_fdenom : step (load 0x100 [1, 0xA0, 2, 0x12, 0x34]) = .refused .unspecified := by rfl

/-! ### Steps: stack (95_test_vectors.md 2.4, 2.7) -/

/-- V60, and T1.7 with SPR = 254. -/
theorem test_push : after (exec (.push .w24 0) (s₀.setGroup .w24 0 0x123456))
      (fun t => stkBytes t.stack 0 3 == [0x12, 0x34, 0x56] && t.spr == 3) ∧
    after (exec (.push .w16 0) ((s₀.setGroup .w16 0 0x1234).setSpr 254))
      (fun t => stkBytes t.stack 254 2 == [0x12, 0x34] && t.spr == 256) := by decide
/-- V61. -/
theorem test_pop : after (exec (.pop .w16 3) ((s₀.setStack (stkStore [] 0 [0x12, 0x34, 0x56])).setSpr 3))
    (fun t => t.group .w16 3 == 0x3456 && t.spr == 1) := by decide
/-- V63. -/
theorem test_push_overflow : after (exec (.push .w8 0) (s₀.setSpr 256))
    (fun t => t.spr == 0 && t.ipo == 0x800 && t.hmem.read 1 == 1 && t.events == [.log .overflow 0x100]) := by decide
/-- V120: `POP AB` at 0x000500 with SPR = 1. -/
theorem test_pop_underflow : after (step ((load 0x500 [1, 0x51, 0]).setSpr 1))
    (fun t => t.spr == 0 && t.ipo == 0x800 && t.hmem.read 1 == 2 && t.events == [.log .underflow 0x503] &&
      t.regs == s₀.regs) := by decide
/-- V66: `PUSH B, A` pushes all 26 slots, B first and A last. -/
theorem test_pushr : after (exec (.pushr 1 0) (ab 0xAA 0xBB))
    (fun t => t.spr == 26 && t.stack.read 0 == 0xBB && t.stack.read 25 == 0xAA) := by decide
/-- T1.8: `POP Y, B`. -/
theorem test_popr : after (exec (.popr 24 1) ((s₀.setStack (stkStore [] 0 [0x19, 0x1A, 0xAA, 0xBB])).setSpr 4))
    (fun t => t.slot 24 == 0x19 && t.slot 25 == 0x1A && t.slot 0 == 0xAA && t.slot 1 == 0xBB && t.spr == 0) :=
        by decide
/-- V69, and the float pattern back (R308). -/
theorem test_pushf_popf : after (exec (.pushf 2) (s₀.setFreg 2 0x3F800000))
      (fun t => stkBytes t.stack 0 4 == [0x3F, 0x80, 0, 0] && t.spr == 4) ∧
    after (exec (.popf 5) ((s₀.setStack (stkStore [] 0 [0x3F, 0x80, 0, 0])).setSpr 4))
      (fun t => t.freg 5 == 0x3F800000 && t.spr == 0) := by decide
/-- V71, V73. -/
theorem test_pushfr : after (exec (.pushfr 14 1) (s₀.setFreg 14 0x0E0F1011))
      (fun t => t.spr == 16 && stkBytes t.stack 0 4 == [0x0E, 0x0F, 0x10, 0x11]) ∧
    after (exec (.pushfr 0 15) (s₀.setSpr 200)) (fun t => t.spr == 0 && t.hmem.read 1 == 1) := by decide
/-- R310: `POP F0, F1` after the example of R309. -/
theorem test_popfr : after (exec (.popfr 0 1) ((s₀.setStack (stkStore [] 0 [1, 2, 3, 4, 5, 6, 7, 8])).setSpr 8))
    (fun t => t.freg 0 == 0x01020304 && t.freg 1 == 0x05060708 && t.spr == 0) := by decide

/-! ### Steps: DJNZ (95_test_vectors.md 2.5) -/

/-- V81 and V82: the fall-through address and the wrap of a zero counter. -/
theorem test_djnz : after (step ((load 0x200 [1, 0x30, 1, 0, 1, 0]).setGroup .w8 1 1))
      (fun t => t.slot 1 == 0 && t.ipo == 0x206) ∧
    after (step (load 0x200 [1, 0x30, 1, 0, 1, 0])) (fun t => t.slot 1 == 0xFF && t.ipo == 0x100) := by decide
/-- V85 and V87: a counter across the top of RAM; a register target read after the write-back. -/
theorem test_djnz_overlap : after (exec (.djnz (.abs .w16 0xFFFFFF) (.abs 0x40)) (load 0xFFFFFF [1, 0]))
      (fun t => t.ram.read 0xFFFFFF == 0 && t.ram.read 0 == 0xFF && t.ipo == 0x40) ∧
    after (exec (.djnz (.reg .w8 2) (.reg 0)) (s₀.setGroup .w24 0 0x000105))
      (fun t => t.slot 2 == 4 && t.ipo == 0x104) := by decide

/-! ### Steps: loads, stores, fills (95_test_vectors.md 2.6) -/

/-- V90 and V10. -/
theorem test_ld : after (exec (.ld (.mem .w16 (atAbs 0x10)) (.mem .w16 (atAbs 0x11))) (load 0x10 [0xAA, 0xBB, 0xCC]))
      (fun t => ramBytes t.ram 0x10 3 == [0xBB, 0xCC, 0xCC]) ∧
    after (exec (.ld (.reg .w32 24) (.imm .w32 0x01020304)) s₀)
      (fun t => t.slot 24 == 1 && t.slot 25 == 2 && t.slot 0 == 3 && t.slot 1 == 4) := by decide
/-- T1.9: a negative displacement wraps downward. -/
theorem test_ld_disp : after (step (((load 0xFFFFFE [0x99]).setRam
      (ramStore [(0xFFFFFE, 0x99)] 0x100 [1, 0x15, 4, 0, 3])).setIpo 0x100 |>.setGroup .w32 0 0x000002FC))
    (fun t => t.slot 4 == 0x99) := by decide
/-- V94 and V95. -/
theorem test_ldff_ldfi : after (exec (.ldff 1 0) (af 0 0x7FC00001)) (fun t => t.freg 1 == 0x7FC00001) ∧
    after (exec (.ldfi 3 0x3FC00000) s₀) (fun t => t.freg 3 == 0x3FC00000) := by decide
/-- V96 and V97. -/
theorem test_ldfm_stf : after (exec (.ldfm 0 (atAbs 0x100)) (load 0x100 [0x40, 0x49, 0x0F, 0xDB]))
      (fun t => t.freg 0 == 0x40490FDB) ∧
    after (exec (.stf ⟨.ind 0, .disp .d8 3⟩ (.freg 0)) ((s₀.setGroup .w32 0 0x000104FC).setFreg 0 0x40490FDB))
      (fun t => ramBytes t.ram 0x100 4 == [0x40, 0x49, 0x0F, 0xDB]) := by decide
/-- V99 and V100. -/
theorem test_ldfx : after (exec (.ldfx 0 (.imm .w32 0x01000001)) s₀) (fun t => t.freg 0 == 0x4B800000) ∧
    after (exec (.ldfx 0 (.imm .w32 0xFFFFFFFF)) s₀) (fun t => t.freg 0 == 0x4F800000) := by decide
/-- V104, V105. -/
theorem test_ldxf : after (exec (.ldxf A 0) (af 0 0x437F8000)) (fun t => t.slot 0 == 0xFF && t.flags.v) ∧
    after (exec (.ldxf A 0) (af 0 0x437E8000)) (fun t => t.slot 0 == 0xFE && !t.flags.v) := by decide
/-- V103, V106. -/
theorem test_ldxf_special : after (exec (.ldxf A 0) (af 7 0xBF800000)) (fun t => t.slot 0 == 0 && t.flags.v) ∧
    exec (.ldxf A 0) (af 7 0x7FC00000) = .refused .floatNaN := ⟨by decide, by rfl⟩
/-- V108, V110. -/
theorem test_fill : after (exec (.fill (atAbs 0x200) (.imm .w16 0x1234) (.imm .w8 2)) s₀)
      (fun t => ramBytes t.ram 0x200 5 == [0x12, 0x34, 0x12, 0x34, 0]) ∧
    after (exec (.fill (atAbs 0xFFFFFE) (.imm .w8 0x11) (.imm .w8 3)) s₀)
      (fun t => ramBytes t.ram 0xFFFFFE 4 == [0x11, 0x11, 0x11, 0]) := by decide
/-- V111 at the default stride, as FILLS stamps it; V112. -/
theorem test_fills : ramBytes (stampCore [] 0x300 0xEE 1 2 2 3) 0x300 7 == [0xEE, 0xEE, 0xEE, 0xEE, 0xEE, 0xEE, 0] ∧
    after (exec (.fills (atAbs 0x300) (.imm .w8 0xEE) (.imm .w8 2) .w8 1) s₀) (fun t => t.ram == s₀.ram) := by decide

/-! ### Witnesses: states and operands that meet the hypotheses of the statements, at boundary values -/

/-- A state with an instruction across the top of RAM, a value on the stack, a counter and a float register. -/
def busy : State :=
  (((load 0xFFFFFE [1, 0x10, 0, 7]).setStack (stkStore [] 0 [0x12, 0x34])).setSpr 2).setFreg 0 0x3FC00000

/-- A state of the invariant. -/
theorem busy_inv : busy.Inv :=
  ⟨by decide, by decide, by decide, by decide, by decide, by decide, by decide, test_wf_cfg⟩

/-- The test machine with the descriptor d under the opcode byte 0x07 and under the opcode bytes 0x01 0x07, and
bytes at IPO. -/
def shape (d : Descriptor) (bs : List Byte) : State :=
  { load 0x100 bs with cfg := { cfg with opmap := [(0x07, .direct d), (0x01, .sub [(0x07, d)])] } }

/-- What `BadRegisterIndexIsRefused` asks of the bytes bs of the descriptor d, with the integer indices vs. -/
def indexCase (d : Descriptor) (bs : List Byte) (a : Addr) (vs : List Nat) : Prop :=
  let s := shape d bs
  let cm := (s.ram.read a.toNat).toNat
  let fields := d.operands.flatMap fieldsOf
  Selects s d 7 a ∧
    (if d.mixed then intIndices s.ram [24 + cm / 32, cm % 32] (a + 1) fields else intIndices s.ram [] a fields) = vs

theorem witness_StepRunsDecodedInstruction :
    decode busy.cfg.opmap (fetchInstr busy) = .ok (.ld (.reg .w8 0) (.imm .w8 7), []) := by rfl
theorem witness_StepRunsEncodedInstruction : Instr.wf (.ld (.reg .w8 0) (.imm .w8 7)) = true ∧
    encode busy.cfg.opmap (.ld (.reg .w8 0) (.imm .w8 7)) = some [1, 0x10, 0, 7] ∧
    ramBytes busy.ram busy.ipo 4 = [1, 0x10, 0, 7] := by decide
theorem witness_DecodeInvertsEncode : Instr.wf (.sub (.reg .w8 25) (.imm .w8 0xFF)) = true ∧
    encode opmap (.sub (.reg .w8 25) (.imm .w8 0xFF)) = some [1, 0x23, 25, 0xFF] := by decide
/-- A form under one opcode byte and one under two. -/
theorem witness_EveryListedFormEncodes :
    (let i : Instr := .add (.mem .w8 ⟨.abs 0, .disp .d8 25⟩) (.reg .w16 0);
      l1 opmap 5 = .direct ⟨i.op, i.operands.map Operand.spec, false⟩) ∧
    (let i : Instr := .push .w16 25;
      ∃ t x, l1 opmap 1 = .sub t ∧ l2 t x = some ⟨i.op, i.operands.map Operand.spec, false⟩) :=
  ⟨by rfl, _, 0x50, rfl, by rfl⟩
theorem witness_DecodedInstructionIsWellFormed :
    decode opmap [1, 0x43, 1] = .ok (.pushr 24 1, []) := by rfl
theorem witness_DecodeReadsExactlyItsLength : wfOpMap opmap = true ∧
    decode opmap [5, 0, 1, 0, 2, 3, 0xAA] =
      .ok (.add (.mem .w8 ⟨.abs 0x100, .disp .d8 2⟩) (.reg .w16 3), [0xAA]) := ⟨by decide, by rfl⟩
theorem witness_StepOutcomesAreTheSpecs : busy.Inv ∧ s₀.Inv :=
  ⟨busy_inv, by decide, by decide, by decide, by decide, by decide, by decide, by decide, test_wf_cfg⟩
/-- A foreign byte, a primary byte without an entry, and a second byte without an entry. -/
theorem witness_ForeignAndIllegalBytesAreRefused :
    l1 (load 0x100 [0xFF]).cfg.opmap ((load 0x100 [0xFF]).ram.read 0x100) = .foreign ∧
    l1 (load 0x100 [2]).cfg.opmap ((load 0x100 [2]).ram.read 0x100) = .none ∧
    ∃ t, l1 (load 0x100 [1]).cfg.opmap ((load 0x100 [1]).ram.read 0x100) = .sub t ∧
      l2 t ((load 0x100 [1]).ram.read 0x101) = none := ⟨by rfl, by rfl, _, rfl, by rfl⟩
theorem witness_IgnoredIndexBits :
    (0xF9 : Byte).toNat % 32 = (0x19 : Byte).toNat % 32 ∧ (0xFF : Byte).toNat % 16 = (0x0F : Byte).toNat % 16 := by
  decide
/-- One opcode byte, unmixed: index 26 in the first operand, in the displacement behind an indirect and behind an
absolute base and in a range end, 31 in a jump target, and two indices of 25, which are allowed. -/
theorem witness_BadRegisterIndexIsRefused :
    indexCase ⟨.PUSH, [.reg .w8], false⟩ [7, 26] 0x101 [26] ∧
    indexCase ⟨.ADD, [.mem .w8 .ind (.disp .d8), .imm .w8], false⟩ [7, 0, 26, 1] 0x101 [0, 26] ∧
    indexCase ⟨.STF, [.fmem .abs (.disp .d24), .freg], false⟩ [7, 0, 0, 0, 26, 0] 0x101 [26] ∧
    indexCase ⟨.PUSHR, [.ridx, .ridx], false⟩ [7, 25, 26] 0x101 [25, 26] ∧
    indexCase ⟨.DJNZ, [.reg .w8, .tgt .tReg], false⟩ [7, 0, 31] 0x101 [0, 31] ∧
    indexCase ⟨.ADD, [.reg .w8, .reg .w8], false⟩ [7, 25, 0xF9] 0x101 [25, 25] := by
  refine ⟨?_, ?_, ?_, ?_, ?_, ?_⟩ <;> exact ⟨.inl ⟨rfl, rfl, rfl⟩, rfl⟩
/-- Two opcode bytes: index 26 in the third operand; and mixed pairs whose first or second index is 26, whose two
indices are 25, and whose second is a float index. -/
theorem witness_BadRegisterIndexIsRefused_two : indexCase ⟨.DIVR, [.reg .w8, .imm .w8, .reg .w8], false⟩
      [1, 7, 0, 3, 26] 0x102 [0, 26] ∧
    indexCase ⟨.PUSHR, [.ridx, .ridx], true⟩ [1, 7, 0x40] 0x102 [26, 0] ∧
    indexCase ⟨.PUSHR, [.ridx, .ridx], true⟩ [1, 7, 0x3A] 0x102 [25, 26] ∧
    indexCase ⟨.PUSHR, [.ridx, .ridx], true⟩ [1, 7, 0x39] 0x102 [25, 25] ∧
    indexCase ⟨.LDXF, [.reg .w8, .freg], true⟩ [1, 7, 0x3F] 0x102 [25] := by
  refine ⟨?_, ?_, ?_, ?_, ?_⟩ <;> exact ⟨.inr ⟨_, rfl, rfl, rfl, rfl⟩, rfl⟩
/-- A four-byte group at slot 25 covers slots 25, 0, 1 and 2, and not slot 3. -/
theorem witness_GroupIsBigEndian : (0 < Width.w32.bytes ∧ (25 : Slot).val = ((25 : Slot).val + 0) % 26) ∧
    (3 < Width.w32.bytes ∧ (2 : Slot).val = ((25 : Slot).val + 3) % 26) ∧ ¬inSlots 25 Width.w32.bytes 3 := by
  refine ⟨by decide, by decide, ?_⟩
  rintro ⟨k, hk, h⟩
  simp only [Width.bytes] at hk
  interval_cases k <;> revert h <;> decide
/-- Four bytes from the top address on cover addresses 2^24 - 1 to 2, and not 3. -/
theorem witness_RamIsBigEndianAndWraps : busy.ram.wf = true ∧ 3 < 4 ∧ ¬inAddrs 0xFFFFFF 4 3 := by
  refine ⟨by decide, by decide, ?_⟩
  rintro ⟨k, hk, h⟩
  interval_cases k <;> revert h <;> decide
theorem witness_SourceOperandValues : immFits .w8 0xFF = true ∧ immFits .w32 0xFFFFFFFF = true := by decide
theorem witness_StepKeepsInvariant : busy.Inv ∧ ∃ t, step busy = .next t := ⟨busy_inv, _, rfl⟩
theorem witness_PortHistoryIsNeverRead : ∃ t, step busy = .next t := ⟨_, rfl⟩
/-- A next state in every clause but the refused one's. -/
theorem witness_FlagWriters : (∃ t, exec (.cp A (.imm .w8 0)) busy = .next t) ∧
    (∃ t, exec (.fcp (.freg 0) (.freg 1)) busy = .next t) ∧ (∃ t, exec (.add A (.imm .w8 1)) busy = .next t) ∧
    (∃ t, exec (.ldxf A 1) (af 1 0) = .next t) ∧ (∃ t, exec (.ld A (.imm .w8 0)) busy = .next t) ∧
    (∃ t, exec (.nand A (.imm .w8 1)) busy = .next t) ∧ ∃ t, exec (.popr 25 0) busy = .next t :=
  ⟨⟨_, rfl⟩, ⟨_, rfl⟩, ⟨_, rfl⟩, ⟨_, rfl⟩, ⟨_, rfl⟩, ⟨_, rfl⟩, _, rfl⟩
theorem witness_RegisterFileWriters : after (exec (.ld A (.imm .w8 1)) s₀) (fun t => t.regs != s₀.regs) = true ∧
    after (exec (.divr (.mem .w8 (atAbs 0)) (.imm .w8 5) B) (load 0 [17])) (fun t => t.regs != s₀.regs) = true ∧
    after (exec (.ldfi 15 1) s₀) (fun t => t.fregs != s₀.fregs) = true := by decide
theorem witness_IpoWriters : after (exec (.djnz (.reg .w8 0) (.abs 0x40)) s₀) (fun t => t.ipo != s₀.ipo) = true ∧
    after (exec (.pop .w8 0) s₀) (fun t => t.ipo != s₀.ipo) = true := by decide
theorem witness_AddressSpacesAreSeparate : (∃ t, exec (.push .w8 0) busy = .next t) ∧
    (∃ t, exec (.pop .w16 0) busy = .next t) ∧ (∃ t, exec (.pop .w24 0) busy = .next t) ∧
    ∃ t, exec (.stf (atAbs 0) (.freg 0)) busy = .next t := ⟨⟨_, rfl⟩, ⟨_, rfl⟩, ⟨_, rfl⟩, _, rfl⟩
theorem witness_AddResult : busy.ram.wf = true := by decide
theorem witness_SubResult : busy.ram.wf = true := by decide
/-- A positive, a negative and an infinite source. -/
theorem witness_AddFloatResult : (af 3 0xC0A00000).ram.wf = true ∧
    isNaN (fsrcVal (af 3 0x3FC00000) (.freg 0)) = false ∧ isNaN (fsrcVal (af 3 0xC0A00000) (.freg 0)) = false ∧
    isNaN (fsrcVal (af 3 0x7F800000) (.freg 0)) = false := by decide
theorem witness_SubFloatResult : (af 3 0xC0A00000).ram.wf = true ∧
    isNaN (fsrcVal (af 3 0x3FC00000) (.freg 0)) = false ∧ isNaN (fsrcVal (af 3 0x80000000) (.freg 0)) = false ∧
    isNaN (fsrcVal (af 3 0xFF800000) (.freg 0)) = false := by decide
theorem witness_MulResult : busy.ram.wf = true := by decide
/-- Both a zero divisor and another. -/
theorem witness_DivResult : (ab 7 0).ram.wf = true ∧ srcVal (ab 7 0) (.reg .w8 1) = 0 ∧
    srcVal (ab 7 1) (.reg .w8 1) ≠ 0 := by decide
/-- A and B share no slot: a quotient in A and a remainder in B are both there. -/
theorem disjoint_ab : (resolve s₀ A).disjoint (resolve s₀ B) := by
  constructor
  · rintro j ⟨⟨k, hk, h⟩, k', hk', h'⟩
    simp only [Width.bytes] at hk hk'
    interval_cases k
    interval_cases k'
    rw [h] at h'
    revert h'
    decide
  · rintro x ⟨h, _⟩
    exact h
/-- Disjoint locations, and slot 1, which a remainder in A does not cover. -/
theorem witness_DivRemainderResult : busy.ram.wf = true ∧ (resolve s₀ A).disjoint (resolve s₀ B) ∧
    ¬(resolve s₀ A).hasSlot 1 := by
  refine ⟨by decide, disjoint_ab, ?_⟩
  rintro ⟨k, hk, h⟩
  simp only [Width.bytes] at hk
  interval_cases k
  revert h
  decide
theorem witness_SignedDivResult : (ab 0x80 0xFF).ram.wf = true ∧ srcVal (ab 0x80 0xFF) (.reg .w8 1) ≠ 0 := by decide
theorem witness_SignedDivRemainderResult : (ab 7 1).ram.wf = true ∧ srcVal (ab 7 1) (.reg .w8 1) ≠ 0 ∧
    (resolve s₀ A).disjoint (resolve s₀ B) := ⟨by decide, by decide, disjoint_ab⟩
theorem witness_SignedDivByZeroIsReported : srcVal (ab 7 0) (.reg .w8 1) = 0 ∧ srcVal s₀ (.imm .w32 0) = 0 :=
    by decide
/-- A NaN on either side, and two patterns that are none. -/
theorem witness_FloatCompareResult : isNaN (flocVal (af 0 0x7F800001) (.freg 0)) = true ∧
    isNaN (fsrcVal s₀ (.fimm 0xFFC00000)) = true ∧ isNaN (flocVal (af 0 0x7F800000) (.freg 0)) = false ∧
    isNaN (fsrcVal s₀ (.fimm 0x80000000)) = false := by decide
theorem witness_BitwiseResult : busy.ram.wf = true := by decide
/-- 5/2 lies halfway between 2 and 3. -/
theorem witness_RoundingIsNearestEven :
    0 < 2 ∧ 2 * |((2 : Nat) : Int) * (roundHalfEven 5 2 : Int) - (5 : Nat)| = (2 : Nat) := by decide
/-- The least positive pattern, the largest finite one and a negative zero; the two infinities; and 2.5, which lies
halfway between 2 and 3. -/
theorem witness_ScaledFloatIsItsValue :
    (isFinite 1 = true ∧ isFinite 0x7F7FFFFF = true ∧ isFinite 0x80000000 = true) ∧
    (isInf 0x7F800000 = true ∧ isInf 0xFF800000 = true) ∧
    let x : ℚ := |fval 0x40200000|
    isFinite 0x40200000 = true ∧ |(fMag 0x40200000 : ℚ) - x| = 1 / 2 := by
  have m : fMag 0x40200000 = 2 := by decide
  have e : ((0x40200000 : FloatBits).extractLsb' 23 8).toNat = 128 := by decide
  have f : ((0x40200000 : FloatBits).extractLsb' 0 23).toNat = 2097152 := by decide
  have g : (0x40200000 : FloatBits).getLsbD 31 = false := by decide
  refine ⟨by decide, by decide, by decide, ?_⟩
  simp only [fval, m, e, f, g]
  norm_num [abs_of_pos, abs_of_neg]
theorem witness_LoadResult : busy.ram.wf = true ∧ A.width = (ISrc.mem .w8 (atAbs 0xFFFFFF)).width := by decide
theorem witness_FloatMoveResult : busy.ram.wf = true := by decide
/-- 2^24 + 1 lies halfway between 2^24 and 2^24 + 2, the pattern 0x4B800001. -/
theorem witness_IntToFloatRoundsToNearestEven : 0 < 2 ^ 32 ∧ 2 ^ 32 - 1 < 2 ^ 32 ∧ isFinite 0x4B800001 = true ∧
    fval 0x4B800001 ≠ fval (toF32 16777217) ∧
    |fval 0x4B800001 - (16777217 : Nat)| = |fval (toF32 16777217) - (16777217 : Nat)| := by
  have h : toF32 16777217 = 0x4B800000 := by decide
  have value : ∀ (p : FloatBits) (m : Nat), (p.extractLsb' 23 8).toNat = 151 → (p.extractLsb' 0 23).toNat = m →
      p.getLsbD 31 = false → fval p = 2 ^ 24 * (1 + m / 2 ^ 23) := by
    intro p m h₁ h₂ h₃
    simp only [fval, h₁, h₂, h₃]
    norm_num
  rw [h, value 0x4B800000 0 (by decide) (by decide) (by decide), value 0x4B800001 1 (by decide) (by decide) (by decide)]
  refine ⟨by decide, by decide, by decide, ?_, ?_⟩ <;> norm_num
theorem witness_FloatToIntResult : (af 7 0xBF800000).ram.wf = true ∧ isNaN ((af 7 0xBF800000).freg 0) = false ∧
    isNaN ((af 7 0x7F800000).freg 0) = false := by decide
/-- Two units of two bytes: the first byte of the first unit is covered by no later one. -/
theorem witness_FillResult : busy.ram.wf = true ∧ ∀ j' k', 0 < j' → j' < 2 → k' < 2 →
    effAddr busy (atAbs 0x200) + BitVec.ofNat 24 (j' * 2 + k') ≠
      effAddr busy (atAbs 0x200) + BitVec.ofNat 24 (0 * 2 + 0) := by
  refine ⟨by decide, fun j' k' h₀ h₁ h₂ => ?_⟩
  interval_cases j'
  interval_cases k' <;> decide
/-- One stamp of two one-byte units: its first byte is covered by nothing later, whatever the OPEN stride. -/
theorem witness_StampedFillResult : busy.ram.wf = true ∧ s₀.group .w8 0 = 0 ∧
    ∀ r' j' k', r' < 1 → j' < 2 → k' < 1 → (0 < r' ∨ (0 = r' ∧ 0 < j')) →
      effAddr busy (atAbs 0x200) + BitVec.ofNat 24 (r' * stampStride 2 1 + j' * 1 + k') ≠
        effAddr busy (atAbs 0x200) + BitVec.ofNat 24 (0 * stampStride 2 1 + 0 * 1 + 0) := by
  refine ⟨by decide, by decide, fun r' j' k' h₀ h₁ h₂ h₃ => ?_⟩
  interval_cases r'
  interval_cases k'
  interval_cases j'
  · omega
  · simp only [Nat.zero_mul]
    decide
/-- A push that fills the stack exactly. -/
theorem witness_PushResult : (s₀.setSpr 254).stack.wf = true ∧
    (s₀.setSpr 254).spr + Width.w16.bytes ≤ (s₀.setSpr 254).cfg.stackCap ∧
    (s₀.setSpr 252).spr + 4 ≤ (s₀.setSpr 252).cfg.stackCap := by decide
/-- All 26 slots, wrapping, and all 16 float registers; one of each. -/
theorem witness_PushRangeResult : busy.stack.wf = true ∧
    (s₀.setSpr 230).spr + (((0 : Slot).val + 26 - (1 : Slot).val) % 26 + 1) ≤ s₀.cfg.stackCap ∧
    (s₀.setSpr 255).spr + (((3 : Slot).val + 26 - (3 : Slot).val) % 26 + 1) ≤ s₀.cfg.stackCap ∧
    (s₀.setSpr 192).spr + 4 * (((0 : FSlot).val + 16 - (1 : FSlot).val) % 16 + 1) ≤ s₀.cfg.stackCap := by decide
/-- A pop that empties the stack exactly. -/
theorem witness_PopResult : busy.spr ≤ busy.cfg.stackCap ∧ Width.w16.bytes ≤ busy.spr ∧
    (s₀.setSpr 4).spr ≤ s₀.cfg.stackCap ∧ 4 ≤ (s₀.setSpr 4).spr := by decide
theorem witness_PopRangeResult : (s₀.setSpr 26).spr ≤ s₀.cfg.stackCap ∧
    ((0 : Slot).val + 26 - (1 : Slot).val) % 26 + 1 ≤ (s₀.setSpr 26).spr ∧
    (s₀.setSpr 64).spr ≤ s₀.cfg.stackCap ∧
    4 * (((0 : FSlot).val + 16 - (1 : FSlot).val) % 16 + 1) ≤ (s₀.setSpr 64).spr := by decide
/-- One byte too many, for each of the four pushes. -/
theorem witness_StackOverflowTrap : s₀.hmem.wf = true ∧ s₀.cfg.stackCap < (s₀.setSpr 255).spr + Width.w16.bytes ∧
    s₀.cfg.stackCap < (s₀.setSpr 231).spr + (((0 : Slot).val + 26 - (1 : Slot).val) % 26 + 1) ∧
    s₀.cfg.stackCap < (s₀.setSpr 253).spr + 4 ∧
    s₀.cfg.stackCap < (s₀.setSpr 193).spr + 4 * (((0 : FSlot).val + 16 - (1 : FSlot).val) % 16 + 1) := by decide
/-- One byte too few, for each of the four pops. -/
theorem witness_StackUnderflowTrap : s₀.hmem.wf = true ∧ (s₀.setSpr 1).spr < Width.w16.bytes ∧
    (s₀.setSpr 25).spr < ((0 : Slot).val + 26 - (1 : Slot).val) % 26 + 1 ∧ (s₀.setSpr 3).spr < 4 ∧
    (s₀.setSpr 63).spr < 4 * (((0 : FSlot).val + 16 - (1 : FSlot).val) % 16 + 1) := by decide
/-- Two groups that share slot 0, filling the stack exactly. -/
theorem witness_StackRoundTripIsLifo : (s₀.setSpr 251).stack.wf = true ∧
    (s₀.setSpr 251).spr + (([(.w32, 24), (.w8, 0)] : List (Width × Slot)).map fun g => g.1.bytes).sum ≤
      s₀.cfg.stackCap := by decide
theorem witness_RangeRoundTrip : (s₀.setSpr 230).stack.wf = true ∧
    (s₀.setSpr 230).spr + ((0 : Slot).val + 26 - (1 : Slot).val) % 26 + 1 ≤ s₀.cfg.stackCap ∧
    (s₀.setSpr 192).spr + 4 * (((0 : FSlot).val + 16 - (1 : FSlot).val) % 16 + 1) ≤ s₀.cfg.stackCap := by decide
theorem witness_DjnzResult : busy.ram.wf = true := by decide
theorem witness_ImmediateFieldIsBigEndian : ([0x12] : List Byte).length = Width.w8.bits / 8 ∧
    ([0x12, 0x34, 0x56, 0x78] : List Byte).length = Width.w32.bits / 8 := by decide

end Sys2Proof.Tests
end

section
/-! The rounding of 00_scope.md R10 and 40_alu.md R206. Distances are compared between integers scaled by 2^149, where
the model computes, and carried over to R10's rationals at the end. -/

namespace Sys2Proof.Machine

/-! ### Multiples of a step -/

/-- Two different multiples of a step lie a whole step apart, so no point is nearer than half a step to both. -/
theorem step_le_dist_add_dist {u m k : Int} (hu : 0 ≤ u) (hne : k ≠ m) (x : Int) :
    u ≤ |u * k - x| + |u * m - x| :=
  calc u = u * 1 := (mul_one u).symm
    _ ≤ u * |k - m| := mul_le_mul_of_nonneg_left (Int.one_le_abs (sub_ne_zero.2 hne)) hu
    _ = |u * k - u * m| := by rw [← mul_sub, abs_mul, abs_of_nonneg hu]
    _ ≤ |u * k - x| + |u * m - x| := by rw [abs_sub_comm (u * m)]; exact abs_sub_le _ _ _

/-- A multiple at most half a step away is a nearest multiple. -/
theorem multiple_nearest_of_half {u m x : Int} (h : 2 * |u * m - x| ≤ u) (k : Int) : |u * m - x| ≤ |u * k - x| := by
  obtain rfl | hne := eq_or_ne k m
  · exact le_rfl
  · have hu : 0 ≤ u := (mul_nonneg zero_le_two (abs_nonneg _)).trans h
    linarith [step_le_dist_add_dist hu hne x]

/-- Where another multiple is as near, the point lies halfway. -/
theorem half_of_multiples_tie {u m k x : Int} (h : 2 * |u * m - x| ≤ u) (hne : k ≠ m)
    (htie : |u * k - x| = |u * m - x|) : 2 * |u * m - x| = u := by
  have hu : 0 ≤ u := (mul_nonneg zero_le_two (abs_nonneg _)).trans h
  linarith [step_le_dist_add_dist hu hne x]

/-- What lies below a multiple that the point has reached is farther off than a multiple at most half a step away. -/
theorem multiple_nearer_than_below {u m k x y : Int} (h : 2 * |u * m - x| ≤ u) (hy : y < u * k) (hx : u * k ≤ x) :
    |u * m - x| < |y - x| :=
  calc |u * m - x| ≤ |u * k - x| := multiple_nearest_of_half h k
    _ = x - u * k := by rw [abs_sub_comm, abs_of_nonneg (sub_nonneg.2 hx)]
    _ < x - y := sub_lt_sub_left hy x
    _ = |y - x| := by rw [abs_sub_comm, abs_of_nonneg (sub_nonneg.2 (hy.trans_le hx).le)]

theorem roundHalfEven_nearest (n : Nat) {d : Nat} (hd : 0 < d) (k : Int) :
    |d * (roundHalfEven n d : Int) - n| ≤ |d * k - n| :=
  multiple_nearest_of_half (roundHalfEven_error n d hd).1 k

/-- Settles O41: rounding is off by half at most, and by exactly half only to an even integer. -/
theorem roundingIsNearestEven : Obligations.RoundingIsNearestEven :=
  fun n _ hd => ⟨roundHalfEven_nearest n hd, (roundHalfEven_error n _ hd).2⟩

/-! ### The value of a pattern -/

theorem isNaN_iff (p : FloatBits) :
    isNaN p = true ↔ (p.extractLsb' 23 8).toNat = 255 ∧ (p.extractLsb' 0 23).toNat ≠ 0 := by
  obtain ⟨-, hexp, hfrac⟩ := fields_eq p
  simp only [isNaN, Bool.and_eq_true, decide_eq_true_eq, hexp, hfrac]

theorem isInf_iff (p : FloatBits) :
    isInf p = true ↔ (p.extractLsb' 23 8).toNat = 255 ∧ (p.extractLsb' 0 23).toNat = 0 := by
  obtain ⟨-, hexp, hfrac⟩ := fields_eq p
  simp only [isInf, Bool.and_eq_true, decide_eq_true_eq, hexp, hfrac]

theorem isFinite_of_fExp_ne {p : FloatBits} (h : fExp p ≠ 255) : isFinite p = true := by
  simp [isFinite, isNaN, isInf, h]

/-- R10's formula without its sign, scaled. -/
theorem fScaled_eq_formula (p : FloatBits) : (fScaled p : ℚ) =
    (if fExp p = 0 then 2 ^ (-126 : ℤ) * ((fFrac p : ℚ) / 2 ^ 23)
      else 2 ^ ((fExp p : ℤ) - 127) * (1 + (fFrac p : ℚ) / 2 ^ 23)) * 2 ^ 149 := by
  unfold fScaled
  split
  · norm_num
    ring
  · next he =>
    rw [two_zpow_exp he]
    push_cast
    ring

theorem fKey_eq_fval_mul (p : FloatBits) : (fKey p : ℚ) = fval p * 2 ^ 149 := by
  obtain ⟨hsign, hexp, hfrac⟩ := fields_eq p
  have hformula := fScaled_eq_formula p
  rw [hexp, hfrac] at hformula
  simp only [fKey, fval, ← hsign]
  split <;>
  · push_cast
    rw [hformula]
    ring

theorem abs_fKey (p : FloatBits) : |fKey p| = fScaled p := by
  unfold fKey
  split
  · rw [abs_neg, Nat.abs_cast]
  · exact Nat.abs_cast _

theorem fScaled_eq_abs_fval_mul (p : FloatBits) : (fScaled p : ℚ) = |fval p| * 2 ^ 149 := by
  calc (fScaled p : ℚ) = |(fKey p : ℚ)| := by exact_mod_cast (abs_fKey p).symm
    _ = |fval p| * 2 ^ 149 := by rw [fKey_eq_fval_mul, abs_mul, abs_of_pos (by positivity : (0 : ℚ) < 2 ^ 149)]

/-- A distance of rationals, scaled to one of the integers that stand for them. -/
theorem abs_sub_mul_eq_scaled {x y : ℚ} {a b : Int} {d : Nat} (ha : (a : ℚ) = x * d) (hb : (b : ℚ) = y * d) :
    |x - y| * d = (|a - b| : Int) := by
  push_cast
  rw [ha, hb, ← sub_mul, abs_mul, Nat.abs_cast]

/-! ### The rounded magnitude -/

theorem fMag_of_isInf {p : FloatBits} (h : isInf p = true) : fMag p = 2 ^ 32 := if_pos h

theorem fMag_of_isFinite {p : FloatBits} (h : isFinite p = true) : fMag p = roundHalfEven (fScaled p) (2 ^ 149) := by
  have hi : isInf p = false := by simpa using (Bool.and_eq_true_iff.1 h).2
  rw [fMag, hi, if_neg Bool.false_ne_true]

/-- An integer's distance from |fval p|, scaled to the one that `roundHalfEven` compares. -/
theorem dist_abs_fval_mul (p : FloatBits) (k : Int) :
    |(k : ℚ) - abs (fval p)| * (2 ^ 149 : Nat) = (|(2 ^ 149 : Nat) * k - fScaled p| : Int) :=
  abs_sub_mul_eq_scaled (by push_cast; ring) (by push_cast; exact fScaled_eq_abs_fval_mul p)

theorem fMag_nearest {p : FloatBits} (h : isFinite p = true) (k : Int) :
    |(fMag p : ℚ) - abs (fval p)| ≤ |(k : ℚ) - abs (fval p)| := by
  refine le_of_mul_le_mul_right ?_ (by positivity : (0 : ℚ) < (2 ^ 149 : Nat))
  rw [← Int.cast_natCast (fMag p), dist_abs_fval_mul, dist_abs_fval_mul, fMag_of_isFinite h]
  exact_mod_cast roundHalfEven_nearest (fScaled p) (by positivity) k

theorem fMag_even_of_tie {p : FloatBits} (h : isFinite p = true) (htie : |(fMag p : ℚ) - abs (fval p)| = 1 / 2) :
    fMag p % 2 = 0 := by
  have hscaled := dist_abs_fval_mul p (fMag p)
  rw [Int.cast_natCast, htie] at hscaled
  have hhalf : 2 * |(2 ^ 149 : Nat) * (fMag p : Int) - fScaled p| = (2 ^ 149 : Nat) := by
    rw [← @Int.cast_inj ℚ, Int.cast_mul, ← hscaled]
    push_cast
    ring
  rw [fMag_of_isFinite h] at hhalf ⊢
  exact_mod_cast (roundHalfEven_error (fScaled p) (2 ^ 149) (by positivity)).2 hhalf

/-- Settles O42, with `roundHalfEven`'s error bound carried from the scaled integers to the rationals. -/
theorem scaledFloatIsItsValue : Obligations.ScaledFloatIsItsValue :=
  fun p => ⟨isNaN_iff p, isInf_iff p,
    fun h => ⟨fKey_eq_fval_mul p, fMag_nearest h, fMag_even_of_tie h⟩, fMag_of_isInf⟩

/-! ### The patterns on either side of a step 2^j -/

/-- At and above 2^(23 + j) every value is a multiple of 2^j: a 24-bit mantissa leaves no room for lower bits. -/
theorem dvd_fScaled_or_lt (p : FloatBits) (j : Nat) : 2 ^ j ∣ fScaled p ∨ fScaled p < 2 ^ j * 2 ^ 23 := by
  have hf : fFrac p < 2 ^ 23 := Nat.mod_lt _ (by decide)
  unfold fScaled
  split
  · exact .inr (hf.trans_le (Nat.le_mul_of_pos_left _ (by positivity)))
  · obtain hj | hj := le_or_gt j (fExp p - 1)
    · exact .inl ((pow_dvd_pow 2 hj).mul_left _)
    · right
      calc (2 ^ 23 + fFrac p) * 2 ^ (fExp p - 1) < 2 ^ 24 * 2 ^ (fExp p - 1) :=
            Nat.mul_lt_mul_of_pos_right (by omega) (by positivity)
        _ = 2 ^ (fExp p - 1 + 1) * 2 ^ 23 := by ring
        _ ≤ 2 ^ j * 2 ^ 23 := Nat.mul_le_mul_right _ (Nat.pow_le_pow_right (by decide) hj)

theorem fKey_multiple_or_lt (p : FloatBits) (j : Nat) :
    (∃ k : Int, fKey p = 2 ^ j * k) ∨ fKey p < 2 ^ j * 2 ^ 23 := by
  obtain hdvd | hlt := dvd_fScaled_or_lt p j
  · left
    change (2 : Int) ^ j ∣ fKey p
    rw [← dvd_abs, abs_fKey]
    exact_mod_cast hdvd
  · right
    calc fKey p ≤ |fKey p| := le_abs_self _
      _ = fScaled p := abs_fKey p
      _ < 2 ^ j * 2 ^ 23 := by exact_mod_cast hlt

/-- A positive pattern from its exponent and mantissa; a mantissa of 2^24 carries into the exponent field and has the
same value. -/
theorem value_of_toNat {p : FloatBits} {e f : Nat} (hp : p.toNat = (e + 1) * 2 ^ 23 + f) (hf : f ≤ 2 ^ 23)
    (he : e < 253) : isFinite p = true ∧ fKey p = 2 ^ e * (2 ^ 23 + f : Nat) := by
  have hsign : fSign p = false := by
    rw [fSign, hp]
    exact Nat.testBit_lt_two_pow (by omega)
  obtain hlt | rfl := hf.lt_or_eq
  · have hexp : fExp p = e + 1 := by rw [fExp, hp]; omega
    have hfrac : fFrac p = f := by rw [fFrac, hp]; omega
    refine ⟨isFinite_of_fExp_ne (by omega), ?_⟩
    simp [fKey, hsign, fScaled, hexp, hfrac, mul_comm]
  · have hexp : fExp p = e + 2 := by rw [fExp, hp]; omega
    have hfrac : fFrac p = 0 := by rw [fFrac, hp]; omega
    refine ⟨isFinite_of_fExp_ne (by omega), ?_⟩
    simp [fKey, hsign, fScaled, hexp, hfrac]
    ring

/-! ### The conversion of an integer -/

/-- The mantissa that `toF32` computes, 2^24 where it rounds up to that. -/
def toF32Mantissa (n : Nat) : Nat :=
  if Nat.log2 n ≤ 23 then n * 2 ^ (23 - Nat.log2 n) else roundHalfEven n (2 ^ (Nat.log2 n - 23))

theorem toF32_eq {n : Nat} (hn : n ≠ 0) :
    toF32 n = BitVec.ofNat 32 ((127 + Nat.log2 n) * 2 ^ 23 + (toF32Mantissa n - 2 ^ 23)) := if_neg hn

theorem roundHalfEven_eq_div_or_succ (n d : Nat) : roundHalfEven n d = n / d ∨ roundHalfEven n d = n / d + 1 := by
  simp only [roundHalfEven]
  split
  · exact .inl rfl
  · split
    · exact .inr rfl
    · exact ite_eq_or_eq _ _ _

theorem toF32Mantissa_bounds {n : Nat} (hn : n ≠ 0) : 2 ^ 23 ≤ toF32Mantissa n ∧ toF32Mantissa n ≤ 2 ^ 24 := by
  have hlow : 2 ^ Nat.log2 n ≤ n := Nat.log2_self_le hn
  have hhigh : n < 2 ^ (Nat.log2 n + 1) := Nat.lt_log2_self
  unfold toF32Mantissa
  generalize Nat.log2 n = l at *
  split
  · next hl =>
    have hpow : 2 ^ l * 2 ^ (23 - l) = 2 ^ 23 := by rw [← pow_add, Nat.add_sub_cancel' hl]
    constructor
    · exact hpow ▸ Nat.mul_le_mul_right _ hlow
    · calc n * 2 ^ (23 - l) ≤ 2 ^ (l + 1) * 2 ^ (23 - l) := Nat.mul_le_mul_right _ hhigh.le
        _ = 2 * (2 ^ l * 2 ^ (23 - l)) := by ring
        _ = 2 ^ 24 := by rw [hpow]; rfl
  · next hl =>
    have hpow : 2 ^ l = 2 ^ 23 * 2 ^ (l - 23) := by rw [← pow_add, Nat.add_sub_cancel' (by omega)]
    have hdiv : 2 ^ 23 ≤ n / 2 ^ (l - 23) := (Nat.le_div_iff_mul_le (by positivity)).2 (hpow ▸ hlow)
    have hdiv' : n / 2 ^ (l - 23) < 2 ^ 24 := (Nat.div_lt_iff_lt_mul (by positivity)).2 (by
      rw [pow_succ, hpow] at hhigh
      omega)
    obtain h | h := roundHalfEven_eq_div_or_succ n (2 ^ (l - 23))
    · omega
    · omega

/-- The mantissa, at its weight of 2^(126 + l) in the scaled integers, is off by half of that at most, and by exactly
half only where it is even; a mantissa that needs no rounding is not off at all. -/
theorem toF32Mantissa_error (n : Nat) :
    2 * |(2 : Int) ^ (126 + Nat.log2 n) * toF32Mantissa n - n * 2 ^ 149| ≤ 2 ^ (126 + Nat.log2 n) ∧
      (2 * |(2 : Int) ^ (126 + Nat.log2 n) * toF32Mantissa n - n * 2 ^ 149| = 2 ^ (126 + Nat.log2 n) →
        toF32Mantissa n % 2 = 0) := by
  unfold toF32Mantissa
  generalize Nat.log2 n = l
  split
  · next hl =>
    have hpow : (2 : Int) ^ (126 + l) * 2 ^ (23 - l) = 2 ^ 149 := by
      rw [← pow_add]
      congr 1
      omega
    have hexact : (2 : Int) ^ (126 + l) * (n * 2 ^ (23 - l) : Nat) - n * 2 ^ 149 = 0 := by
      rw [← hpow]
      push_cast
      ring
    have hpos : (0 : Int) < 2 ^ (126 + l) := by positivity
    rw [hexact, abs_zero, mul_zero]
    exact ⟨hpos.le, fun h => absurd h hpos.ne⟩
  · next hl =>
    obtain ⟨hle, heven⟩ := roundHalfEven_error n (2 ^ (l - 23)) (by positivity)
    have hpow : (2 : Int) ^ (126 + l) = (2 ^ (l - 23) : Nat) * 2 ^ 149 := by
      rw [Nat.cast_pow, Nat.cast_ofNat, ← pow_add]
      congr 1
      omega
    have hscale (m : Int) : 2 * |(2 : Int) ^ (126 + l) * m - n * 2 ^ 149| =
        2 * |(2 ^ (l - 23) : Nat) * m - n| * 2 ^ 149 := by
      rw [hpow, mul_right_comm, ← sub_mul, abs_mul, abs_of_pos (by positivity : (0 : Int) < 2 ^ 149), mul_assoc]
    rw [hscale, hpow]
    refine ⟨mul_le_mul_of_nonneg_right hle (by positivity), fun h => ?_⟩
    exact_mod_cast heven (mul_right_cancel₀ (by positivity) h)

theorem toF32_toNat {n : Nat} (hn : n ≠ 0) (h : n < 2 ^ 32) :
    (toF32 n).toNat = (126 + Nat.log2 n + 1) * 2 ^ 23 + (toF32Mantissa n - 2 ^ 23) := by
  obtain ⟨-, hm⟩ := toF32Mantissa_bounds hn
  have hl := (Nat.log2_lt hn).2 h
  rw [toF32_eq hn, BitVec.toNat_ofNat]
  omega

theorem toF32_value {n : Nat} (hn : n ≠ 0) (h : n < 2 ^ 32) :
    isFinite (toF32 n) = true ∧ fKey (toF32 n) = 2 ^ (126 + Nat.log2 n) * toF32Mantissa n := by
  obtain ⟨hm, hm'⟩ := toF32Mantissa_bounds hn
  have hl := (Nat.log2_lt hn).2 h
  have hvalue := value_of_toNat (toF32_toNat hn h) (by omega) (by omega)
  rwa [Nat.add_sub_cancel' hm] at hvalue

theorem toF32_lsb {n : Nat} (hn : n ≠ 0) (h : n < 2 ^ 32) (heven : toF32Mantissa n % 2 = 0) :
    (toF32 n).getLsbD 0 = false := by
  obtain ⟨hm, -⟩ := toF32Mantissa_bounds hn
  rw [← BitVec.testBit_toNat, toF32_toNat hn h, Nat.testBit_zero, decide_eq_false_iff_not]
  omega

/-- In the scaled integers no pattern is nearer, and one as near has the same value or meets an even mantissa. A pattern
that is no multiple of the mantissa's weight lies below the least mantissa, hence strictly farther off. -/
theorem toF32_scaled_nearest {n : Nat} (hn : n ≠ 0) (h : n < 2 ^ 32) (p : FloatBits) :
    |fKey (toF32 n) - n * 2 ^ 149| ≤ |fKey p - n * 2 ^ 149| ∧
      (fKey p ≠ fKey (toF32 n) → |fKey p - n * 2 ^ 149| = |fKey (toF32 n) - n * 2 ^ 149| →
        toF32Mantissa n % 2 = 0) := by
  obtain ⟨hhalf, heven⟩ := toF32Mantissa_error n
  rw [(toF32_value hn h).2]
  obtain ⟨k, hk⟩ | hlt := fKey_multiple_or_lt p (126 + Nat.log2 n)
  · rw [hk]
    exact ⟨multiple_nearest_of_half hhalf k,
      fun hne htie => heven (half_of_multiples_tie hhalf (fun e => hne (e ▸ rfl)) htie)⟩
  · have hleast : (2 : Int) ^ (126 + Nat.log2 n) * 2 ^ 23 ≤ (n : Int) * 2 ^ 149 :=
      calc (2 : Int) ^ (126 + Nat.log2 n) * 2 ^ 23 = 2 ^ Nat.log2 n * 2 ^ 149 := by ring
        _ ≤ (n : Int) * 2 ^ 149 := mul_le_mul_of_nonneg_right (by exact_mod_cast Nat.log2_self_le hn) (by positivity)
    have hfarther := multiple_nearer_than_below hhalf hlt hleast
    exact ⟨hfarther.le, fun _ htie => absurd htie hfarther.ne'⟩

/-- A pattern's distance from n, scaled. -/
theorem dist_fval_mul (p : FloatBits) (n : Nat) :
    |fval p - n| * (2 ^ 149 : Nat) = (|fKey p - n * 2 ^ 149| : Int) :=
  abs_sub_mul_eq_scaled (by push_cast; exact fKey_eq_fval_mul p) (by push_cast; rfl)

theorem toF32_nearest {n : Nat} (hn : n ≠ 0) (h : n < 2 ^ 32) (p : FloatBits) :
    |fval (toF32 n) - n| ≤ |fval p - n| := by
  refine le_of_mul_le_mul_right ?_ (by positivity : (0 : ℚ) < (2 ^ 149 : Nat))
  rw [dist_fval_mul, dist_fval_mul]
  exact_mod_cast (toF32_scaled_nearest hn h p).1

theorem toF32_even_of_tie {n : Nat} (hn : n ≠ 0) (h : n < 2 ^ 32) {p : FloatBits} (hne : fval p ≠ fval (toF32 n))
    (htie : |fval p - n| = |fval (toF32 n) - n|) : (toF32 n).getLsbD 0 = false := by
  refine toF32_lsb hn h ((toF32_scaled_nearest hn h p).2 (fun hkey => hne ?_) ?_)
  · rw [← @Int.cast_inj ℚ, fKey_eq_fval_mul, fKey_eq_fval_mul] at hkey
    exact mul_right_cancel₀ (by positivity) hkey
  · rw [← @Int.cast_inj ℚ, ← dist_fval_mul, ← dist_fval_mul, htie]

theorem fval_toF32_zero : fval (toF32 0) = 0 := by
  have hkey : fKey (toF32 0) = 0 := by decide
  have hval := fKey_eq_fval_mul (toF32 0)
  rw [hkey, Int.cast_zero] at hval
  exact (mul_eq_zero.1 hval.symm).resolve_right (by positivity)

/-- Settles O46: zero converts exactly, any other integer by its mantissa. -/
theorem intToFloatRoundsToNearestEven : Obligations.IntToFloatRoundsToNearestEven := by
  intro n h
  obtain rfl | hn := eq_or_ne n 0
  · refine ⟨by decide, fun p _ => ?_, fun _ _ _ _ => by decide⟩
    rw [fval_toF32_zero, Nat.cast_zero, sub_zero, abs_zero]
    exact abs_nonneg _
  · exact ⟨(toF32_value hn h).1, fun p _ => toF32_nearest hn h p, fun _ _ => toF32_even_of_tie hn h⟩

end Sys2Proof.Machine
end

section
/-! The state after reset (10_state.md R48) and the byte order of register groups (R31, R32). -/

namespace Sys2Proof.Machine

/-! ### After reset -/

/-- Settles O17: the reset state lists the value of each field (10_state.md R48). -/
theorem resetValues : Obligations.ResetValues :=
  ⟨fun i => Vector.getElem_replicate i.isLt, fun k => Vector.getElem_replicate k.isLt, rfl, rfl, rfl⟩

/-- The machine starts with well-formed OPEN parameters: an ill-formed record is replaced (log 8). -/
theorem params_wf : Config.params.wf = true := by
  unfold Config.params
  split
  · assumption
  · decide

/-- Settles O18: the memories list nothing, so that only the parameters and the width of the error id, which an unset
slot leaves 0, need a reason. -/
theorem resetSatisfiesInvariant : Obligations.ResetSatisfiesInvariant where
  ramWf := rfl
  ramKeys := List.forall_mem_nil _
  stackWf := rfl
  stackKeys := List.forall_mem_nil _
  sprLe := Nat.zero_le _
  hmemWf := rfl
  errIdFits := Nat.two_pow_pos _
  cfgWf := params_wf

/-! ### Register groups -/

/-- Byte k of the slots from i on is slot (i + k) mod 26 (10_state.md R32). -/
theorem slotBytes_getElem (s : State) {i j : Slot} {n k : Nat} (hk : k < n) (hj : j.val = (i.val + k) % 26) :
    (s.slotBytes i n)[k]'(by simpa using hk) = s.slot j := by
  have hslot : i + Fin.ofNat 26 k = j := by
    apply Fin.ext
    simp [Fin.val_add, hj]
  simp only [slotBytes_range, List.getElem_map, List.getElem_range, hslot]

/-- A slot of a group is a byte of its value, the first slot the most significant (10_state.md R31). -/
theorem slot_eq_group_byte (s : State) (w : Width) {i j : Slot} {k : Nat} (hk : k < w.bytes)
    (hj : j.val = (i.val + k) % 26) : (s.slot j).toNat = s.group w i / 256 ^ (w.bytes - 1 - k) % 256 := by
  have h := getElem_of_beValue (s.slotBytes i w.bytes) k (by simpa using hk)
  rwa [slotBytes_getElem s hk hj, State.slotBytes_length] at h

/-- Byte k of a value is a byte of its n low bytes. -/
theorem mod_byte {n k : Nat} (hk : k < n) (v : Nat) :
    v % 256 ^ n / 256 ^ (n - 1 - k) % 256 = v / 256 ^ (n - 1 - k) % 256 := by
  have hsplit : 256 ^ n = 256 ^ (n - 1 - k) * (256 * 256 ^ k) := by
    rw [← pow_succ', ← pow_add]
    congr 1
    omega
  rw [hsplit, Nat.mod_mul_right_div_self, Nat.mod_mul_right_mod]

/-- Settles O13: the bytes of what was written follow from reading the written group back. -/
theorem groupIsBigEndian : Obligations.GroupIsBigEndian := by
  intro s w i v
  refine ⟨s.group_lt w i, fun k j hk hj => ⟨slot_eq_group_byte s w hk hj, ?_⟩, fun j hj => ?_, s.group_setGroup w i v⟩
  · rw [slot_eq_group_byte _ w hk hj, State.group_setGroup, Width.two_pow_bits, mod_byte hk]
  · exact s.slot_setGroup_outside fun k hk h => hj ⟨k, hk, h⟩

end Sys2Proof.Machine
end

section
/-! What an instruction can do, said once, and what follows for every instruction: the flags, register files and IPO
it leaves alone, and the invariant it keeps (10_state.md R34 to R45). -/

namespace Sys2Proof.Machine

/-! ### The next states of an instruction -/

/-- The pushes and pops, which alone can take a stack fault (60_exceptions.md R500). -/
def usesStack : Instr → Prop
  | .push .. | .pop .. | .pushr .. | .popr .. | .pushf .. | .popf .. | .pushfr .. | .popfr .. => True
  | _ => False

/-- The next states an instruction can end in. The values it computes are left open; which parts of the state it
writes, through which operation, is not. -/
inductive Effect (s : State) : Instr → State → Prop
  | ld {d x v} : Effect s (.ld d x) ((resolve s d).write s v)
  | nand {d x v} : Effect s (.nand d x) ((resolve s d).write s v)
  | xnor {d x v} : Effect s (.xnor d x) ((resolve s d).write s v)
  | imply {d x v} : Effect s (.imply d x) ((resolve s d).write s v)
  | ldff {d k p} : Effect s (.ldff d k) (s.setFreg d p)
  | ldfi {d q p} : Effect s (.ldfi d q) (s.setFreg d p)
  | ldfm {d m p} : Effect s (.ldfm d m) (s.setFreg d p)
  | ldfx {d x p} : Effect s (.ldfx d x) (s.setFreg d p)
  | stf {m x a v} : Effect s (.stf m x) (s.setRam (memWrite s.ram a 4 v))
  | fill {m p n a v u c} : Effect s (.fill m p n) (s.setRam (fillCore s.ram a v u c))
  | fills {m p n w r a v u c k j} : Effect s (.fills m p n w r) (s.setRam (stampCore s.ram a v u c k j))
  | ldxf {d k v r n} : Effect s (.ldxf d k) (((resolve s d).write s v).setFlags (s.flags.narrowed r n))
  | add {d x v w r c} : Effect s (.add d x) (((resolve s d).write s v).setFlags (s.flags.arith w r c))
  | sub {d x v w r c} : Effect s (.sub d x) (((resolve s d).write s v).setFlags (s.flags.arith w r c))
  | mul {d x v w r c} : Effect s (.mul d x) (((resolve s d).write s v).setFlags (s.flags.arith w r c))
  | div {d x v w r c} : Effect s (.div d x) (((resolve s d).write s v).setFlags (s.flags.arith w r c))
  | sdiv {d x v w r c} : Effect s (.sdiv d x) (((resolve s d).write s v).setFlags (s.flags.arith w r c))
  | addf {d x v w r n} : Effect s (.addf d x) (((resolve s d).write s v).setFlags (s.flags.saturated w r n))
  | subf {d x v w r n} : Effect s (.subf d x) (((resolve s d).write s v).setFlags (s.flags.saturated w r n))
  | divr {d x e q m w r c} : Effect s (.divr d x e)
      (((resolve s e).write ((resolve s d).write s q) m).setFlags (s.flags.arith w r c))
  | sdivr {d x e q m w r c} : Effect s (.sdivr d x e)
      (((resolve s e).write ((resolve s d).write s q) m).setFlags (s.flags.arith w r c))
  | sdivZero {d x} : Effect s (.sdiv d x) s.reportDivZero
  | sdivrZero {d x e} : Effect s (.sdivr d x e) s.reportDivZero
  | cp {a b w v x y} : Effect s (.cp a b) (s.setFlags (Flags.compare w v x y))
  | fcp {a b p q} : Effect s (.fcp a b) (s.setFlags (Flags.compareFloat p q))
  | djnz {c g v} : Effect s (.djnz c g) ((resolveCell s c).write s v)
  | djnzTaken {c g v} : Effect s (.djnz c g)
      (((resolveCell s c).write s v).setIpo (targetVal ((resolveCell s c).write s v) g))
  | push {w i bs} (h : s.spr + bs.length ≤ s.cfg.stackCap) : Effect s (.push w i) (s.pushBytes bs)
  | pushr {a e bs} (h : s.spr + bs.length ≤ s.cfg.stackCap) : Effect s (.pushr a e) (s.pushBytes bs)
  | pushf {k bs} (h : s.spr + bs.length ≤ s.cfg.stackCap) : Effect s (.pushf k) (s.pushBytes bs)
  | pushfr {a e bs} (h : s.spr + bs.length ≤ s.cfg.stackCap) : Effect s (.pushfr a e) (s.pushBytes bs)
  | pop {w i n v} : Effect s (.pop w i) ((s.drop n).setGroup w i v)
  | popr {a e n} : Effect s (.popr a e) (s.popSlots e n)
  | popf {k n p} : Effect s (.popf k) ((s.drop n).setFreg k p)
  | popfr {a e n} : Effect s (.popfr a e) (s.popFregs e n)
  | fault {i kind} (h : usesStack i) : Effect s i (s.stackFault kind)

/-- A push that answers a next state pushed its bytes, which fit, or took the stack fault. -/
theorem effect_of_push {i : Instr} {s t : State} {bs : List Byte} (h : s.push bs = .next t) (hi : usesStack i)
    (hfit : s.spr + bs.length ≤ s.cfg.stackCap → Effect s i (s.pushBytes bs)) : Effect s i t := by
  obtain ⟨-, rfl⟩ | ⟨hle, rfl⟩ := State.push_next h
  · exact .fault hi
  · exact hfit hle

/-- A pop that answers a next state went on, or took the stack fault. -/
theorem effect_of_popCheck {i : Instr} {s t : State} {n : Nat} {k : State → State} (h : s.popCheck n k = .next t)
    (hi : usesStack i) (hgo : Effect s i (k s)) : Effect s i t := by
  obtain ⟨-, rfl⟩ | ⟨-, -, rfl⟩ := State.popCheck_next h
  · exact .fault hi
  · exact hgo

/-- Every next state of an instruction is one of its effects. -/
theorem effect_of_exec {i : Instr} {s t : State} (h : exec i s = .next t) : Effect s i t := by
  cases i with
  | ld | ldff | ldfi | ldfm | stf | ldfx | fill | fills | add | sub | mul | cp | fcp | nand | xnor | imply =>
    cases h; constructor
  | ldxf d k =>
    simp only [exec, execLdxf] at h
    split at h <;> cases h
    exact .ldxf
  | addf d x =>
    simp only [exec, execAddf] at h
    split at h <;> cases h
    exact .addf
  | subf d x =>
    simp only [exec, execSubf] at h
    split at h <;> cases h
    exact .subf
  | div d x =>
    simp only [exec, execDiv] at h
    split at h <;> cases h <;> exact .div
  | divr d x e =>
    simp only [exec, execDivr] at h
    split at h <;> cases h <;> exact .divr
  | sdiv d x =>
    simp only [exec, execSdiv] at h
    split at h <;> cases h
    · exact .sdivZero
    · exact .sdiv
  | sdivr d x e =>
    simp only [exec, execSdivr] at h
    split at h <;> cases h
    · exact .sdivrZero
    · exact .sdivr
  | djnz c g =>
    simp only [exec, execDjnz] at h
    split at h <;> cases h
    · exact .djnz
    · exact .djnzTaken
  | push => exact effect_of_push h trivial .push
  | pushr => exact effect_of_push h trivial .pushr
  | pushf => exact effect_of_push h trivial .pushf
  | pushfr => exact effect_of_push h trivial .pushfr
  | pop =>
    simp only [exec, execPop] at h
    exact effect_of_popCheck h trivial .pop
  | popr =>
    simp only [exec, execPopr] at h
    exact effect_of_popCheck h trivial .popr
  | popf =>
    simp only [exec, execPopf] at h
    exact effect_of_popCheck h trivial .popf
  | popfr =>
    simp only [exec, execPopfr] at h
    exact effect_of_popCheck h trivial .popfr
  | fdenom => cases h

/-- An instruction is refused for a NaN or as unspecified, and for nothing else (60_exceptions.md R511). -/
theorem refusal_of_exec {i : Instr} {s : State} {r : Refusal} (h : exec i s = .refused r) :
    r = .floatNaN ∨ r = .unspecified := by
  cases i with
  | ld | ldff | ldfi | ldfm | stf | ldfx | fill | fills | add | sub | mul | cp | fcp | nand | xnor | imply | djnz =>
    cases h
  | ldxf | addf | subf =>
    simp only [exec, execLdxf, execAddf, execSubf, satWrite] at h
    split at h <;> cases h
    exact .inl rfl
  | div | divr | sdiv | sdivr =>
    simp only [exec, execDiv, execDivr, execSdiv, execSdivr, aluWrite, divWrite] at h
    split at h <;> cases h
  | push | pushr | pushf | pushfr =>
    simp only [exec, execPush, execPushr, execPushf, execPushfr, State.push] at h
    split at h <;> cases h
  | pop | popr | popf | popfr =>
    simp only [exec, execPop, execPopr, execPopf, execPopfr, State.popCheck] at h
    split at h
    · cases h
    · split at h <;> cases h
  | fdenom => cases h; exact .inr rfl

/-! ### The flags -/

/-- Settles O22: only the flag computations of arithmetic, compares and LDXF touch a flag, and each of these keeps or
clears what 10_state.md R38 says. -/
theorem flagWriters : Obligations.FlagWriters := by
  intro i s t h
  cases effect_of_exec h with
  | ld | nand | xnor | imply | djnz | djnzTaken | pop => simp
  | add | sub | mul | div | sdiv | divr | sdivr | sdivZero | sdivrZero | addf | subf => exact ⟨rfl, rfl, rfl, rfl⟩
  | ldff | ldfi | ldfm | ldfx | ldxf | stf | fill | fills | cp | fcp | push | pushr | pushf | pushfr | popf => rfl
  | popr => simp [State.popSlots_frame]
  | popfr => simp [State.popFregs_frame]
  | fault hi =>
    cases i with
    | push | pop | pushr | popr | pushf | popf | pushfr | popfr => rfl
    | _ => exact hi.elim

/-! ### The register files -/

/-- Settles O23: an integer destination in RAM leaves the integer registers, and no integer destination touches a
float register. -/
theorem registerFileWriters : Obligations.RegisterFileWriters := by
  intro i s t h
  cases effect_of_exec h with
  | @ld d | @nand d | @xnor d | @imply d | @ldxf d | @add d | @sub d | @mul d | @div d | @sdiv d | @addf d | @subf d =>
    cases d with
    | reg => simp
    | mem => simp [resolve, Loc.write]
  | @divr d _ e | @sdivr d _ e =>
    cases d with
    | reg => simp
    | mem =>
      cases e with
      | reg => simp
      | mem => simp [resolve, Loc.write]
  | @djnz c | @djnzTaken c =>
    cases c with
    | reg => simp
    | abs | ind => simp [resolveCell, Loc.write]
  | ldff | ldfi | ldfm | ldfx | popf | stf | fill | fills | cp | fcp | sdivZero | sdivrZero => simp
  | push | pushr | pushf | pushfr | fault | pop => simp
  | popr => simp [State.popSlots_frame]
  | popfr => simp [State.popFregs_frame]

/-! ### IPO -/

/-- Settles O24: apart from a taken DJNZ and the stack fault every effect leaves IPO, against the hypothesis. -/
theorem ipoWriters : Obligations.IpoWriters := by
  intro i s t h hne
  cases effect_of_exec h with
  | djnzTaken => exact .inl ⟨_, _, rfl, rfl⟩
  | fault hi => exact .inr ⟨rfl, rfl, by cases i <;> exact hi⟩
  | popr => exact absurd (by simp [State.popSlots_frame]) hne
  | popfr => exact absurd (by simp [State.popFregs_frame]) hne
  | _ => exact absurd (by simp) hne

/-! ### The invariant -/

theorem inv_popSlots {s : State} (hs : s.Inv) (i : Slot) (n : Nat) : (s.popSlots i n).Inv := by
  obtain ⟨-, -, -, hstack, hram, hhmem, -, hcfg, hspr⟩ := State.popSlots_frame s i n
  exact hs.congr hram hstack (by omega) hhmem hcfg

theorem inv_popFregs {s : State} (hs : s.Inv) (k : FSlot) (n : Nat) : (s.popFregs k n).Inv := by
  obtain ⟨-, -, -, hstack, hram, hhmem, -, hcfg, hspr⟩ := State.popFregs_frame s k n
  exact hs.congr hram hstack (by omega) hhmem hcfg

/-- An instruction keeps the invariant: each operation that an effect is made of does. -/
theorem exec_keeps_inv {i : Instr} {s t : State} (hs : s.Inv) (h : exec i s = .next t) : t.Inv := by
  cases effect_of_exec h with
  | ld | nand | xnor | imply | djnz => exact hs.write _ _
  | ldff | ldfi | ldfm | ldfx => exact hs.setFreg _ _
  | stf => exact hs.setRam (memWrite_wf hs.ramWf _ _ _) (memWrite_keys hs.ramKeys)
  | fill => exact hs.setRam (fillCore_wf hs.ramWf _ _ _ _) (fillCore_keys hs.ramKeys)
  | fills => exact hs.setRam (stampCore_wf hs.ramWf _ _ _ _ _ _) (stampCore_keys hs.ramKeys)
  | ldxf | add | sub | mul | div | sdiv | addf | subf => exact (hs.write _ _).setFlags _
  | divr | sdivr => exact ((hs.write _ _).write _ _).setFlags _
  | sdivZero | sdivrZero => exact hs.reportDivZero
  | cp | fcp => exact hs.setFlags _
  | djnzTaken => exact (hs.write _ _).setIpo _
  | push hfit | pushr hfit | pushf hfit | pushfr hfit => exact hs.pushBytes hfit
  | pop | popf => exact hs.congr (by simp) (by simp) (by simp) (by simp) (by simp)
  | popr => exact inv_popSlots hs _ _
  | popfr => exact inv_popFregs hs _ _
  | fault => exact hs.stackFault _

/-- No instruction changes the OPEN parameters (00_scope.md R5). -/
theorem exec_keeps_cfg {i : Instr} {s t : State} (h : exec i s = .next t) : t.cfg = s.cfg := by
  cases effect_of_exec h with
  | popr => simp [State.popSlots_frame]
  | popfr => simp [State.popFregs_frame]
  | _ => simp

/-- A step that answers a next state ran an instruction with IPO at the fall-through address. -/
theorem step_next {s t : State} (h : step s = .next t) : ∃ i n, exec i (s.advance n) = .next t := by
  unfold step at h
  split at h
  · cases h
  · exact ⟨_, _, h⟩

/-- Settles O19: moving IPO keeps the invariant, and so does the instruction. -/
theorem stepKeepsInvariant : Obligations.StepKeepsInvariant := by
  intro s t hs h
  obtain ⟨i, n, hexec⟩ := step_next h
  exact ⟨exec_keeps_inv (hs.advance n) hexec, (exec_keeps_cfg hexec).trans (s.advance_cfg n)⟩

end Sys2Proof.Machine
end

section
/-! No instruction reads a flag (10_state.md R39): each shared operation, and with them each instruction, gives from
states that differ in their flags alone outcomes that differ in them alone. -/

namespace Sys2Proof.Machine

/-- The state with its flags cleared: what is left of it when the flags are hidden. -/
def eraseFlags (s : State) : State := s.setFlags Flags.clear

@[simp] theorem eraseFlags_setFlags (s : State) (f : Flags) : eraseFlags (s.setFlags f) = eraseFlags s := rfl

/-- Two choices by one condition are the same where their branches are. -/
theorem sameBut_ite {erase : State → State} {c : Prop} [Decidable c] {o₁ o₂ o₁' o₂' : Host.Outcome State Fault Refusal}
    (h₁ : SameBut erase o₁ o₁') (h₂ : SameBut erase o₂ o₂') :
    SameBut erase (if c then o₁ else o₂) (if c then o₁' else o₂') := by
  split
  · exact h₁
  · exact h₂

section

variable (s : State) (f : Flags)

/-! ### The shared operations -/

theorem aluWrite_setFlags (l : Loc) (r : Nat) (c : Bool) :
    SameBut eraseFlags (aluWrite (s.setFlags f) l r c) (aluWrite s l r c) := by
  simp [SameBut, aluWrite, write_setFlags]

theorem divWrite_setFlags (l lr : Loc) (q rm : Nat) (c : Bool) :
    SameBut eraseFlags (divWrite (s.setFlags f) l lr q rm c) (divWrite s l lr q rm c) := by
  simp [SameBut, divWrite, write_setFlags]

theorem satWrite_setFlags (l : Loc) (x : Int) :
    SameBut eraseFlags (satWrite (s.setFlags f) l x) (satWrite s l x) := by
  simp [SameBut, satWrite, write_setFlags]

theorem logicWrite_setFlags (d : ILoc) (x : ISrc) (g : Width → Nat → Nat → Nat) :
    SameBut eraseFlags (logicWrite (s.setFlags f) d x g) (logicWrite s d x g) := by
  simp [SameBut, logicWrite, write_setFlags, resolve_setFlags, srcVal_setFlags]

theorem push_setFlags (bs : List Byte) : SameBut eraseFlags ((s.setFlags f).push bs) (s.push bs) :=
  sameBut_ite rfl rfl

/-- A pop that goes on in a way that commutes with replacing the flags. -/
theorem popCheck_setFlags (n : Nat) {k : State → State} (hk : k (s.setFlags f) = (k s).setFlags f) :
    SameBut eraseFlags ((s.setFlags f).popCheck n k) (s.popCheck n k) := by
  have hgo : eraseFlags (k (s.setFlags f)) = eraseFlags (k s) := by rw [hk, eraseFlags_setFlags]
  exact sameBut_ite rfl (sameBut_ite rfl hgo)

/-! ### The instructions and the step -/

theorem exec_setFlags (i : Instr) : SameBut eraseFlags (exec i (s.setFlags f)) (exec i s) := by
  cases i with
  | ld d x =>
    simp only [exec, execLd, resolve_setFlags, srcVal_setFlags, write_setFlags]
    rfl
  | ldff | ldfi => rfl
  | ldfm d m =>
    simp only [exec, execLdfm, floatAt_setFlags]
    rfl
  | stf m x =>
    simp only [exec, execStf, effAddr_setFlags, fri_setFlags]
    rfl
  | ldfx d x =>
    simp only [exec, execLdfx, srcVal_setFlags]
    rfl
  | ldxf d k =>
    simp only [exec, execLdxf, freg_setFlags, resolve_setFlags, write_setFlags]
    exact sameBut_ite rfl rfl
  | fill m p n =>
    simp only [exec, execFill, effAddr_setFlags, roi_setFlags]
    rfl
  | fills m p n w r =>
    simp only [exec, execFills, effAddr_setFlags, roi_setFlags, group_setFlags]
    rfl
  | add d x | sub d x | mul d x =>
    simp only [exec, execAdd, execSub, execMul, resolve_setFlags, srcVal_setFlags, Loc.read_setFlags]
    exact aluWrite_setFlags ..
  | addf d x | subf d x =>
    simp only [exec, execAddf, execSubf, resolve_setFlags, fsrcVal_setFlags, Loc.read_setFlags]
    exact sameBut_ite rfl (satWrite_setFlags ..)
  | div d x =>
    simp only [exec, execDiv, resolve_setFlags, srcVal_setFlags, Loc.read_setFlags]
    exact sameBut_ite (aluWrite_setFlags ..) (aluWrite_setFlags ..)
  | divr d x e =>
    simp only [exec, execDivr, resolve_setFlags, srcVal_setFlags, Loc.read_setFlags]
    exact sameBut_ite (divWrite_setFlags ..) (divWrite_setFlags ..)
  | sdiv d x =>
    simp only [exec, execSdiv, resolve_setFlags, srcVal_setFlags, Loc.read_setFlags]
    exact sameBut_ite rfl (aluWrite_setFlags ..)
  | sdivr d x e =>
    simp only [exec, execSdivr, resolve_setFlags, srcVal_setFlags, Loc.read_setFlags]
    exact sameBut_ite rfl (divWrite_setFlags ..)
  | cp a b =>
    simp only [exec, execCp, resolve_setFlags, srcVal_setFlags, Loc.read_setFlags]
    rfl
  | fcp a b =>
    simp only [exec, execFcp, flocVal_setFlags, fsrcVal_setFlags]
    rfl
  | nand d x | xnor d x | imply d x =>
    simp only [exec, execNand, execXnor, execImply]
    exact logicWrite_setFlags ..
  | push w i | pushr a e | pushf k | pushfr a e =>
    simp only [exec, execPush, execPushr, execPushf, execPushfr, slotBytes_setFlags, freg_setFlags, fregBytes_setFlags]
    exact push_setFlags ..
  | pop w i =>
    simp only [exec, execPop]
    refine popCheck_setFlags _ _ _ ?_
    exact setSlots_setFlags (s.drop w.bytes) f i _
  | popr a e =>
    simp only [exec, execPopr]
    refine popCheck_setFlags _ _ _ ?_
    exact popSlots_setFlags s f e _
  | popf k =>
    simp only [exec, execPopf]
    refine popCheck_setFlags _ _ _ ?_
    rfl
  | popfr a e =>
    simp only [exec, execPopfr]
    refine popCheck_setFlags _ _ _ ?_
    exact popFregs_setFlags s f e _
  | djnz c g =>
    simp only [exec, execDjnz, resolveCell_setFlags, Loc.read_setFlags, write_setFlags, target_setFlags]
    split
    · rfl
    · rfl
  | fdenom => rfl

end

/-- Settles O20: the flags are no part of what a fetch reads, and the fetched instruction reads none. -/
theorem flagsAreNeverRead : Obligations.FlagsAreNeverRead := by
  intro s f
  have hfetch : fetchInstr (s.setFlags f) = fetchInstr s := rfl
  unfold step
  rw [hfetch, State.setFlags_cfg]
  split
  · rfl
  · exact exec_setFlags (s.advance _) f _

end Sys2Proof.Machine
end

section
/-! The step at an instruction in RAM: what it fetches is what the selected descriptor says, so that it runs the
instruction an encoding stands for, and is refused for a bad index exactly where the descriptor's fields hold one. -/

namespace Sys2Proof

open Config Machine

/-! ### Decoding the bytes behind the opcode bytes -/

/-- A well-formed instruction's own op tag and operands make it again (30_encoding.md R123). -/
theorem assemble_operands : ∀ i : Instr, Laws.AssembleOperands.Statement i
  | .ld .. => Laws.AssembleOperands.ld _ _
  | .ldff .. => Laws.AssembleOperands.ldff _ _
  | .ldfi .. => Laws.AssembleOperands.ldfi _ _
  | .ldfm .. => Laws.AssembleOperands.ldfm _ _
  | .stf .. => Laws.AssembleOperands.stf _ _
  | .ldfx .. => Laws.AssembleOperands.ldfx _ _
  | .ldxf .. => Laws.AssembleOperands.ldxf _ _
  | .fill .. => Laws.AssembleOperands.fill _ _ _
  | .fills .. => Laws.AssembleOperands.fills _ _ _ _ _
  | .add .. => Laws.AssembleOperands.add _ _
  | .sub .. => Laws.AssembleOperands.sub _ _
  | .addf .. => Laws.AssembleOperands.addf _ _
  | .subf .. => Laws.AssembleOperands.subf _ _
  | .mul .. => Laws.AssembleOperands.mul _ _
  | .div .. => Laws.AssembleOperands.div _ _
  | .divr .. => Laws.AssembleOperands.divr _ _ _
  | .sdiv .. => Laws.AssembleOperands.sdiv _ _
  | .sdivr .. => Laws.AssembleOperands.sdivr _ _ _
  | .cp .. => Laws.AssembleOperands.cp _ _
  | .fcp .. => Laws.AssembleOperands.fcp _ _
  | .nand .. => Laws.AssembleOperands.nand _ _
  | .xnor .. => Laws.AssembleOperands.xnor _ _
  | .imply .. => Laws.AssembleOperands.imply _ _
  | .push .. => Laws.AssembleOperands.push _ _
  | .pop .. => Laws.AssembleOperands.pop _ _
  | .pushr .. => Laws.AssembleOperands.pushr _ _
  | .popr .. => Laws.AssembleOperands.popr _ _
  | .pushf .. => Laws.AssembleOperands.pushf _
  | .popf .. => Laws.AssembleOperands.popf _
  | .pushfr .. => Laws.AssembleOperands.pushfr _ _
  | .popfr .. => Laws.AssembleOperands.popfr _ _
  | .djnz .. => Laws.AssembleOperands.djnz _ _
  | .fdenom .. => Laws.AssembleOperands.fdenom _

/-- The operands of a well-formed instruction are well-formed (30_encoding.md R110). -/
theorem operands_wf : ∀ i : Instr, Laws.OperandsWf.Statement i
  | .ld .. => Laws.OperandsWf.ld _ _
  | .ldff .. => Laws.OperandsWf.ldff _ _
  | .ldfi .. => Laws.OperandsWf.ldfi _ _
  | .ldfm .. => Laws.OperandsWf.ldfm _ _
  | .stf .. => Laws.OperandsWf.stf _ _
  | .ldfx .. => Laws.OperandsWf.ldfx _ _
  | .ldxf .. => Laws.OperandsWf.ldxf _ _
  | .fill .. => Laws.OperandsWf.fill _ _ _
  | .fills .. => Laws.OperandsWf.fills _ _ _ _ _
  | .add .. => Laws.OperandsWf.add _ _
  | .sub .. => Laws.OperandsWf.sub _ _
  | .addf .. => Laws.OperandsWf.addf _ _
  | .subf .. => Laws.OperandsWf.subf _ _
  | .mul .. => Laws.OperandsWf.mul _ _
  | .div .. => Laws.OperandsWf.div _ _
  | .divr .. => Laws.OperandsWf.divr _ _ _
  | .sdiv .. => Laws.OperandsWf.sdiv _ _
  | .sdivr .. => Laws.OperandsWf.sdivr _ _ _
  | .cp .. => Laws.OperandsWf.cp _ _
  | .fcp .. => Laws.OperandsWf.fcp _ _
  | .nand .. => Laws.OperandsWf.nand _ _
  | .xnor .. => Laws.OperandsWf.xnor _ _
  | .imply .. => Laws.OperandsWf.imply _ _
  | .push .. => Laws.OperandsWf.push _ _
  | .pop .. => Laws.OperandsWf.pop _ _
  | .pushr .. => Laws.OperandsWf.pushr _ _
  | .popr .. => Laws.OperandsWf.popr _ _
  | .pushf .. => Laws.OperandsWf.pushf _
  | .popf .. => Laws.OperandsWf.popf _
  | .pushfr .. => Laws.OperandsWf.pushfr _ _
  | .popfr .. => Laws.OperandsWf.popfr _ _
  | .djnz .. => Laws.OperandsWf.djnz _ _
  | .fdenom .. => Laws.OperandsWf.fdenom _

/-- Where the operand fields are decoded from, given the bytes behind the opcode bytes: behind the pair byte of a mixed
descriptor, with the pair to take indices from, or at once (R108, R109). -/
inductive StartsAt (last : Byte) : Bool → List Byte → Cursor → Prop
  | plain {bs} : StartsAt last false bs ⟨[], bs⟩
  | mixed {cm bs} : StartsAt last true (cm :: bs) ⟨mixedPair last cm, bs⟩

theorem decodeBody_of_operands {d : Descriptor} {last : Byte} {bs : List Byte} {c c' : Cursor} {ops : List Operand}
    {i : Instr} (hc : StartsAt last d.mixed bs c) (hops : decodeOperands d.operands c = .ok (ops, c'))
    (hi : assemble d.op ops = some i) : decodeBody d last bs = .ok (i, c'.bytes) := by
  generalize hm : d.mixed = mixed at hc
  cases hc <;> simp [decodeBody, hm, hops, hi]

/-- Behind the operand fields nothing ends the decoder in BadRegIndex. -/
theorem decodeBody_badRegIndex_iff {d : Descriptor} {last : Byte} {bs : List Byte} {c : Cursor}
    (hc : StartsAt last d.mixed bs c) :
    decodeBody d last bs = .error .badRegIndex ↔ decodeOperands d.operands c = .error .badRegIndex := by
  cases hops : decodeOperands d.operands c with
  | error e =>
    generalize hm : d.mixed = mixed at hc
    cases hc <;> simp [decodeBody, hm, hops]
  | ok r =>
    generalize hm : d.mixed = mixed at hc
    cases hi : assemble d.op r.1 <;> cases hc <;> simp [decodeBody, hm, hops, hi]

/-- The cursor behind the pair byte of an encoding supplies the fields of the operands (R108, R109). -/
theorem encodeBody_supplies {mixed : Bool} {last : Byte} {fs : List Field} {b : List Byte}
    (h : encodeBody mixed last fs = some b) (rest : List Byte) :
    ∃ c, StartsAt last mixed (b ++ rest) c ∧ Supplies fs c.pair c.bytes rest := by
  cases mixed with
  | false =>
    simp only [encodeBody, Bool.false_eq_true, if_false, Option.some.injEq] at h
    subst h
    exact ⟨_, .plain, supplies_own_bytes fs rest⟩
  | true =>
    simp only [encodeBody, if_true] at h
    split at h
    · cases h
    rename_i f₁ fs₁ hf₁
    split at h
    · cases h
    rename_i f₂ fs₂ hf₂
    split at h
    · rename_i i₁ i₂ hi₁ hi₂
      split at h
      · rename_i hl
        cases h
        obtain ⟨v₁, v₂, hpair, hv₁, hv₂⟩ := carries_pair hi₁ hi₂ hl
        refine ⟨_, .mixed, ?_⟩
        rw [hpair]
        exact supplies_takeIndexField hf₁ hv₁ (supplies_takeIndexField hf₂ hv₂ (supplies_own_bytes fs₂ rest))
      · cases h
    · cases h

/-- The bytes an encoding puts after the opcode bytes decode to the instruction, whatever stands behind them. -/
theorem decodeBody_encodeUnder {d : Descriptor} {last : Byte} {i : Instr} {b : List Byte} (hw : i.wf = true)
    (h : encodeUnder d last i = some b) (rest : List Byte) : decodeBody d last (b ++ rest) = .ok (i, rest) := by
  unfold encodeUnder at h
  split at h
  · rename_i hd
    obtain ⟨hop, hos⟩ := hd
    obtain ⟨c, hc, hs⟩ := encodeBody_supplies h rest
    obtain ⟨c', hdec, rfl⟩ := decodeOperands_supplied (operands_wf i hw) hs
    exact decodeBody_of_operands hc (hos ▸ hdec) (hop ▸ assemble_operands i hw)
  · cases h

/-! ### The fetch -/

theorem fetchInstr_length (s : State) : (fetchInstr s).length =
    instrLength s.cfg.opmap (s.ram.read s.ipo.toNat) (s.ram.read (s.ipo + 1).toNat) := ramBytes_length ..

/-- Where the opcode bytes at IPO select a descriptor, the step decodes the bytes behind them under it, as many as its
length says (30_encoding.md R103, R130). -/
theorem decode_fetchInstr_of_selects {s : State} {d : Descriptor} {last : Byte} {a : Addr} (h : Selects s d last a) :
    decode s.cfg.opmap (fetchInstr s) = decodeBody d last (ramBytes s.ram a (bodyLength d)) := by
  unfold fetchInstr instrLength
  obtain ⟨hd, rfl, rfl⟩ | ⟨t, ht, hd, rfl, rfl⟩ := h
  · simp only [hd, Nat.add_comm 1, ramBytes, decode]
  · have hnext : s.ipo + 1 + 1 = s.ipo + 2 := BitVec.add_assoc ..
    simp only [ht, hd, Nat.add_comm 2, ramBytes, decode, hnext]

/-- Where RAM at IPO holds an encoding, its opcode bytes select a descriptor, under which the bytes behind them encode
the instruction, and the step fetches exactly the encoding. -/
theorem selects_of_encode {s : State} {i : Instr} {bs : List Byte} (h : encode s.cfg.opmap i = some bs)
    (hram : ramBytes s.ram s.ipo bs.length = bs) :
    ∃ d last a b, Selects s d last a ∧ encodeUnder d last i = some b ∧ ramBytes s.ram a b.length = b ∧
      (fetchInstr s).length = bs.length := by
  obtain ⟨p, d, b, hp, hb, rfl⟩ | ⟨p, t, x, d, b, hp, hx, hb, rfl⟩ := encode_some h
  · simp only [List.length_cons, ramBytes, List.cons.injEq] at hram
    obtain ⟨rfl, hram⟩ := hram
    refine ⟨d, _, _, b, .inl ⟨hp, rfl, rfl⟩, hb, hram, ?_⟩
    simp only [fetchInstr_length, instrLength, hp, List.length_cons, encodeUnder_length hb, Nat.add_comm 1]
  · have hnext : s.ipo + 1 + 1 = s.ipo + 2 := BitVec.add_assoc ..
    simp only [List.length_cons, ramBytes, List.cons.injEq, hnext] at hram
    obtain ⟨rfl, rfl, hram⟩ := hram
    refine ⟨d, _, _, b, .inr ⟨t, hp, hx, rfl, rfl⟩, hb, hram, ?_⟩
    simp only [fetchInstr_length, instrLength, hp, hx, List.length_cons, encodeUnder_length hb, Nat.add_comm 2]

/-- Settles O2: the fetched bytes are the encoding's own, which decode to the instruction with none left over. -/
theorem stepRunsEncodedInstruction : Obligations.StepRunsEncodedInstruction := by
  intro s i bs hw henc hram
  obtain ⟨d, last, a, b, hsel, hb, hbody, hlen⟩ := selects_of_encode henc hram
  have hdec : decode s.cfg.opmap (fetchInstr s) = .ok (i, []) := by
    have h := decodeBody_encodeUnder hw hb []
    rw [List.append_nil] at h
    rw [decode_fetchInstr_of_selects hsel, ← encodeUnder_length hb, hbody, h]
  unfold step
  rw [hdec, ← hlen]
  rfl

/-! ### The index check -/

/-- The pair as numbers (30_encoding.md R108): the low bits of the last opcode byte stand above the three high bits of
the pair byte, which they do not overlap. -/
theorem mixedPair_toNat (last cm : Byte) :
    (mixedPair last cm).map BitVec.toNat = [8 * (last.toNat % 4) + cm.toNat / 32, cm.toNat % 32] := by
  have hcm : cm.toNat / 32 < 2 ^ 3 := by
    have := cm.isLt
    omega
  have hor : 8 * (last.toNat % 4) ||| cm.toNat / 32 = 8 * (last.toNat % 4) + cm.toNat / 32 :=
    (Nat.two_pow_add_eq_or_of_lt hcm _).symm
  have hhigh : last.toNat % 32 * 8 % 32 = 8 * (last.toNat % 4) := by omega
  have hlow : cm.toNat / 32 % 32 = cm.toNat / 32 := by omega
  have hmask : ∀ x : BitVec 5, x &&& 0x1F#5 = x := fun _ => BitVec.and_allOnes
  simp [mixedPair, hmask, Nat.shiftLeft_eq, Nat.shiftRight_eq_div_pow, hhigh, hlow, hor]

/-- The step ends in BadRegIndex exactly where the decoder does. -/
theorem step_badRegIndex_iff (s : State) :
    step s = .refused .badRegIndex ↔ decode s.cfg.opmap (fetchInstr s) = .error .badRegIndex := by
  unfold step
  split
  · rename_i e he
    rw [he]
    cases e <;> simp [decodeRefusal]
  · rename_i i rest he
    refine iff_of_false (fun h => ?_) (by rw [he]; nofun)
    obtain hr | hr := refusal_of_exec h <;> cases hr

/-- Decoding the operand fields that stand in RAM from a on ends in BadRegIndex exactly where one of their integer
indices exceeds 25. -/
theorem decodeOperands_badRegIndex_iff (os : List OperandSpec) (m : Memory) (p : List (BitVec 5)) (a : Addr) :
    let fs := os.flatMap fieldsOf
    decodeOperands os ⟨p, ramBytes m a (takenBytes fs p.length)⟩ = .error .badRegIndex ↔
      ∃ v ∈ intIndices m (p.map BitVec.toNat) a fs, 25 < v := by
  intro fs
  obtain ⟨herr, hv⟩ | ⟨⟨x, hok⟩, hv⟩ := decodeOperands_checks os m p a _ (Nat.le_refl _)
  · exact iff_of_true herr hv
  · refine iff_of_false (by rw [hok]; nofun) fun ⟨v, hmem, hlt⟩ => ?_
    exact absurd (hv v hmem) (by omega)

theorem bodyLength_of_plain {d : Descriptor} (hm : d.mixed = false) :
    bodyLength d = takenBytes (d.operands.flatMap fieldsOf) 0 := by
  obtain ⟨hraw, hidx⟩ := counts_fieldsOf d.operands
  simp [bodyLength, takenBytes, Descriptor.indexFields, hm, hraw, hidx]

theorem bodyLength_of_mixed {d : Descriptor} (hm : d.mixed = true) :
    bodyLength d = takenBytes (d.operands.flatMap fieldsOf) 2 + 1 := by
  obtain ⟨hraw, hidx⟩ := counts_fieldsOf d.operands
  simp only [bodyLength, takenBytes, Descriptor.indexFields, hm, hraw, hidx, if_true]
  omega

/-- Settles O12: the step is refused where the operand fields are, from the cursor behind the opcode bytes or behind
the pair byte. -/
theorem badRegisterIndexIsRefused : Obligations.BadRegisterIndexIsRefused := by
  intro s d last a hsel cm pair fields
  rw [step_badRegIndex_iff, decode_fetchInstr_of_selects hsel]
  cases hm : d.mixed with
  | false =>
    have hstart : StartsAt last d.mixed (ramBytes s.ram a (bodyLength d))
        ⟨[], ramBytes s.ram a (takenBytes fields 0)⟩ := by
      rw [hm, bodyLength_of_plain hm]
      exact .plain
    rw [decodeBody_badRegIndex_iff hstart]
    exact decodeOperands_badRegIndex_iff d.operands s.ram [] a
  | true =>
    have hstart : StartsAt last d.mixed (ramBytes s.ram a (bodyLength d))
        ⟨mixedPair last (s.ram.read a.toNat), ramBytes s.ram (a + 1) (takenBytes fields 2)⟩ := by
      rw [hm, bodyLength_of_mixed hm]
      exact .mixed
    have hpair : (mixedPair last (s.ram.read a.toNat)).map BitVec.toNat = pair := mixedPair_toNat ..
    rw [decodeBody_badRegIndex_iff hstart, ← hpair]
    exact decodeOperands_badRegIndex_iff d.operands s.ram (mixedPair last (s.ram.read a.toNat)) (a + 1)

end Sys2Proof
end

section
/-! The address spaces: RAM's byte order and wrap (20_memory.md R71, R72), and which instructions reach RAM, the stack
region and HMEM (R70, R78, R79). -/

namespace Sys2Proof.Machine

/-! ### RAM -/

/-- Settles O14: an access is far shorter than RAM, so that it meets itself at no address. -/
theorem ramIsBigEndianAndWraps : Obligations.RamIsBigEndianAndWraps := by
  intro m a n v hm hn
  have hlen : n ≤ 2 ^ 24 := hn.trans (by decide)
  exact ⟨memRead_lt m a n, fun k hk => ⟨read_memRead m a n k hk, read_memWrite hm a hlen hk⟩,
    fun x hx => memWrite_read_outside hm v fun k hk hxk => hx ⟨k, hk, hxk⟩, memRead_write hm a hlen v⟩

/-! ### Who reaches which space -/

/-- An instruction other than a push or pop leaves the stack region, SPR and HMEM: it writes registers, RAM, flags, IPO
and port events only (20_memory.md R78, R79; 10_state.md R43). -/
theorem exec_keeps_stack {i : Instr} {s t : State} (h : exec i s = .next t) (hi : ¬usesStack i) :
    t.stack = s.stack ∧ t.spr = s.spr ∧ t.hmem = s.hmem := by
  cases effect_of_exec h with
  | push | pushr | pushf | pushfr | pop | popr | popf | popfr => exact absurd trivial hi
  | fault hf => exact absurd hf hi
  | _ => simp

/-- A push or pop leaves RAM (20_memory.md R79). -/
theorem exec_keeps_ram {i : Instr} {s t : State} (h : exec i s = .next t) (hi : usesStack i) : t.ram = s.ram := by
  cases effect_of_exec h with
  | push | pushr | pushf | pushfr | pop | popf | fault => simp
  | popr => simp [State.popSlots_frame]
  | popfr => simp [State.popFregs_frame]
  | _ => exact hi.elim

/-- HMEM is written by the stack fault protocol alone (20_memory.md R78; 60_exceptions.md R501). -/
theorem hmem_kept_or_stackFault_of_exec {i : Instr} {s t : State} (h : exec i s = .next t) :
    t.hmem = s.hmem ∨ ∃ kind, t = s.stackFault kind := by
  cases effect_of_exec h with
  | fault => exact .inr ⟨_, rfl⟩
  | popr => exact .inl (by simp [State.popSlots_frame])
  | popfr => exact .inl (by simp [State.popFregs_frame])
  | _ => exact .inl (by simp)

/-- The pops (41_stack.md R304, R306, R308, R310). -/
def isPop : Instr → Prop
  | .pop .. | .popr .. | .popf .. | .popfr .. => True
  | _ => False

/-- A pop leaves the stack region: it moves SPR and leaves the popped bytes where they are (41_stack.md R302). -/
theorem exec_pop_keeps_stack {i : Instr} {s t : State} (h : exec i s = .next t) (hi : isPop i) : t.stack = s.stack := by
  cases effect_of_exec h with
  | pop | popf | fault => simp
  | popr => simp [State.popSlots_frame]
  | popfr => simp [State.popFregs_frame]
  | _ => exact hi.elim

/-- Settles O25: HMEM by who writes it, and each instruction by whether it is a push, a pop or neither. -/
theorem addressSpacesAreSeparate : Obligations.AddressSpacesAreSeparate := by
  intro i s t h
  refine ⟨hmem_kept_or_stackFault_of_exec h, ?_⟩
  cases i with
  | push | pushr | pushf | pushfr => exact exec_keeps_ram h trivial
  | pop | popr | popf | popfr => exact ⟨exec_keeps_ram h trivial, exec_pop_keeps_stack h trivial⟩
  | _ => exact exec_keeps_stack h id

end Sys2Proof.Machine
end

section
/-! Encoding and decoding: the decoder against the encoder, the length it reads, the opcode bytes that spell no
instruction, and single fields (30_encoding.md R100 to R130). -/

namespace Sys2Proof

open Config Machine

/-! ### The opcode bytes -/

theorem decode_of_direct {m : OpMap} {p : Byte} {d : Descriptor} (hp : l1 m p = .direct d) (bs : List Byte) :
    decode m (p :: bs) = decodeBody d p bs := by
  simp only [decode, hp]

theorem decode_of_sub {m : OpMap} {p x : Byte} {t : List (Byte × Descriptor)} {d : Descriptor} (hp : l1 m p = .sub t)
    (hx : l2 t x = some d) (bs : List Byte) : decode m (p :: x :: bs) = decodeBody d x bs := by
  simp only [decode, hp, hx]

/-- Only one or two opcode bytes that select a descriptor decode to an instruction (30_encoding.md R103). -/
theorem decode_ok {m : OpMap} {bs rest : List Byte} {i : Instr} (h : decode m bs = .ok (i, rest)) :
    (∃ p d body, bs = p :: body ∧ l1 m p = .direct d ∧ decodeBody d p body = .ok (i, rest)) ∨
    ∃ p t x d body, bs = p :: x :: body ∧ l1 m p = .sub t ∧ l2 t x = some d ∧ decodeBody d x body = .ok (i, rest) := by
  cases bs with
  | nil => cases h
  | cons p bs =>
    cases hp : l1 m p with
    | none => simp only [decode, hp] at h; cases h
    | foreign => simp only [decode, hp] at h; cases h
    | direct d => exact .inl ⟨p, d, bs, rfl, hp, decode_of_direct hp bs ▸ h⟩
    | sub t =>
      cases bs with
      | nil => simp only [decode, hp] at h; cases h
      | cons x bs =>
        cases hx : l2 t x with
        | none => simp only [decode, hp, hx] at h; cases h
        | some d => exact .inr ⟨p, t, x, d, bs, rfl, hp, hx, decode_of_sub hp hx bs ▸ h⟩

/-! ### Encoding -/

/-- Settles O3: the encoding's opcode bytes select the descriptor it was made under, and the rest is its body. -/
theorem decodeInvertsEncode : Obligations.DecodeInvertsEncode := by
  intro m i bs rest hw henc
  obtain ⟨p, d, b, hp, hb, rfl⟩ | ⟨p, t, x, d, b, hp, hx, hb, rfl⟩ := encode_some henc
  · rw [List.cons_append, decode_of_direct hp, decodeBody_encodeUnder hw hb rest]
  · rw [List.cons_append, List.cons_append, decode_of_sub hp hx, decodeBody_encodeUnder hw hb rest]

/-- An instruction's own form, unmixed. -/
def Instr.form (i : Instr) : Descriptor := ⟨i.op, i.operands.map Operand.spec, false⟩

/-- Without a mixed pair every field has bytes of its own, whatever the opcode byte. -/
theorem encodeUnder_form (i : Instr) (last : Byte) :
    encodeUnder i.form last i = some ((i.operands.flatMap Operand.fields).flatMap Field.bytes) := by
  simp [encodeUnder, encodeBody, Instr.form]

theorem encodeAt_isSome_of_direct {m : OpMap} {i : Instr} {p : Byte} (hp : l1 m p = .direct i.form) :
    (encodeAt m i p).isSome := by
  simp [encodeAt, hp, encodeUnder_form]

/-- The second bytes tried are those the table lists. -/
theorem encodeAt_isSome_of_sub {m : OpMap} {i : Instr} {p x : Byte} {t : List (Byte × Descriptor)}
    (hp : l1 m p = .sub t) (hx : l2 t x = some i.form) : (encodeAt m i p).isSome := by
  simp only [encodeAt, hp, List.findSome?_isSome_iff]
  exact ⟨x, List.mem_map_of_mem (lookup_mem_list hx), by simp [hx, encodeUnder_form]⟩

/-- A primary byte that selects anything is listed. -/
theorem mem_of_l1_ne_none {m : OpMap} {p : Byte} (h : l1 m p ≠ .none) : p ∈ m.map Prod.fst := by
  unfold l1 at h
  cases hl : m.lookup p with
  | none => simp [hl] at h
  | some e => exact List.mem_map_of_mem (lookup_mem_list hl)

/-- Settles O4: the byte that lists the form is among the primary bytes tried, and gives an encoding. -/
theorem everyListedFormEncodes : Obligations.EveryListedFormEncodes := by
  intro m i p hlisted
  change l1 m p = .direct i.form ∨ ∃ t x, l1 m p = .sub t ∧ l2 t x = some i.form at hlisted
  have hat : p ∈ m.map Prod.fst ∧ (encodeAt m i p).isSome := by
    obtain hp | ⟨t, x, hp, hx⟩ := hlisted
    · exact ⟨mem_of_l1_ne_none (by simp [hp]), encodeAt_isSome_of_direct hp⟩
    · exact ⟨mem_of_l1_ne_none (by simp [hp]), encodeAt_isSome_of_sub hp hx⟩
  exact Option.isSome_iff_exists.mp (List.findSome?_isSome_iff.mpr ⟨p, hat⟩)

/-! ### What a decode says of its bytes -/

theorem startsAt_of_decodeBody {d : Descriptor} {last : Byte} {bs rest : List Byte} {i : Instr}
    (h : decodeBody d last bs = .ok (i, rest)) :
    ∃ c ops c', StartsAt last d.mixed bs c ∧ decodeOperands d.operands c = .ok (ops, c') ∧
      assemble d.op ops = some i ∧ c'.bytes = rest := by
  obtain ⟨-, c, ops, c', hc, hops, hi, hrest⟩ := decodeBody_inv h
  refine ⟨c, ops, c', ?_, hops, hi, hrest.symm⟩
  cases hm : d.mixed with
  | false =>
    obtain rfl : c = ⟨[], bs⟩ := by simpa [hm] using hc
    exact .plain
  | true =>
    obtain ⟨cm, bs', rfl, rfl⟩ : ∃ cm bs', bs = cm :: bs' ∧ c = ⟨mixedPair last cm, bs'⟩ := by simpa [hm] using hc
    exact .mixed

/-- The bytes before the operand fields are the pair byte or none, and do not depend on those behind them. -/
theorem StartsAt.split {last : Byte} {mixed : Bool} {bs : List Byte} {c : Cursor} (h : StartsAt last mixed bs c) :
    ∃ pre, bs = pre ++ c.bytes ∧ pre.length = (if mixed then 1 else 0) ∧
      c.pair.length = (if mixed then 2 else 0) ∧ ∀ bs', StartsAt last mixed (pre ++ bs') ⟨c.pair, bs'⟩ := by
  cases h with
  | plain => exact ⟨[], rfl, rfl, rfl, fun _ => .plain⟩
  | @mixed cm _ => exact ⟨[cm], rfl, rfl, rfl, fun _ => .mixed⟩

/-- Behind the opcode bytes a decode reads as many bytes as its descriptor says, and rests on those alone
(30_encoding.md R121, R130). -/
theorem decodeBody_reads {d : Descriptor} {last : Byte} {bs rest : List Byte} {i : Instr}
    (h : decodeBody d last bs = .ok (i, rest)) :
    ∃ used, bs = used ++ rest ∧ used.length = bodyLength d ∧
      ∀ rest', decodeBody d last (used ++ rest') = .ok (i, rest') := by
  obtain ⟨⟨pair, bytes⟩, ops, c', hc, hops, hi, rfl⟩ := startsAt_of_decodeBody h
  obtain ⟨pre, rfl, hpre, hpair, hstart⟩ := hc.split
  obtain ⟨used, rfl, hused, -, hread⟩ := (decodeOperands_reads d.operands pair bytes).1 ops c' hops
  refine ⟨pre ++ used, (List.append_assoc ..).symm, ?_, fun rest' => ?_⟩
  · rw [List.length_append, hpre, hused, hpair, bodyLength, Descriptor.indexFields]
    split_ifs <;> omega
  · rw [List.append_assoc]
    exact decodeBody_of_operands (hstart (used ++ rest')) (hread rest') hi

theorem wf_of_decodeBody {d : Descriptor} {last : Byte} {bs rest : List Byte} {i : Instr}
    (h : decodeBody d last bs = .ok (i, rest)) : i.wf = true := by
  obtain ⟨_, _, _, _, hops, hi, _⟩ := startsAt_of_decodeBody h
  obtain ⟨_, hwf⟩ := decodeOperands_spec hops
  exact assemble_wf hi hwf

/-- Settles O5: decoded operands are well-formed, and so is what is assembled from them. -/
theorem decodedInstructionIsWellFormed : Obligations.DecodedInstructionIsWellFormed := by
  intro m bs rest i h
  obtain ⟨_, _, _, _, _, hbody⟩ | ⟨_, _, _, _, _, _, _, _, hbody⟩ := decode_ok h <;> exact wf_of_decodeBody hbody

/-- Settles O6: the opcode bytes and behind them the bytes the selected descriptor asks for. The map need not be
well-formed. -/
theorem decodeReadsExactlyItsLength : Obligations.DecodeReadsExactlyItsLength := by
  intro m p bs rest i _ h
  obtain ⟨_, d, body, hbs, hp, hbody⟩ | ⟨_, t, x, d, body, hbs, hp, hx, hbody⟩ := decode_ok h
  · cases hbs
    obtain ⟨used, rfl, hlen, hread⟩ := decodeBody_reads hbody
    refine ⟨p :: used, rfl, by simp only [instrLength, hp, List.length_cons, hlen, Nat.add_comm 1], fun rest' => ?_⟩
    rw [List.cons_append, decode_of_direct hp, hread]
  · cases hbs
    obtain ⟨used, rfl, hlen, hread⟩ := decodeBody_reads hbody
    refine ⟨p :: x :: used, rfl, by simp only [instrLength, hp, hx, List.headD_cons, List.length_cons, hlen,
      Nat.add_comm 2], fun rest' => ?_⟩
    rw [List.cons_append, List.cons_append, decode_of_sub hp hx, hread]

/-! ### The step -/

theorem step_of_decode_error {s : State} {e : DecodeError} (h : decode s.cfg.opmap (fetchInstr s) = .error e) :
    step s = .refused (decodeRefusal e) := by
  unfold step
  rw [h]

theorem step_of_foreign {s : State} (hp : l1 s.cfg.opmap (s.ram.read s.ipo.toNat) = .foreign) :
    step s = .refused .foreign :=
  step_of_decode_error (e := .foreign) (by simp only [fetchInstr, instrLength, hp, ramBytes, decode])

theorem step_of_l1_none {s : State} (hp : l1 s.cfg.opmap (s.ram.read s.ipo.toNat) = .none) :
    step s = .refused .illegal :=
  step_of_decode_error (e := .illegal) (by simp only [fetchInstr, instrLength, hp, ramBytes, decode])

theorem step_of_l2_none {s : State} {t : List (Byte × Descriptor)}
    (hp : l1 s.cfg.opmap (s.ram.read s.ipo.toNat) = .sub t) (hx : l2 t (s.ram.read (s.ipo + 1).toNat) = none) :
    step s = .refused .illegal :=
  step_of_decode_error (e := .illegal) (by simp only [fetchInstr, instrLength, hp, hx, ramBytes, decode])

/-- Settles O11: P alone is fetched, or P and S, and the decoder ends at the byte without a descriptor. -/
theorem foreignAndIllegalBytesAreRefused : Obligations.ForeignAndIllegalBytesAreRefused :=
  fun _ => ⟨step_of_foreign, step_of_l1_none, fun _ => step_of_l2_none⟩

/-- Settles O1: this is the arm of the step for a decoded instruction. -/
theorem stepRunsDecodedInstruction : Obligations.StepRunsDecodedInstruction := by
  intro s i rest h
  unfold step
  rw [h]

/-! ### Single instructions and fields -/

/-- Settles O8 by running the decoder on the five encodings. -/
theorem specWordsDecode : Obligations.SpecWordsDecode := ⟨rfl, rfl, rfl, rfl, rfl⟩

/-- An index byte is reduced to its low five bits (30_encoding.md R106). -/
theorem Cursor.index_byte (b : Byte) (bs : List Byte) :
    Cursor.index ⟨[], b :: bs⟩ = .ok (BitVec.ofNat 5 (b.toNat % 32), ⟨[], bs⟩) := by
  have hlow : b.setWidth 5 = BitVec.ofNat 5 (b.toNat % 32) := BitVec.eq_of_toNat_eq (by simp)
  simp only [Cursor.index, hlow]

/-- A float index byte is reduced to its low four bits (30_encoding.md R107). -/
theorem Cursor.fslot_byte (b : Byte) (bs : List Byte) :
    Cursor.fslot ⟨[], b :: bs⟩ = .ok (Fin.ofNat 16 (b.toNat % 16), ⟨[], bs⟩) := by
  have hlow : ((BitVec.ofNat 5 (b.toNat % 32)).setWidth 4).toFin = Fin.ofNat 16 (b.toNat % 16) := by
    apply Fin.ext
    simp
  simp only [Cursor.fslot, Cursor.index_byte, hlow]

/-- Settles O9: each index is a function of the low bits alone. -/
theorem ignoredIndexBits : Obligations.IgnoredIndexBits := by
  intro b b' bs
  refine ⟨fun h => ?_, fun h => ?_⟩
  · simp only [Cursor.slot, Cursor.index_byte, h]
  · rw [Cursor.fslot_byte, Cursor.fslot_byte, h]

/-- Settles O10: the pair as numbers, as the index check reads it too. -/
theorem mixedPairFormula : Obligations.MixedPairFormula := mixedPair_toNat

/-- A fetch of the bytes at the head of the cursor gives their value and leaves what stands behind them. -/
theorem Cursor.fetch_append (pair : List (BitVec 5)) (bs rest : List Byte) :
    Cursor.fetch ⟨pair, bs ++ rest⟩ bs.length = .ok (beValue bs, ⟨pair, rest⟩) := by
  simp [Cursor.fetch]

/-- Settles O60: the immediate is the big-endian value of the bytes fetched, which 32 bits hold. -/
theorem immediateFieldIsBigEndian : Obligations.ImmediateFieldIsBigEndian := by
  intro w bs rest pair hbs
  have hlen : bs.length = w.bytes := by
    rw [hbs, Width.bits]
    omega
  have hlt : beValue bs < 2 ^ w.bits := by
    rw [Width.two_pow_bits, ← hlen]
    exact beValue_lt bs
  have hval : (BitVec.ofNat 32 (beValue bs)).toNat = beValue bs :=
    Nat.mod_eq_of_lt (hlt.trans_le w.two_pow_bits_le)
  refine ⟨BitVec.ofNat 32 (beValue bs), ?_, hval.symm ▸ hlt, fun k hk => ?_⟩
  · simp only [decodeOperand, ← hlen, Cursor.fetch_append]
  · rw [hval, getElem_of_beValue bs k hk]

end Sys2Proof
end

section
/-! The address generator and the reads of operands (30_encoding.md R111 to R117; 42_control.md R354). -/

namespace Sys2Proof.Machine

/-! ### Effective addresses -/

/-- The 24-bit value of a group is a RAM address as it is. -/
theorem addr_of_group_toNat (s : State) (i : Slot) : (BitVec.ofNat 24 (s.group .w24 i)).toNat = s.group .w24 i := by
  rw [BitVec.toNat_ofNat]
  exact Nat.mod_eq_of_lt (s.group_lt .w24 i)

/-- The effective address as a number (30_encoding.md R114). -/
theorem effAddr_toNat (s : State) (m : MemRef) :
    ((effAddr s m).toNat : Int) = ((baseAddr s m.base).toNat + dispVal s m.disp) % 2 ^ 24 := by
  rw [effAddr, BitVec.toNat_ofInt, Int.toNat_of_nonneg (Int.emod_nonneg _ (by decide))]
  rfl

theorem effAddr_noDisp (s : State) (b : Base) : effAddr s ⟨b, .noDisp⟩ = baseAddr s b := by
  simp [effAddr, dispVal]

/-- A displacement is the two's complement value of its group (30_encoding.md R113). -/
theorem dispVal_disp (s : State) (wd : DispWidth) (j : Slot) :
    dispVal s (.disp wd j) = (BitVec.ofNat wd.toWidth.bits (s.group wd.toWidth j)).toInt :=
  sext_eq_toInt _ (s.group_lt _ j)

/-- Settles O15, from what the base and the displacement are. -/
theorem effectiveAddressWraps : Obligations.EffectiveAddressWraps := by
  intro s a i j wd w d
  have hind : (baseAddr s (.ind i)).toNat = s.group .w24 i := addr_of_group_toNat s i
  refine ⟨effAddr_noDisp s _, ?_, ?_, ?_⟩
  · rw [effAddr_noDisp, hind]
  · rw [effAddr_toNat, dispVal_disp]
    rfl
  · rw [effAddr_toNat, dispVal_disp, hind]

/-! ### Operand reads -/

/-- A well-formed immediate is read as its value (30_encoding.md R117). -/
theorem trunc_of_immFits {w : Width} {v : BitVec 32} (h : immFits w v = true) : trunc w v.toNat = v.toNat :=
  trunc_of_lt (of_decide_eq_true h)

/-- The float at an effective address is the four bytes there (20_memory.md R73). -/
theorem floatAt_toNat (s : State) (m : MemRef) : (floatAt s m).toNat = memRead s.ram (effAddr s m) 4 := by
  rw [floatAt, BitVec.toNat_ofNat]
  exact Nat.mod_eq_of_lt (memRead_lt s.ram (effAddr s m) 4)

/-- Settles O16: a read is defined by the form of its operand, so that only immediates, floats in RAM and a register
target, which are read through a fixed width, need a reason. -/
theorem sourceOperandValues : Obligations.SourceOperandValues := by
  intro s t w i v m a k p
  exact ⟨⟨rfl, rfl⟩, ⟨rfl, trunc_of_immFits, rfl⟩, ⟨rfl, trunc_of_immFits⟩, ⟨rfl, floatAt_toNat s m⟩,
    ⟨rfl, rfl, floatAt_toNat s m⟩, ⟨rfl, rfl⟩, ⟨rfl, rfl, rfl⟩, rfl, addr_of_group_toNat t i⟩

end Sys2Proof.Machine
end

section
/-! The ALU (40_alu.md R200 to R219): each instruction as one of the shared writes of its exact result, and what each of
these writes leaves. -/

namespace Sys2Proof.Machine

/-! ### The shared writes -/

theorem aluWrite_writes {s : State} {l : Loc} {w : Width} {r : Nat} {c : Bool} (h : s.ram.wf = true)
    (hw : l.width = w) (hr : r < 2 ^ w.bits) : WritesLoc (aluWrite s l r c) s l r (s.flags.arith w r c) := by
  subst hw
  exact writesLoc_write h hr

theorem divWrite_writes {s : State} {l lr : Loc} {w wr : Width} {q rm : Nat} {c : Bool} (h : s.ram.wf = true)
    (hw : l.width = w) (hwr : lr.width = wr) (hq : q < 2 ^ w.bits) :
    WritesTwoLocs (divWrite s l lr q rm c) s l lr q (rm % 2 ^ wr.bits) (s.flags.arith w q c) := by
  subst hw hwr
  exact writesTwoLocs_write h hq

theorem satWrite_writes {s : State} {l : Loc} {w : Width} (h : s.ram.wf = true) (hw : l.width = w) (x : Int) :
    WritesLoc (satWrite s l x) s l (max 0 (min x (2 ^ w.bits - 1))).toNat
      (s.flags.saturated w (max 0 (min x (2 ^ w.bits - 1))).toNat x) := by
  subst hw
  rw [← clampW_eq]
  exact writesLoc_write h (clampW_lt _ x)

/-! ### ADD, SUB and MUL -/

section

variable (dst : ILoc) (src : ISrc) (s : State)

theorem exec_add : exec (.add dst src) s = aluWrite s (resolve s dst)
    (trunc dst.width ((resolve s dst).read s + srcVal s src))
    (decide (2 ^ dst.width.bits ≤ (resolve s dst).read s + srcVal s src)) := by
  simp only [exec, execAdd, resolve_width]

theorem exec_sub : exec (.sub dst src) s = aluWrite s (resolve s dst)
    (BitVec.ofInt dst.width.bits (((resolve s dst).read s : Int) - srcVal s src)).toNat
    (decide ((resolve s dst).read s < srcVal s src)) := by
  simp only [exec, execSub, resolve_width, truncInt_eq_ofInt]

theorem exec_mul : exec (.mul dst src) s = aluWrite s (resolve s dst)
    (trunc dst.width ((resolve s dst).read s * srcVal s src))
    (decide (maxVal dst.width < (resolve s dst).read s * srcVal s src)) := by
  simp only [exec, execMul, resolve_width]

end

/-- Settles O26: the sum, reduced to the destination's width. -/
theorem addResult : Obligations.AddResult := by
  intro dst src s h
  rw [exec_add]
  exact aluWrite_writes h (resolve_width s dst) (trunc_lt _ _)

/-- Settles O27: the difference, as the bit vector of the destination's width. -/
theorem subResult : Obligations.SubResult := by
  intro dst src s h
  rw [exec_sub]
  exact aluWrite_writes h (resolve_width s dst) (BitVec.isLt _)

/-- Settles O31: the product, reduced to the destination's width. -/
theorem mulResult : Obligations.MulResult := by
  intro dst src s h
  rw [exec_mul]
  exact aluWrite_writes h (resolve_width s dst) (trunc_lt _ _)

/-! ### ADD and SUB with a float source -/

theorem exec_addf (dst : ILoc) (src : FSrc) (s : State) : exec (.addf dst src) s =
    if isNaN (fsrcVal s src) then .refused .floatNaN
    else satWrite s (resolve s dst)
      (if fSign (fsrcVal s src) then ((resolve s dst).read s : Int) - fMag (fsrcVal s src)
        else (resolve s dst).read s + fMag (fsrcVal s src)) := rfl

theorem exec_subf (dst : ILoc) (src : FSrc) (s : State) : exec (.subf dst src) s =
    if isNaN (fsrcVal s src) then .refused .floatNaN
    else satWrite s (resolve s dst)
      (if fSign (fsrcVal s src) then ((resolve s dst).read s : Int) + fMag (fsrcVal s src)
        else (resolve s dst).read s - fMag (fsrcVal s src)) := rfl

/-- Settles O28: past the NaN check ADDF writes the clamped sum. -/
theorem addFloatResult : Obligations.AddFloatResult := by
  intro dst src s h l W p x r hp
  rw [exec_addf, if_neg (by simp [p, hp])]
  exact satWrite_writes h (resolve_width s dst) x

/-- Settles O29: past the NaN check SUBF writes the clamped difference. -/
theorem subFloatResult : Obligations.SubFloatResult := by
  intro dst src s h l W p x r hp
  rw [exec_subf, if_neg (by simp [p, hp])]
  exact satWrite_writes h (resolve_width s dst) x

/-- What goes on past a NaN check is refused by that check alone. -/
theorem refusedNaN_iff (nan : Bool) (t : State) :
    (if nan then .refused .floatNaN else .next t : Host.Outcome State Fault Refusal) = .refused .floatNaN ↔
      nan = true := by
  cases nan <;> simp

/-- Settles O30: each of the three instructions is a NaN check before a write that answers a next state. -/
theorem onlyNaNSourcesAreRefused : Obligations.OnlyNaNSourcesAreRefused :=
  fun _ _ _ _ => ⟨refusedNaN_iff _ _, refusedNaN_iff _ _, refusedNaN_iff _ _⟩

/-! ### Unsigned division -/

/-- The quotient of R208: a zero divisor saturates it. -/
def quotient (w : Width) (a b : Nat) : Nat := if b = 0 then 2 ^ w.bits - 1 else a / b

theorem quotient_lt {w : Width} {a : Nat} (ha : a < 2 ^ w.bits) (b : Nat) : quotient w a b < 2 ^ w.bits := by
  unfold quotient
  split
  · exact maxVal_lt w
  · exact (Nat.div_le_self a b).trans_lt ha

section

variable (dst rem : ILoc) (src : ISrc) (s : State)

theorem read_resolve_lt : (resolve s dst).read s < 2 ^ dst.width.bits := by
  have h := Loc.read_lt s (resolve s dst)
  rwa [resolve_width] at h

theorem exec_div : exec (.div dst src) s = aluWrite s (resolve s dst)
    (quotient dst.width ((resolve s dst).read s) (srcVal s src)) (decide (srcVal s src = 0)) := by
  simp only [exec, execDiv, quotient, resolve_width]
  split
  · next hb => rw [decide_eq_true hb]; rfl
  · next hb => rw [decide_eq_false hb]

theorem exec_divr : exec (.divr dst src rem) s = divWrite s (resolve s dst) (resolve s rem)
    (quotient dst.width ((resolve s dst).read s) (srcVal s src))
    (if srcVal s src = 0 then 0 else (resolve s dst).read s % srcVal s src) (decide (srcVal s src = 0)) := by
  simp only [exec, execDivr, quotient, resolve_width]
  split
  · next hb => rw [decide_eq_true hb]; rfl
  · next hb => rw [decide_eq_false hb]

end

/-- Settles O32: no quotient exceeds the dividend or, for a zero divisor, the largest value of the width. -/
theorem divResult : Obligations.DivResult := by
  intro dst src s h
  rw [exec_div]
  exact aluWrite_writes h (resolve_width s dst) (quotient_lt (read_resolve_lt dst s) _)

/-- Settles O33: the quotient fits its location, and the write reduces the remainder. -/
theorem divRemainderResult : Obligations.DivRemainderResult := by
  intro dst rem src s h
  rw [exec_divr]
  exact divWrite_writes h (resolve_width s dst) (resolve_width s rem) (quotient_lt (read_resolve_lt dst s) _)

/-! ### Signed division -/

section

variable (dst rem : ILoc) {src : ISrc} {s : State}

theorem sext_read_resolve (s : State) : sext dst.width ((resolve s dst).read s) =
    (BitVec.ofNat dst.width.bits ((resolve s dst).read s)).toInt :=
  sext_eq_toInt _ (read_resolve_lt dst s)

theorem sext_srcVal (src : ISrc) (s : State) :
    sext src.width (srcVal s src) = (BitVec.ofNat src.width.bits (srcVal s src)).toInt :=
  sext_eq_toInt _ (srcVal_lt s src)

theorem toInt_srcVal_ne_zero (hb : srcVal s src ≠ 0) : (BitVec.ofNat src.width.bits (srcVal s src)).toInt ≠ 0 := by
  rw [← sext_srcVal]
  exact mt (sext_eq_zero (srcVal_lt s src)).1 hb

theorem exec_sdiv (hb : srcVal s src ≠ 0) : exec (.sdiv dst src) s = aluWrite s (resolve s dst)
    (BitVec.ofInt dst.width.bits ((BitVec.ofNat dst.width.bits ((resolve s dst).read s)).toInt.tdiv
      (BitVec.ofNat src.width.bits (srcVal s src)).toInt)).toNat false := by
  simp only [exec, execSdiv, resolve_width, sext_read_resolve, sext_srcVal, if_neg (toInt_srcVal_ne_zero hb),
    truncInt_eq_ofInt]

theorem exec_sdivr (hb : srcVal s src ≠ 0) : exec (.sdivr dst src rem) s =
    divWrite s (resolve s dst) (resolve s rem)
      (BitVec.ofInt dst.width.bits ((BitVec.ofNat dst.width.bits ((resolve s dst).read s)).toInt.tdiv
        (BitVec.ofNat src.width.bits (srcVal s src)).toInt)).toNat
      (BitVec.ofInt rem.width.bits ((BitVec.ofNat dst.width.bits ((resolve s dst).read s)).toInt.tmod
        (BitVec.ofNat src.width.bits (srcVal s src)).toInt)).toNat false := by
  simp only [exec, execSdivr, resolve_width, sext_read_resolve, sext_srcVal, if_neg (toInt_srcVal_ne_zero hb),
    truncInt_eq_ofInt]

end

/-- Settles O34: a divisor that is not zero has a sign extension that is not zero. -/
theorem signedDivResult : Obligations.SignedDivResult := by
  intro dst src s h l W sa sb r hb
  rw [exec_sdiv dst hb]
  exact aluWrite_writes h (resolve_width s dst) (BitVec.isLt _)

/-- Settles O35: the remainder is reduced to its width before the write, which then keeps it. -/
theorem signedDivRemainderResult : Obligations.SignedDivRemainderResult := by
  intro dst rem src s h l W sa sb r hb
  rw [← Nat.mod_eq_of_lt (BitVec.ofInt rem.width.bits (sa.tmod sb)).isLt, exec_sdivr dst rem hb]
  exact divWrite_writes h (resolve_width s dst) (resolve_width s rem) (BitVec.isLt _)

/-! ### The integer compare -/

/-- The sign bit of a residue is the top bit of the bit vector. -/
theorem signBit_truncInt (w : Width) (x : Int) : signBit w (truncInt w x) = (BitVec.ofInt w.bits x).msb := by
  rw [truncInt_eq_ofInt, BitVec.msb_eq_getLsbD_last]
  rfl

theorem exec_cp (op1 : ILoc) (op2 : ISrc) (s : State) : exec (.cp op1 op2) s =
    .next (s.setFlags (Flags.compare op1.width op2.width ((resolve s op1).read s) (srcVal s op2))) := by
  simp only [exec, execCp, resolve_width]

/-- Settles O37: CP replaces the flags by those of the compare, of which S alone is not the statement's own formula. -/
theorem compareResult : Obligations.CompareResult := by
  intro op1 op2 s a b
  exact ⟨_, exec_cp op1 op2 s, rfl, rfl, rfl, signBit_truncInt op1.width _, rfl, rfl, rfl, rfl, rfl⟩

/-! ### The float compare -/

/-- The scaled integer of a positive infinity, above that of every finite pattern. -/
def infKey : Int := 2 ^ 23 * 2 ^ 254

/-- The value that a scaled integer stands for, infinities at the ends. -/
def extendedValue (k : Int) : WithBot (WithTop ℚ) :=
  if k = -infKey then ⊥ else if k = infKey then ((⊤ : WithTop ℚ) : WithBot (WithTop ℚ))
  else (((k / 2 ^ 149 : ℚ) : WithTop ℚ) : WithBot (WithTop ℚ))

theorem infKey_pos : 0 < infKey := by decide

/-- Between the two infinities the integers are ordered as their values. -/
theorem extendedValue_strictMonoOn : StrictMonoOn extendedValue (Set.Icc (-infKey) infKey) := by
  rintro a ⟨halow, -⟩ b ⟨-, hbhigh⟩ hab
  have hb : b ≠ -infKey := by omega
  have ha : a ≠ infKey := by omega
  simp only [extendedValue, if_neg hb, if_neg ha]
  by_cases hbot : a = -infKey
  · rw [if_pos hbot]
    split <;> exact WithBot.bot_lt_coe _
  · rw [if_neg hbot]
    split
    · exact WithBot.coe_lt_coe.2 (WithTop.coe_lt_top _)
    · refine WithBot.coe_lt_coe.2 (WithTop.coe_lt_coe.2 ?_)
      gcongr

theorem fKey_of_isInf {p : FloatBits} (h : isInf p = true) : fKey p = if fSign p then -infKey else infKey := by
  unfold fKey
  rw [fScaled_inf h]
  rfl

theorem abs_fKey_lt_infKey {p : FloatBits} (h : isNaN p = false) (hi : isInf p = false) : |fKey p| < infKey := by
  rw [abs_fKey, infKey]
  exact_mod_cast fScaled_lt_inf h hi

theorem fKey_mem_Icc {p : FloatBits} (h : isNaN p = false) : fKey p ∈ Set.Icc (-infKey) infKey := by
  rw [Set.mem_Icc, ← abs_le]
  cases hi : isInf p with
  | false => exact (abs_fKey_lt_infKey h hi).le
  | true =>
    rw [fKey_of_isInf hi]
    split
    · rw [abs_neg, abs_of_pos infKey_pos]
    · rw [abs_of_pos infKey_pos]

/-- The value of R214 depends on the scaled integer alone: the two zeros share it, and no finite pattern has an
infinity's. -/
theorem fvalx_eq_extendedValue {p : FloatBits} (h : isNaN p = false) : fvalx p = extendedValue (fKey p) := by
  obtain ⟨hsign, -, -⟩ := fields_eq p
  have hpos := infKey_pos
  unfold fvalx extendedValue
  cases hi : isInf p with
  | true =>
    rw [fKey_of_isInf hi, ← hsign]
    cases fSign p with
    | true => simp
    | false => simp [show infKey ≠ -infKey by omega]
  | false =>
    obtain ⟨hlow, hhigh⟩ := abs_lt.1 (abs_fKey_lt_infKey h hi)
    rw [if_neg Bool.false_ne_true, if_neg hlow.ne', if_neg hhigh.ne, fKey_eq_fval_mul,
      mul_div_cancel_right₀ _ (by positivity)]

theorem fvalx_lt_iff {p q : FloatBits} (hp : isNaN p = false) (hq : isNaN q = false) :
    fvalx p < fvalx q ↔ fKey p < fKey q := by
  rw [fvalx_eq_extendedValue hp, fvalx_eq_extendedValue hq]
  exact extendedValue_strictMonoOn.lt_iff_lt (fKey_mem_Icc hp) (fKey_mem_Icc hq)

theorem fvalx_eq_iff {p q : FloatBits} (hp : isNaN p = false) (hq : isNaN q = false) :
    fvalx p = fvalx q ↔ fKey p = fKey q := by
  rw [fvalx_eq_extendedValue hp, fvalx_eq_extendedValue hq]
  exact extendedValue_strictMonoOn.injOn.eq_iff (fKey_mem_Icc hp) (fKey_mem_Icc hq)

theorem compareFloat_of_isNaN {p q : FloatBits} (h : isNaN p = true ∨ isNaN q = true) :
    Flags.compareFloat p q = Flags.clear := by
  have hor : (isNaN p || isNaN q) = true := by simpa using h
  simp [Flags.compareFloat, hor, Flags.clear]

theorem compareFloat_of_ordered {p q : FloatBits} (hp : isNaN p = false) (hq : isNaN q = false) :
    Flags.compareFloat p q =
      { z := decide (fKey p = fKey q), c := decide (fKey p < fKey q), s := decide (fKey p < fKey q), v := false,
        po := false, eq := decide (fKey p = fKey q), gt := decide (fKey q < fKey p),
        lt := decide (fKey p < fKey q) } := by
  simp [Flags.compareFloat, hp, hq]

/-- Settles O38: FCP replaces the flags by those of the scaled integers, which are ordered as the values they stand
for. -/
theorem floatCompareResult : Obligations.FloatCompareResult := by
  intro op1 op2 s p q
  refine ⟨s.setFlags (Flags.compareFloat p q), rfl, rfl, rfl, rfl, compareFloat_of_isNaN, fun hp hq => ?_⟩
  rw [State.setFlags_flags, compareFloat_of_ordered hp hq, fvalx_eq_iff hp hq, fvalx_lt_iff hp hq, fvalx_lt_iff hq hp]
  simp only [decide_eq_true_eq, and_self]

/-! ### The bitwise operations -/

section

variable (w : Width) {a : Nat} (b : Nat)

theorem notW_and_eq (ha : a < 2 ^ w.bits) :
    notW w (a &&& trunc w b) = (~~~(BitVec.ofNat w.bits a &&& BitVec.ofNat w.bits b)).toNat := by
  rw [← notW_eq_not, BitVec.toNat_and, BitVec.toNat_ofNat, BitVec.toNat_ofNat, Nat.mod_eq_of_lt ha]
  rfl

theorem notW_xor_eq (ha : a < 2 ^ w.bits) :
    notW w (a ^^^ trunc w b) = (~~~(BitVec.ofNat w.bits a ^^^ BitVec.ofNat w.bits b)).toNat := by
  rw [← notW_eq_not, BitVec.toNat_xor, BitVec.toNat_ofNat, BitVec.toNat_ofNat, Nat.mod_eq_of_lt ha]
  rfl

theorem notW_or_eq (ha : a < 2 ^ w.bits) :
    notW w a ||| trunc w b = (~~~BitVec.ofNat w.bits a ||| BitVec.ofNat w.bits b).toNat := by
  rw [BitVec.toNat_or, ← notW_eq_not, BitVec.toNat_ofNat, BitVec.toNat_ofNat, Nat.mod_eq_of_lt ha]
  rfl

end

section

variable (dst : ILoc) (src : ISrc) (s : State)

theorem exec_nand : exec (.nand dst src) s = logicWrite s dst src fun w a b => notW w (a &&& b) := rfl

theorem exec_xnor : exec (.xnor dst src) s = logicWrite s dst src fun w a b => notW w (a ^^^ b) := rfl

theorem exec_imply : exec (.imply dst src) s = logicWrite s dst src fun w a b => notW w a ||| b := rfl

end

/-- Settles O39: on operands that fit the width the three operations are those of bit vectors. -/
theorem bitwiseResult : Obligations.BitwiseResult := by
  intro dst src s h
  rw [← resolve_width s dst, exec_nand, exec_xnor, exec_imply]
  have ha := Loc.read_lt s (resolve s dst)
  exact ⟨logicWrite_writes h (notW_and_eq _ _ ha), logicWrite_writes h (notW_xor_eq _ _ ha),
    logicWrite_writes h (notW_or_eq _ _ ha)⟩

/-! ### FDENOM -/

/-- Settles O40: the arm of FDENOM looks at neither operands nor state. -/
theorem fdenomIsRefused : Obligations.FdenomIsRefused := fun _ _ => rfl

end Sys2Proof.Machine
end

section
/-! The stack instructions: what a push of bytes that fit and a pop of bytes that are there leave, the stack fault
where they do not and are not, and the two round trips (41_stack.md; 60_exceptions.md R500, R501). -/

namespace Sys2Proof.Machine

/-! ### The instructions, as a push or a checked pop (41_stack.md R303 to R310) -/

section

variable (s : State)

theorem exec_push (w : Width) (i : Slot) : exec (.push w i) s = s.push (s.slotBytes i w.bytes) := rfl

theorem exec_pushr (a e : Slot) : exec (.pushr a e) s = s.push (s.slotBytes a (rangeCount a e)) := rfl

theorem exec_pushf (k : FSlot) : exec (.pushf k) s = s.push (beBytes 4 (s.freg k).toNat) := rfl

theorem exec_pushfr (a e : FSlot) : exec (.pushfr a e) s = s.push (s.fregBytes a (rangeCount a e)) := rfl

theorem exec_pop (w : Width) (i : Slot) : exec (.pop w i) s =
    s.popCheck w.bytes fun t => (t.drop w.bytes).setGroup w i (beValue (t.topBytes w.bytes)) := rfl

theorem exec_popr (a e : Slot) : exec (.popr a e) s =
    s.popCheck (rangeCount a e) fun t => t.popSlots e (rangeCount a e) := rfl

theorem exec_popf (k : FSlot) : exec (.popf k) s =
    s.popCheck 4 fun t => (t.drop 4).setFreg k (BitVec.ofNat 32 (beValue (t.topBytes 4))) := rfl

theorem exec_popfr (a e : FSlot) : exec (.popfr a e) s =
    s.popCheck (4 * rangeCount a e) fun t => t.popFregs e (rangeCount a e) := rfl

end

/-! ### Stack faults -/

theorem push_tookStackFault {s : State} (h : s.hmem.wf = true) {bs : List Byte} {n : Nat} (hn : bs.length = n)
    (hfull : s.cfg.stackCap < s.spr + n) :
    NextWith (s.push bs) fun t => TookStackFault s t .overflow s.cfg.errStackOverflow :=
  ⟨_, State.push_overflows (hn ▸ hfull), stackFault_took h .overflow⟩

theorem popCheck_tookStackFault {s : State} (h : s.hmem.wf = true) {n : Nat} (hfew : s.spr < n) (k : State → State) :
    NextWith (s.popCheck n k) fun t => TookStackFault s t .underflow s.cfg.errStackUnderflow :=
  ⟨_, State.popCheck_underflows hfew, stackFault_took h .underflow⟩

/-- Settles O55: each push hands all its bytes to one checked push. -/
theorem stackOverflowTrap : Obligations.StackOverflowTrap := by
  intro s i n h hn hfull
  cases i with
  | push w i => subst hn; exact push_tookStackFault h (s.slotBytes_length i w.bytes) hfull
  | pushr a e => subst hn; exact push_tookStackFault h (s.slotBytes_length a _) hfull
  | pushf k => subst hn; exact push_tookStackFault h (beBytes_length 4 _) hfull
  | pushfr a e => subst hn; exact push_tookStackFault h (s.fregBytes_length a _) hfull
  | _ => exact False.elim hn

/-- Settles O56: each pop checks for all its bytes once. -/
theorem stackUnderflowTrap : Obligations.StackUnderflowTrap := by
  intro s i n h hn hfew
  cases i with
  | pop w i => subst hn; rw [exec_pop]; exact popCheck_tookStackFault h hfew _
  | popr a e => subst hn; rw [exec_popr]; exact popCheck_tookStackFault h hfew _
  | popf k => subst hn; rw [exec_popf]; exact popCheck_tookStackFault h hfew _
  | popfr a e => subst hn; rw [exec_popfr]; exact popCheck_tookStackFault h hfew _
  | _ => exact False.elim hn

/-! ### Pushes that fit -/

theorem push_pushedOnto {s : State} (h : s.stack.wf = true) {bs : List Byte} {n : Nat} (hn : bs.length = n)
    (hfit : s.spr + n ≤ s.cfg.stackCap) : NextWith (s.push bs) fun t => PushedOnto s t bs :=
  ⟨_, State.push_fits (hn ▸ hfit), pushBytes_onto h bs⟩

/-- Settles O51: a group's slots are the bytes of its value. -/
theorem pushResult : Obligations.PushResult := by
  intro w i k s h
  rw [exec_push, exec_pushf, slotBytes_eq_beBytes]
  exact ⟨push_pushedOnto h (beBytes_length _ _), push_pushedOnto h (beBytes_length 4 _)⟩

/-- Settles O52: the model's walk over the registers lists them in the order of the range. -/
theorem pushRangeResult : Obligations.PushRangeResult := by
  intro a e fa fe s h n fn
  rw [← slotBytes_range, ← fregBytes_range]
  exact ⟨push_pushedOnto h (s.slotBytes_length a n), push_pushedOnto h (s.fregBytes_length fa fn)⟩

/-! ### The registers of a range, counted from its last one (41_stack.md R311) -/

theorem val_add_ofNat {M : Nat} [NeZero M] (a : Fin M) (k : Nat) : (a + Fin.ofNat M k).val = (a.val + k) % M := by
  simp [Fin.val_add]

/-- In a range of n registers, the one k before the last is the one n - 1 - k after the first. -/
theorem sub_ofNat_eq_add_ofNat {M : Nat} [NeZero M] {a e : Fin M} {k : Nat} (hk : k < rangeCount a e) :
    e - Fin.ofNat M k = a + Fin.ofNat M (rangeCount a e - 1 - k) := by
  have hdist : Fin.ofNat M (k + (rangeCount a e - 1 - k)) = e - a := by
    apply Fin.ext
    rw [show k + (rangeCount a e - 1 - k) = (e.val + M - a.val) % M by unfold rangeCount at hk ⊢; omega]
    have := a.isLt
    simp only [Fin.ofNat, Fin.sub_def, Nat.mod_mod]
    congr 1
    omega
  have hsplit : Fin.ofNat M k + Fin.ofNat M (rangeCount a e - 1 - k) = e - a := by
    rw [← hdist]
    apply Fin.ext
    simp [Fin.val_add]
  rw [sub_eq_iff_eq_add, add_assoc, add_comm (Fin.ofNat M _), hsplit, add_sub_cancel]

/-- The registers of a range, counted down from its last one. -/
theorem exists_eq_sub_of_mem_range {M : Nat} [NeZero M] {a e j : Fin M}
    (hj : ∃ k < rangeCount a e, j.val = (a.val + k) % M) : ∃ k < rangeCount a e, j = e - Fin.ofNat M k := by
  obtain ⟨k, hk, hjk⟩ := hj
  refine ⟨rangeCount a e - 1 - k, by omega, ?_⟩
  rw [sub_ofNat_eq_add_ofNat (a := a) (by omega), show rangeCount a e - 1 - (rangeCount a e - 1 - k) = k by omega]
  exact Fin.ext (hjk.trans (val_add_ofNat a k).symm)

theorem mem_range_of_eq_sub {M : Nat} [NeZero M] {a e : Fin M} {k : Nat} (hk : k < rangeCount a e) :
    ∃ l < rangeCount a e, (e - Fin.ofNat M k).val = (a.val + l) % M :=
  ⟨rangeCount a e - 1 - k, by omega, by rw [sub_ofNat_eq_add_ofNat hk, val_add_ofNat]⟩

/-! ### Pops of bytes that are there -/

theorem beValue_topBytes_lt (s : State) (n : Nat) : beValue (s.topBytes n) < 256 ^ n := by
  simpa [State.topBytes] using beValue_lt (s.topBytes n)

theorem setGroup_poppedFrom (s : State) (w : Width) (i : Slot) (v : Nat) :
    PoppedFrom s ((s.drop w.bytes).setGroup w i v) w.bytes (inSlots i w.bytes) fun _ => False where
  spr := by simp
  slots _ hj := State.slot_setGroup_outside _ fun k hk hjk => hj ⟨k, hk, hjk⟩
  fregs _ _ := by simp [State.freg]
  flags := by simp
  ipo := by simp
  stack := by simp
  ram := by simp
  hmem := by simp
  events := by simp
  cfg := by simp

theorem setFreg_poppedFrom (s : State) (k : FSlot) (p : FloatBits) :
    PoppedFrom s ((s.drop 4).setFreg k p) 4 (fun _ => False) fun j => j = k where
  spr := rfl
  slots _ _ := rfl
  fregs j hj := by rw [State.freg_setFreg, if_neg hj]; rfl
  flags := rfl
  ipo := rfl
  stack := rfl
  ram := rfl
  hmem := rfl
  events := rfl
  cfg := rfl

theorem popSlots_poppedFrom (s : State) (a e : Slot) :
    PoppedFrom s (s.popSlots e (rangeCount a e)) (rangeCount a e) (inSlots a (rangeCount a e)) fun _ => False := by
  obtain ⟨hfregs, hflags, hipo, hstack, hram, hhmem, hevents, hcfg, hspr⟩ := s.popSlots_frame e (rangeCount a e)
  refine ⟨hspr, fun j hj => ?_, fun _ _ => by rw [State.freg, State.freg, hfregs], hflags, hipo, hstack, hram, hhmem,
    hevents, hcfg⟩
  exact popSlots_outside s e _ j fun k hk hjk => hj (hjk ▸ mem_range_of_eq_sub hk)

theorem popFregs_poppedFrom (s : State) (a e : FSlot) :
    PoppedFrom s (s.popFregs e (rangeCount a e)) (4 * rangeCount a e) (fun _ => False)
      (inFregs a (rangeCount a e)) := by
  obtain ⟨hregs, hflags, hipo, hstack, hram, hhmem, hevents, hcfg, hspr⟩ := s.popFregs_frame e (rangeCount a e)
  refine ⟨hspr, fun _ _ => by rw [State.slot, State.slot, hregs], fun k hk => ?_, hflags, hipo, hstack, hram, hhmem,
    hevents, hcfg⟩
  exact popFregs_outside s e _ k fun l hl hkl => hk (hkl ▸ mem_range_of_eq_sub hl)

/-- Settles O53: what is written is what was on top, which fits the register. -/
theorem popResult : Obligations.PopResult := by
  intro w i k s hcap
  rw [exec_pop, exec_popf]
  refine ⟨fun hn => ⟨_, State.popCheck_holds hn hcap, ?_, setGroup_poppedFrom s w i _⟩,
    fun hn => ⟨_, State.popCheck_holds hn hcap, ?_, setFreg_poppedFrom s k _⟩⟩
  · rw [State.group_setGroup, Width.two_pow_bits, Nat.mod_eq_of_lt (beValue_topBytes_lt s _)]
    rfl
  · rw [State.freg_setFreg_self, BitVec.toNat_ofNat, Nat.mod_eq_of_lt (show _ < 2 ^ 32 from beValue_topBytes_lt s 4)]
    rfl

/-- Settles O54: the loops of the range pops, over a range of as many registers as there are at most. -/
theorem popRangeResult : Obligations.PopRangeResult := by
  intro a e fa fe s hcap n fn
  rw [exec_popr, exec_popfr]
  exact ⟨fun hn => ⟨s.popSlots e n, State.popCheck_holds hn hcap, popSlots_slot s e n (rangeCount_le a e) hn,
      popSlots_poppedFrom s a e⟩,
    fun hn => ⟨s.popFregs fe fn, State.popCheck_holds hn hcap, popFregs_freg s fe fn (rangeCount_le fa fe) hn,
      popFregs_poppedFrom s fa fe⟩⟩

/-! ### A push undone by a pop -/

/-- t is s but for stack bytes at or above SPR. -/
def SameButAboveSpr (s t : State) : Prop :=
  t = { s with stack := t.stack } ∧ ∀ x, x < s.spr → t.stack.read x = s.stack.read x

theorem SameButAboveSpr.refl (s : State) : SameButAboveSpr s s := ⟨rfl, fun _ _ => rfl⟩

theorem SameButAboveSpr.spr {s t : State} (h : SameButAboveSpr s t) : t.spr = s.spr := by rw [h.1]

theorem SameButAboveSpr.cfg {s t : State} (h : SameButAboveSpr s t) : t.cfg = s.cfg := by rw [h.1]

theorem stkBytes_eq_of_read {m : Memory} {i n : Nat} {bs : List Byte} (hn : bs.length = n)
    (h : ∀ k (hk : k < bs.length), m.read (i + k) = bs[k]) : stkBytes m i n = bs :=
  List.ext_getElem (by simp [hn]) fun k _ hk => by rw [stkBytes_getElem m i n k (hn ▸ hk), h k hk]

/-- Pushed bytes stay on top of the stack while only what is above SPR changes. -/
theorem stkBytes_of_pushed {s t u : State} {bs : List Byte} {n : Nat} (hn : bs.length = n)
    (hpush : PushedOnto s t bs) (hbetween : SameButAboveSpr t u) : stkBytes u.stack s.spr n = bs :=
  stkBytes_eq_of_read hn fun k hk => (hbetween.2 _ (by rw [hpush.spr]; omega)).trans (hpush.bytes k hk)

/-- A push and a pop of as many bytes leave everything below SPR as it was where the registers popped into get back
what they held, whatever has happened above SPR in between. -/
theorem sameButAboveSpr_of_pushed_popped {s t u v : State} {bs : List Byte} {n : Nat} {slot : Slot → Prop}
    {freg : FSlot → Prop} (hn : bs.length = n) (hpush : PushedOnto s t bs) (hbetween : SameButAboveSpr t u)
    (hpop : PoppedFrom u v n slot freg) (hslots : ∀ j, slot j → v.slot j = s.slot j)
    (hfregs : ∀ k, freg k → v.freg k = s.freg k) : SameButAboveSpr s v := by
  obtain ⟨hu, hbelow⟩ := hbetween
  have hregs : v.regs = s.regs := Vector.ext fun j hj => by
    by_cases h : slot ⟨j, hj⟩
    · exact hslots _ h
    · have hkept : v.slot ⟨j, hj⟩ = t.slot ⟨j, hj⟩ := by rw [hpop.slots _ h, hu]; rfl
      rwa [State.slot, State.slot, hpush.regs] at hkept
  have hfregs' : v.fregs = s.fregs := Vector.ext fun k hk => by
    by_cases h : freg ⟨k, hk⟩
    · exact hfregs _ h
    · have hkept : v.freg ⟨k, hk⟩ = t.freg ⟨k, hk⟩ := by rw [hpop.fregs _ h, hu]; rfl
      rwa [State.freg, State.freg, hpush.fregs] at hkept
  have hspr : v.spr = s.spr := by rw [hpop.spr, hu, hpush.spr, hn, Nat.add_sub_cancel]
  have hflags : v.flags = s.flags := by rw [hpop.flags, hu, hpush.flags]
  have hipo : v.ipo = s.ipo := by rw [hpop.ipo, hu, hpush.ipo]
  have hram : v.ram = s.ram := by rw [hpop.ram, hu, hpush.ram]
  have hhmem : v.hmem = s.hmem := by rw [hpop.hmem, hu, hpush.hmem]
  have hevents : v.events = s.events := by rw [hpop.events, hu, hpush.events]
  have hcfg : v.cfg = s.cfg := by rw [hpop.cfg, hu, hpush.cfg]
  refine ⟨by rw [← hregs, ← hfregs', ← hspr, ← hflags, ← hipo, ← hram, ← hhmem, ← hevents, ← hcfg], fun x hx => ?_⟩
  rw [hpop.stack, hbelow x (by rw [hpush.spr]; omega), hpush.others x (.inl hx)]

/-! ### Instructions one after another -/

theorem execAll_cons_of_next {i : Instr} {is : List Instr} {s t : State} (h : exec i s = .next t) :
    execAll (i :: is) s = execAll is t := by
  simp only [execAll, h]

theorem execAll_append_of_next {is js : List Instr} {s t : State} (h : execAll is s = .next t) :
    execAll (is ++ js) s = execAll js t := by
  induction is generalizing s with
  | nil => cases h; rfl
  | cons i is ih =>
    cases hi : exec i s with
    | next u =>
      rw [execAll_cons_of_next hi] at h
      rw [List.cons_append, execAll_cons_of_next hi, ih h]
    | fault f => simp [execAll, hi] at h
    | refused r => simp [execAll, hi] at h

/-! ### The round trip of groups -/

/-- A slot of a group is given by the group's value. -/
theorem slot_eq_of_group_eq {s t : State} {w : Width} {i j : Slot} (h : t.group w i = s.group w i)
    (hj : inSlots i w.bytes j) : t.slot j = s.slot j := by
  obtain ⟨k, hk, hjk⟩ := hj
  apply BitVec.eq_of_toNat_eq
  rw [slot_eq_group_byte t w hk hjk, slot_eq_group_byte s w hk hjk, h]

/-- A group pushed and popped around instructions that change nothing but what is above SPR. -/
theorem push_between_pop {w : Width} {i : Slot} {is : List Instr} {s : State} (hwf : s.stack.wf = true)
    (hfit : s.spr + w.bytes ≤ s.cfg.stackCap)
    (hbetween : NextWith (execAll is (s.pushBytes (s.slotBytes i w.bytes)))
      (SameButAboveSpr (s.pushBytes (s.slotBytes i w.bytes)))) :
    NextWith (execAll (.push w i :: (is ++ [.pop w i])) s) (SameButAboveSpr s) := by
  have hlen := s.slotBytes_length i w.bytes
  have hpush : exec (.push w i) s = .next (s.pushBytes (s.slotBytes i w.bytes)) := State.push_fits (by rwa [hlen])
  have onto := pushBytes_onto hwf (s.slotBytes i w.bytes)
  obtain ⟨u, hrun, hsame⟩ := hbetween
  have hspr : u.spr = s.spr + w.bytes := by rw [hsame.spr, onto.spr, hlen]
  have hcfg : u.cfg = s.cfg := by rw [hsame.cfg, onto.cfg]
  obtain ⟨v, hpop, hgroup, popped⟩ := (popResult w i 0 u (by rwa [hspr, hcfg])).1 (by omega)
  have hback : v.group w i = s.group w i := by
    rw [hgroup, hspr, Nat.add_sub_cancel, stkBytes_of_pushed hlen onto hsame, State.group]
  refine ⟨v, ?_, sameButAboveSpr_of_pushed_popped hlen onto hsame popped (fun j => slot_eq_of_group_eq hback)
    fun _ hk => hk.elim⟩
  rw [execAll_cons_of_next hpush, execAll_append_of_next hrun]
  exact execAll_cons_of_next hpop

/-- Settles O57, by induction on the groups: the first is pushed and popped around the trip of the others. -/
theorem stackRoundTripIsLifo : Obligations.StackRoundTripIsLifo := by
  intro gs
  induction gs with
  | nil => exact fun s _ _ => ⟨s, rfl, SameButAboveSpr.refl s⟩
  | cons g gs ih =>
    intro s hwf hfit
    rw [List.map_cons, List.sum_cons] at hfit
    rw [List.map_cons, List.reverse_cons, List.map_append, List.cons_append, ← List.append_assoc]
    refine push_between_pop hwf (by omega) (ih _ (stkStore_wf hwf _ _) ?_)
    rw [State.pushBytes_spr, State.pushBytes_cfg, State.slotBytes_length]
    omega

/-! ### The round trip of ranges -/

theorem stkBytes_add (m : Memory) (i p q : Nat) : stkBytes m i (p + q) = stkBytes m i p ++ stkBytes m (i + p) q := by
  induction p generalizing i with
  | zero => simp [stkBytes]
  | succ p ih => rw [Nat.succ_add, stkBytes, ih, stkBytes, List.cons_append, Nat.add_assoc, Nat.add_comm 1]

/-- Where the bytes of float registers stand, those of each register stand (41_stack.md R309). -/
theorem stkBytes_of_fregBytes {s : State} {m : Memory} {a : FSlot} {i n j : Nat}
    (h : stkBytes m i (4 * n) = s.fregBytes a n) (hj : j < n) :
    stkBytes m (i + 4 * j) 4 = beBytes 4 (s.freg (a + Fin.ofNat 16 j)).toNat := by
  induction n generalizing a i j with
  | zero => omega
  | succ n ih =>
    rw [show 4 * (n + 1) = 4 + 4 * n by omega, stkBytes_add, State.fregBytes] at h
    obtain ⟨hfirst, hrest⟩ := List.append_inj h (by simp)
    cases j with
    | zero => simpa using hfirst
    | succ j =>
      have hreg : a + Fin.ofNat 16 (j + 1) = a + 1 + Fin.ofNat 16 j := by
        apply Fin.ext
        simp only [Fin.val_add, Fin.ofNat]
        omega
      rw [hreg, ← ih hrest (by omega)]
      congr 1
      omega

/-- The range pop reads the register k before the last where the range push wrote it (41_stack.md R305, R306). -/
theorem popSlots_pushBytes_slot {s : State} {a e j : Slot} (hwf : s.stack.wf = true)
    (hj : inSlots a (rangeCount a e) j) :
    ((s.pushBytes (s.slotBytes a (rangeCount a e))).popSlots e (rangeCount a e)).slot j = s.slot j := by
  have hlen := s.slotBytes_length a (rangeCount a e)
  have onto := pushBytes_onto hwf (s.slotBytes a (rangeCount a e))
  obtain ⟨k, hk, rfl⟩ := exists_eq_sub_of_mem_range hj
  have hpos : s.spr + rangeCount a e - 1 - k = s.spr + (rangeCount a e - 1 - k) := by omega
  rw [popSlots_slot _ e _ (rangeCount_le a e) (by rw [onto.spr]; omega) k hk, onto.spr, hlen, hpos,
    onto.bytes _ (by omega), sub_ofNat_eq_add_ofNat hk]
  exact slotBytes_getElem s (by omega) (val_add_ofNat a _)

/-- The float range pop reads the register k before the last where the float range push wrote it (41_stack.md R309,
R310). -/
theorem popFregs_pushBytes_freg {s : State} {a e j : FSlot} (hwf : s.stack.wf = true)
    (hj : inFregs a (rangeCount a e) j) :
    ((s.pushBytes (s.fregBytes a (rangeCount a e))).popFregs e (rangeCount a e)).freg j = s.freg j := by
  have hlen := s.fregBytes_length a (rangeCount a e)
  have onto := pushBytes_onto hwf (s.fregBytes a (rangeCount a e))
  obtain ⟨k, hk, rfl⟩ := exists_eq_sub_of_mem_range hj
  have hpos : s.spr + 4 * rangeCount a e - 4 * (k + 1) = s.spr + 4 * (rangeCount a e - 1 - k) := by omega
  apply BitVec.eq_of_toNat_eq
  rw [popFregs_freg _ e _ (rangeCount_le a e) (by rw [onto.spr]; omega) k hk, onto.spr, hlen, hpos,
    stkBytes_of_fregBytes (stkBytes_of_pushed hlen onto (.refl _)) (by omega), ← sub_ofNat_eq_add_ofNat hk,
    beValue_beBytes]
  exact Nat.mod_eq_of_lt (BitVec.isLt _)

/-- A push and at once a pop of as many bytes, which gives the registers it pops into what they held. -/
theorem execAll_push_popCheck {p q : Instr} {s : State} {bs : List Byte} {n : Nat} {k : State → State}
    {slot : Slot → Prop} {freg : FSlot → Prop} (hp : exec p s = s.push bs) (hq : ∀ t, exec q t = t.popCheck n k)
    (hwf : s.stack.wf = true) (hn : bs.length = n) (hfit : s.spr + n ≤ s.cfg.stackCap)
    (hpop : PoppedFrom (s.pushBytes bs) (k (s.pushBytes bs)) n slot freg)
    (hslots : ∀ j, slot j → (k (s.pushBytes bs)).slot j = s.slot j)
    (hfregs : ∀ j, freg j → (k (s.pushBytes bs)).freg j = s.freg j) :
    NextWith (execAll [p, q] s) fun t => t = { s with stack := t.stack } := by
  have hpush : exec p s = .next (s.pushBytes bs) := by rw [hp, State.push_fits (hn ▸ hfit)]
  have hback : exec q (s.pushBytes bs) = .next (k (s.pushBytes bs)) := by
    rw [hq, State.popCheck_holds (by rw [State.pushBytes_spr]; omega)
      (by rwa [State.pushBytes_spr, State.pushBytes_cfg, hn])]
  exact ⟨k (s.pushBytes bs), (execAll_cons_of_next hpush).trans (execAll_cons_of_next hback),
    (sameButAboveSpr_of_pushed_popped hn (pushBytes_onto hwf bs) (.refl _) hpop hslots hfregs).1⟩

/-- Settles O58: each register gets back the bytes that it pushed, which the pop finds counting from the other end. -/
theorem rangeRoundTrip : Obligations.RangeRoundTrip := fun a e fa fe s hwf =>
  ⟨fun hfit => execAll_push_popCheck (exec_pushr s a e) (fun t => exec_popr t a e) hwf (s.slotBytes_length a _) hfit
      (popSlots_poppedFrom _ a e) (fun _ hj => popSlots_pushBytes_slot hwf hj) fun _ hk => hk.elim,
    fun hfit => execAll_push_popCheck (exec_pushfr s fa fe) (fun t => exec_popfr t fa fe) hwf
      (s.fregBytes_length fa _) hfit (popFregs_poppedFrom _ fa fe) (fun _ hj => hj.elim)
      fun _ hk => popFregs_pushBytes_freg hwf hk⟩

end Sys2Proof.Machine
end

section
/-! DJNZ (42_control.md R350 to R354): the counter's write-back and then, in the state it leaves, the jump. -/

namespace Sys2Proof.Machine

/-! ### The decremented counter -/

/-- Taking one away modulo 2^W is adding 2^W - 1 (42_control.md R350). -/
theorem truncInt_sub_one (w : Width) (v : Nat) : truncInt w ((v : Int) - 1) = trunc w (v + (2 ^ w.bits - 1)) := by
  have hsum : ((v + (2 ^ w.bits - 1) : Nat) : Int) = (v : Int) - 1 + 2 ^ w.bits := by
    push_cast [Nat.one_le_two_pow (n := w.bits)]
    ring
  rw [← truncInt_natCast, hsum, truncInt, truncInt, Int.add_emod_right]

/-- What DJNZ writes back to its counter. -/
def djnzCount (s : State) (c : Cell) : Nat := trunc c.width ((resolveCell s c).read s + (2 ^ c.width.bits - 1))

theorem truncInt_read_sub_one (s : State) (c : Cell) :
    truncInt (resolveCell s c).width (((resolveCell s c).read s : Int) - 1) = djnzCount s c := by
  rw [truncInt_sub_one, resolveCell_width, djnzCount]

theorem djnzCount_lt (s : State) (c : Cell) : djnzCount s c < 2 ^ (resolveCell s c).width.bits := by
  rw [resolveCell_width]
  exact trunc_lt c.width _

/-! ### The jump -/

/-- A jump to where IPO already is changes nothing. -/
theorem State.setIpo_of_ipo_eq {s : State} {a : Addr} (h : s.ipo = a) : s.setIpo a = s := h ▸ rfl

/-- DJNZ writes the counter back and then sets IPO, which is the fall-through address where the counter became zero. -/
theorem exec_djnz (c : Cell) (g : Target) (s : State) : exec (.djnz c g) s =
    .next (((resolveCell s c).write s (djnzCount s c)).setIpo
      (if djnzCount s c = 0 then s.ipo else targetVal ((resolveCell s c).write s (djnzCount s c)) g)) := by
  simp only [exec, execDjnz, truncInt_read_sub_one]
  by_cases hz : djnzCount s c = 0
  · rw [if_pos hz, if_pos hz, State.setIpo_of_ipo_eq (Loc.write_ipo ..)]
  · rw [if_neg hz, if_neg hz]

/-- Settles O59: setting IPO touches neither what the write-back left nor the register that a target is read from. -/
theorem djnzResult : Obligations.DjnzResult := by
  intro c g s h l r
  refine ⟨_, exec_djnz c g s, ?_, by simp, (Loc.write_frame h).setIpo _, ?_⟩
  · rw [Loc.read_setIpo, Loc.read_write_of_lt h (djnzCount_lt s c)]
    rfl
  · rw [State.setIpo_ipo]
    cases g with
    | abs => rfl
    | reg => rfl

end Sys2Proof.Machine
end

section
/-! Loads, stores and fills (43_load_store.md R400 to R409): each instruction as one write to a location, to a float
register or to RAM, the narrowing of a float, and the units of a fill. -/

namespace Sys2Proof.Machine

/-! ### The instructions, as one write of a value read before it -/

section

variable (s : State)

theorem exec_ld (dst : ILoc) (src : ISrc) : exec (.ld dst src) s = .next ((resolve s dst).write s (srcVal s src)) := rfl

theorem exec_ldff (d k : FSlot) : exec (.ldff d k) s = .next (s.setFreg d (s.freg k)) := rfl

theorem exec_ldfi (d : FSlot) (p : FloatBits) : exec (.ldfi d p) s = .next (s.setFreg d p) := rfl

theorem exec_ldfm (d : FSlot) (m : MemRef) : exec (.ldfm d m) s =
    .next (s.setFreg d (BitVec.ofNat 32 (memRead s.ram (effAddr s m) 4))) := rfl

theorem exec_ldfx (d : FSlot) (src : ISrc) : exec (.ldfx d src) s = .next (s.setFreg d (toF32 (srcVal s src))) := rfl

/-- A float store is the write of a 32-bit value: no pattern is longer (43_load_store.md R405). -/
theorem exec_stf (m : MemRef) (src : FRegOrImm) : exec (.stf m src) s =
    .next ((Loc.mem .w32 (effAddr s m)).write s (fregOrImmVal s src).toNat) := by
  rw [Loc.write, trunc_of_lt (fregOrImmVal s src).isLt]
  rfl

theorem exec_ldxf (dst : ILoc) (k : FSlot) : exec (.ldxf dst k) s =
    if isNaN (s.freg k) then .refused .floatNaN
    else .next (((resolve s dst).write s (clampW dst.width (fRounded (s.freg k)))).setFlags
      (s.flags.narrowed (clampW dst.width (fRounded (s.freg k))) (fRounded (s.freg k)))) := by
  simp only [exec, execLdxf, resolve_width]

theorem exec_fill (m : MemRef) (pat cnt : RegOrImm) : exec (.fill m pat cnt) s =
    .next (s.setRam (fillCore s.ram (effAddr s m) (regOrImmVal s pat) pat.width.bytes (regOrImmVal s cnt))) := rfl

theorem exec_fills (m : MemRef) (pat cnt : RegOrImm) (wr : Width) (rep : Slot) : exec (.fills m pat cnt wr rep) s =
    .next (s.setRam
      (stampCore s.ram (effAddr s m) (regOrImmVal s pat) pat.width.bytes (regOrImmVal s cnt)
        (Config.stampStride (regOrImmVal s cnt) pat.width.bytes) (s.group wr rep))) := rfl

end

/-! ### Fills -/

/-- A fill made in two parts: the second begins where the first ends (43_load_store.md R408). -/
theorem fillCore_add (m : Memory) (a : Addr) (p u i j : Nat) :
    fillCore (fillCore m a p u i) (a + BitVec.ofNat 24 (i * u)) p u j = fillCore m a p u (i + j) := by
  induction j with
  | zero => rfl
  | succ j ih =>
    rw [← Nat.add_assoc, fillCore, fillCore, ih, BitVec.add_assoc, ← BitVec.ofNat_add, ← Nat.add_mul]

/-- Settles O50, by induction on the repeat count: each stamp continues the fill that the stamps before it made. -/
theorem contiguousStampsAreOneFill : Obligations.ContiguousStampsAreOneFill := by
  intro m a p u n r
  induction r with
  | zero => rfl
  | succ r ih =>
    have hstart : r * (n * u) = n * r * u := by ring
    rw [stampCore, ih, hstart, fillCore_add, Nat.mul_succ]

/-- A pattern is far shorter than the address space, so that no unit of a fill laps itself. -/
theorem bytes_le_addrSpace (w : Width) : w.bytes ≤ 2 ^ 24 := w.bytes_le.trans (by decide)

/-- Settles O48: the fill's bytes by the last unit that covers them, the others by no unit covering them. -/
theorem fillResult : Obligations.FillResult := by
  intro m pat cnt s h p u N at'
  refine ⟨_, exec_fill s m pat cnt, fun j k hj hk hlast => ?_, rfl, rfl, setRam_frame fun x hx => ?_⟩
  · exact fillCore_byte h (bytes_le_addrSpace _) hj hk hlast
  · exact fillCore_outside h fun j k hj hk hxa => hx ⟨j, k, hj, hk, hxa⟩

/-- Settles O49: the stamps' bytes by the last unit that covers them, the others by no unit covering them. -/
theorem stampedFillResult : Obligations.StampedFillResult := by
  intro m pat cnt wr rep s h p u N R at'
  refine ⟨_, exec_fills s m pat cnt wr rep, fun r j k hr hj hk hlast => ?_, rfl, rfl, setRam_frame fun x hx => ?_⟩
  · exact stampCore_byte h (bytes_le_addrSpace _) hr hj hk hlast
  · exact stampCore_outside h fun r j k hr hj hk hxa => hx ⟨r, j, k, hr, hj, hk, hxa⟩

/-! ### Copies and conversions -/

/-- Settles O43: a source of the destination's width fits it, so that the write does not reduce the value. -/
theorem loadResult : Obligations.LoadResult := by
  intro dst src s h hw
  have hfits : srcVal s src < 2 ^ (resolve s dst).width.bits := by
    rw [resolve_width, hw]
    exact srcVal_lt s src
  rw [exec_ld]
  exact writesLoc_write_keep h hfits

/-- Settles O44: three of the moves write a float register, the store a location that any pattern fits. -/
theorem floatMoveResult : Obligations.FloatMoveResult := by
  intro d k p m src s h
  rw [exec_ldff, exec_ldfi, exec_ldfm, exec_stf]
  refine ⟨writesFreg_setFreg .., writesFreg_setFreg .., writesFreg_setFreg .., ?_⟩
  cases src with
  | freg j => exact writesLoc_write_keep h (s.freg j).isLt
  | fimm q => exact writesLoc_write_keep h q.isLt

/-- Settles O45: the converted value is written to the float register alone. -/
theorem intToFloatResult : Obligations.IntToFloatResult := by
  intro d src s
  rw [exec_ldfx]
  exact writesFreg_setFreg ..

theorem maxVal_cast (w : Width) : (maxVal w : Int) = 2 ^ w.bits - 1 := by
  rw [maxVal]
  push_cast [Nat.one_le_two_pow (n := w.bits)]
  rfl

/-- Clamping moves a value exactly where it lies outside the width's range. -/
theorem clampW_ne_iff (w : Width) (n : Int) : (clampW w n : Int) ≠ n ↔ n < 0 ∨ 2 ^ w.bits - 1 < n := by
  rw [Ne, clampW_eq_iff, maxVal_cast]
  omega

/-- V of a narrowing says that the value was out of range (43_load_store.md R407). -/
theorem narrowed_clampW (f : Flags) (w : Width) (n : Int) :
    f.narrowed (clampW w n) n = { f with v := decide (n < 0 ∨ 2 ^ w.bits - 1 < n) } := by
  simp only [Flags.narrowed, clampW_ne_iff]

/-- Settles O47: past the NaN check LDXF writes the clamped value, with V where clamping moved it. -/
theorem floatToIntResult : Obligations.FloatToIntResult := by
  intro dst k s h l W p n r hp
  have hfits : clampW dst.width n < 2 ^ (resolve s dst).width.bits := by
    rw [resolve_width]
    exact clampW_lt dst.width n
  have hwrites := writesLoc_write (f := s.flags.narrowed (clampW dst.width n) n) h hfits
  rw [narrowed_clampW, clampW_eq] at hwrites
  rw [exec_ldxf, if_neg (by simp [p, hp]), narrowed_clampW, clampW_eq]
  exact hwrites

end Sys2Proof.Machine
end

section
/-! The exceptions (60_exceptions.md): the DivZero report (R504), the event history that no step reads (R510), and the
outcomes a step can end in (R511). -/

namespace Sys2Proof.Machine

open Config

/-! ### The DivZero report -/

section

variable (dst rem : ILoc) {src : ISrc} {s : State}

theorem sext_srcVal_eq_zero (hb : srcVal s src = 0) : sext src.width (srcVal s src) = 0 :=
  (sext_eq_zero (srcVal_lt s src)).2 hb

theorem exec_sdiv_of_zero (hb : srcVal s src = 0) : exec (.sdiv dst src) s = .next s.reportDivZero := by
  simp only [exec, execSdiv, if_pos (sext_srcVal_eq_zero hb)]

theorem exec_sdivr_of_zero (hb : srcVal s src = 0) : exec (.sdivr dst src rem) s = .next s.reportDivZero := by
  simp only [exec, execSdivr, if_pos (sext_srcVal_eq_zero hb)]

end

/-- Settles O36: a divisor of zero has a sign extension of zero, which both forms report. -/
theorem signedDivByZeroIsReported : Obligations.SignedDivByZeroIsReported := fun dst rem _ _ hb =>
  ⟨exec_sdiv_of_zero dst hb, exec_sdivr_of_zero dst rem hb⟩

/-! ### The event history -/

/-- An outcome with a function applied to the next state it answers. -/
def mapNext (g : State → State) : Host.Outcome State Fault Refusal → Host.Outcome State Fault Refusal
  | .next t => .next (g t)
  | .fault f => .fault f
  | .refused r => .refused r

theorem mapNext_eq_next {g : State → State} {o : Host.Outcome State Fault Refusal} {t : State}
    (h : mapNext g o = .next t) : ∃ u, o = .next u ∧ g u = t := by
  cases o with
  | next u => exact ⟨u, rfl, by cases h; rfl⟩
  | fault | refused => cases h

/-- Two choices by one condition map where their branches do. -/
theorem ite_eq_mapNext {g : State → State} {c : Prop} [Decidable c] {o₁ o₂ o₁' o₂' : Host.Outcome State Fault Refusal}
    (h₁ : o₁ = mapNext g o₁') (h₂ : o₂ = mapNext g o₂') :
    (if c then o₁ else o₂) = mapNext g (if c then o₁' else o₂') := by
  rw [h₁, h₂, apply_ite (mapNext g)]

/-- The state with an older history beneath its own. -/
abbrev onHistory (es : List Event) (s : State) : State := setEv s (s.events ++ es)

section

variable (es : List Event) (s : State)

/-! Each operation leaves the history beneath where it is: done before or after, putting it there is the same. -/

theorem write_onHistory (l : Loc) (v : Nat) : l.write (onHistory es s) v = onHistory es (l.write s v) := by
  simp only [onHistory, write_setEv, Loc.write_events]

theorem aluWrite_onHistory (l : Loc) (r : Nat) (c : Bool) :
    aluWrite (onHistory es s) l r c = mapNext (onHistory es) (aluWrite s l r c) := by
  simp only [aluWrite, write_onHistory]
  rfl

theorem divWrite_onHistory (l lr : Loc) (q rm : Nat) (c : Bool) :
    divWrite (onHistory es s) l lr q rm c = mapNext (onHistory es) (divWrite s l lr q rm c) := by
  simp only [divWrite, write_onHistory]
  rfl

theorem satWrite_onHistory (l : Loc) (x : Int) :
    satWrite (onHistory es s) l x = mapNext (onHistory es) (satWrite s l x) := by
  simp only [satWrite, write_onHistory]
  rfl

theorem push_onHistory (bs : List Byte) : (onHistory es s).push bs = mapNext (onHistory es) (s.push bs) :=
  ite_eq_mapNext rfl rfl

/-- A pop that goes on in a way that leaves the history beneath where it is. -/
theorem popCheck_onHistory (n : Nat) {k : State → State} (hk : k (onHistory es s) = onHistory es (k s)) :
    (onHistory es s).popCheck n k = mapNext (onHistory es) (s.popCheck n k) :=
  ite_eq_mapNext rfl (ite_eq_mapNext rfl (congrArg Host.Outcome.next hk))

theorem setSlots_onHistory (i : Slot) (bs : List Byte) :
    (onHistory es s).setSlots i bs = onHistory es (s.setSlots i bs) := by
  simp only [onHistory, setSlots_setEv, State.setSlots_events]

theorem popSlots_onHistory (i : Slot) (n : Nat) :
    (onHistory es s).popSlots i n = onHistory es (s.popSlots i n) := by
  simp only [onHistory, popSlots_setEv, State.popSlots_frame]

theorem popFregs_onHistory (k : FSlot) (n : Nat) :
    (onHistory es s).popFregs k n = onHistory es (s.popFregs k n) := by
  simp only [onHistory, popFregs_setEv, State.popFregs_frame]

/-- No instruction reads the history: over an older one it does what it does without it, its events on top. -/
theorem exec_onHistory (i : Instr) : exec i (onHistory es s) = mapNext (onHistory es) (exec i s) := by
  cases i with
  | ld d x =>
    simp only [exec_ld, resolve_setEv, srcVal_setEv, write_onHistory]
    rfl
  | ldff | ldfi | fdenom => rfl
  | ldfm d m =>
    simp only [exec, execLdfm, floatAt_setEv]
    rfl
  | stf m x =>
    simp only [exec_stf, effAddr_setEv, fri_setEv]
    rfl
  | ldfx d x =>
    simp only [exec_ldfx, srcVal_setEv]
    rfl
  | ldxf d k =>
    simp only [exec_ldxf, freg_setEv, resolve_setEv, write_onHistory]
    exact ite_eq_mapNext rfl rfl
  | fill m p n =>
    simp only [exec_fill, effAddr_setEv, roi_setEv]
    rfl
  | fills m p n w r =>
    simp only [exec_fills, effAddr_setEv, roi_setEv, group_setEv]
    rfl
  | add d x | sub d x | mul d x =>
    simp only [exec, execAdd, execSub, execMul, resolve_setEv, srcVal_setEv, read_setEv]
    exact aluWrite_onHistory ..
  | addf d x | subf d x =>
    simp only [exec_addf, exec_subf, resolve_setEv, fsrcVal_setEv, read_setEv]
    exact ite_eq_mapNext rfl (satWrite_onHistory ..)
  | div d x =>
    simp only [exec, execDiv, resolve_setEv, srcVal_setEv, read_setEv]
    exact ite_eq_mapNext (aluWrite_onHistory ..) (aluWrite_onHistory ..)
  | divr d x e =>
    simp only [exec, execDivr, resolve_setEv, srcVal_setEv, read_setEv]
    exact ite_eq_mapNext (divWrite_onHistory ..) (divWrite_onHistory ..)
  | sdiv d x =>
    simp only [exec, execSdiv, resolve_setEv, srcVal_setEv, read_setEv]
    exact ite_eq_mapNext rfl (aluWrite_onHistory ..)
  | sdivr d x e =>
    simp only [exec, execSdivr, resolve_setEv, srcVal_setEv, read_setEv]
    exact ite_eq_mapNext rfl (divWrite_onHistory ..)
  | cp a b =>
    simp only [exec, execCp, resolve_setEv, srcVal_setEv, read_setEv]
    rfl
  | fcp a b =>
    simp only [exec, execFcp, flocVal_setEv, fsrcVal_setEv]
    rfl
  | nand d x | xnor d x | imply d x =>
    simp only [exec_nand, exec_xnor, exec_imply, logicWrite, resolve_setEv, srcVal_setEv, read_setEv,
      write_onHistory]
    rfl
  | push w i | pushr a e | pushf k | pushfr a e =>
    simp only [exec_push, exec_pushr, exec_pushf, exec_pushfr, slotBytes_setEv, freg_setEv, fregBytes_setEv]
    exact push_onHistory ..
  | pop w i =>
    rw [exec_pop, exec_pop]
    exact popCheck_onHistory es s _ (setSlots_onHistory es (s.drop w.bytes) i _)
  | popr a e =>
    rw [exec_popr, exec_popr]
    exact popCheck_onHistory es s _ (popSlots_onHistory ..)
  | popf k =>
    rw [exec_popf, exec_popf]
    exact popCheck_onHistory es s _ rfl
  | popfr a e =>
    rw [exec_popfr, exec_popfr]
    exact popCheck_onHistory es s _ (popFregs_onHistory ..)
  | djnz c g =>
    simp only [exec, execDjnz, resolveCell_setEv, read_setEv, write_onHistory, target_setEv]
    split
    · rfl
    · rfl

/-- Nor is the history any part of what a fetch reads. -/
theorem step_onHistory : step (onHistory es s) = mapNext (onHistory es) (step s) := by
  have hfetch : fetchInstr (onHistory es s) = fetchInstr s := rfl
  unfold step
  rw [hfetch, show (onHistory es s).cfg = s.cfg from rfl]
  split
  · rfl
  · exact exec_onHistory es (s.advance _) _

end

/-- Settles O21: the new events are those of the step from an empty history, of which the steps from the two histories
are the same image. -/
theorem portHistoryIsNeverRead : Obligations.PortHistoryIsNeverRead := by
  intro s t es h
  have hempty : mapNext (onHistory s.events) (step (setEv s [])) = .next t := (step_onHistory ..).symm.trans h
  obtain ⟨u, hu, rfl⟩ := mapNext_eq_next hempty
  refine ⟨u.events, rfl, ?_⟩
  calc step { s with events := es } = mapNext (onHistory es) (step (setEv s [])) := step_onHistory es (setEv s [])
    _ = .next (onHistory es u) := by rw [hu, mapNext]

/-! ### The outcomes of a step -/

theorem stackCap_lt_of_popCheck_fault {s : State} {n : Nat} {k : State → State} {f : Fault}
    (h : s.popCheck n k = .fault f) : s.cfg.stackCap < s.spr := by
  unfold State.popCheck at h
  split at h
  · cases h
  · split at h
    · assumption
    · cases h

/-- Only a pop with SPR above STACK_CAP faults (10_state.md R43, log 12). -/
theorem stackCap_lt_of_exec_fault {i : Instr} {s : State} {f : Fault} (h : exec i s = .fault f) :
    s.cfg.stackCap < s.spr := by
  cases i with
  | ld | ldff | ldfi | ldfm | stf | ldfx | fill | fills | add | sub | mul | cp | fcp | nand | xnor | imply | djnz |
      fdenom => cases h
  | ldxf | addf | subf =>
    simp only [exec_ldxf, exec_addf, exec_subf, satWrite] at h
    split at h <;> cases h
  | div | divr | sdiv | sdivr =>
    simp only [exec, execDiv, execDivr, execSdiv, execSdivr, aluWrite, divWrite] at h
    split at h <;> cases h
  | push | pushr | pushf | pushfr =>
    simp only [exec_push, exec_pushr, exec_pushf, exec_pushfr, State.push] at h
    split at h <;> cases h
  | pop | popr | popf | popfr =>
    simp only [exec_pop, exec_popr, exec_popf, exec_popfr] at h
    exact stackCap_lt_of_popCheck_fault h

/-- Within the bound on SPR an instruction answers a next state or one of its two refusals. -/
theorem specOutcome_exec {s : State} (hspr : s.spr ≤ s.cfg.stackCap) (i : Instr) : SpecOutcome (exec i s) := by
  unfold SpecOutcome
  cases h : exec i s with
  | next t => exact .inl ⟨t, rfl⟩
  | fault f => exact absurd (stackCap_lt_of_exec_fault h) hspr.not_gt
  | refused r => obtain rfl | rfl := refusal_of_exec h <;> simp

/-- The bytes a descriptor asks for hold its operand fields, behind the pair byte of a mixed one. -/
theorem startsAt_of_length {d : Descriptor} {bs : List Byte} (last : Byte) (hbs : bs.length = bodyLength d) :
    ∃ c, StartsAt last d.mixed bs c ∧
      (d.operands.map rawBytes).sum + ((d.operands.map OperandSpec.indexFields).sum - c.pair.length) ≤
        c.bytes.length := by
  unfold bodyLength Descriptor.indexFields at hbs
  cases hm : d.mixed with
  | false =>
    simp only [hm, Bool.false_eq_true, if_false] at hbs
    exact ⟨_, .plain, hbs.ge⟩
  | true =>
    simp only [hm, if_true] at hbs
    cases bs with
    | nil =>
      rw [List.length_nil] at hbs
      omega
    | cons cm bs =>
      rw [List.length_cons] at hbs
      refine ⟨_, .mixed, ?_⟩
      simp only [mixedPair, List.length_cons, List.length_nil]
      omega

/-- Under a well-formed descriptor and with its bytes there, decoding is truncated nowhere and meets a candidate row, so
that only a bad index stops it (30_encoding.md R122, R128). -/
theorem decodeBody_ok_or_badRegIndex {d : Descriptor} (hd : d.wf = true) {bs : List Byte} (last : Byte)
    (hbs : bs.length = bodyLength d) :
    (∃ r, decodeBody d last bs = .ok r) ∨ decodeBody d last bs = .error .badRegIndex := by
  obtain ⟨⟨pair, bytes⟩, hc, hlen⟩ := startsAt_of_length last hbs
  obtain ⟨ops, c', hops⟩ | hbad := (decodeOperands_reads d.operands pair bytes).2 hlen
  · obtain ⟨hspec, -⟩ := decodeOperands_spec hops
    have hrow : candidate d.op (ops.map Operand.spec) = true := by
      rw [hspec]
      exact (Bool.and_eq_true_iff.mp hd).1
    obtain ⟨i, hi⟩ := assemble_candidate hrow
    exact .inl ⟨_, decodeBody_of_operands hc hops hi⟩
  · exact .inr ((decodeBody_badRegIndex_iff hc).mpr hbad)

theorem State.Inv.wfOpMap {s : State} (hs : s.Inv) : wfOpMap s.cfg.opmap = true := by
  have hcfg := hs.cfgWf
  simp only [Params.wf, Bool.and_eq_true] at hcfg
  tauto

/-- Where the opcode bytes select no descriptor, the step is FOREIGN or ILLEGAL (30_encoding.md R104, R105). -/
theorem refused_or_selects {s : State} (hmap : wfOpMap s.cfg.opmap = true) :
    step s = .refused .foreign ∨ step s = .refused .illegal ∨ ∃ d last a, Selects s d last a ∧ d.wf = true := by
  have hwf := l1_wf hmap (s.ram.read s.ipo.toNat)
  cases hp : l1 s.cfg.opmap (s.ram.read s.ipo.toNat) with
  | none => exact .inr (.inl (step_of_l1_none hp))
  | foreign => exact .inl (step_of_foreign hp)
  | direct d =>
    rw [hp] at hwf
    exact .inr (.inr ⟨d, _, _, .inl ⟨hp, rfl, rfl⟩, hwf⟩)
  | sub t =>
    rw [hp] at hwf
    cases hx : l2 t (s.ram.read (s.ipo + 1).toNat) with
    | none => exact .inr (.inl (step_of_l2_none hp hx))
    | some d => exact .inr (.inr ⟨d, _, _, .inr ⟨t, hp, hx, rfl, rfl⟩, l2_wf hwf hx⟩)

/-- Settles O7: of the invariant, the well-formed map leaves a selected descriptor a bad index as its only refusal by
dispatch, and the bound on SPR leaves the instruction no fault. -/
theorem stepOutcomesAreTheSpecs : Obligations.StepOutcomesAreTheSpecs := by
  intro s hs
  obtain hforeign | hillegal | ⟨d, last, a, hsel, hd⟩ := refused_or_selects hs.wfOpMap
  · exact .inr (.inl hforeign)
  · exact .inr (.inr (.inl hillegal))
  · have hdec := decode_fetchInstr_of_selects hsel
    obtain ⟨⟨i, rest⟩, hok⟩ | hbad := decodeBody_ok_or_badRegIndex hd last (ramBytes_length s.ram a (bodyLength d))
    · rw [stepRunsDecodedInstruction s i rest (hdec.trans hok)]
      exact specOutcome_exec (s := s.advance _) hs.sprLe i
    · exact .inr (.inr (.inr (.inl (step_of_decode_error (hdec.trans hbad)))))

end Sys2Proof.Machine
end
